-- ==== Sys2Proof/Word.lean ====
section
/-! DEFINITION. The word types of QME (00_scope.md R10): `u8`, `u32`, `u64` and the binary32 pattern
type `f32`, and the two readings of a 64-bit register, `zext_64` and `sext_64` (30_encoding.md R104). -/

namespace Sys2Proof

/-- One byte of memory, and the content of a `u8` register (R10, R70). -/
abbrev Byte := BitVec 8

/-- The content of a `u32` register (R10). -/
abbrev Word32 := BitVec 32

/-- A register as the host sees it: 64 bits (R20), and the content of a `u64` or `s64` register. -/
abbrev Word64 := BitVec 64

/-- A binary32 value, identified with its 32-bit pattern (R10, R118). -/
abbrev F32 := BitVec 32

/-- `zext_64` into `int` (R10, R78): how a base address is read. -/
def zext64 (v : Word64) : Int := (v.toNat : Int)

/-- `sext_64` into `int` (R10, R78): how a stride is read, two's complement. -/
def sext64 (v : Word64) : Int := v.toInt

end Sys2Proof
end

