-- ==== Sys2Proof/Config.lean ====
section
/-! DEFINITION. What an implementation of QME fixes (00_scope.md R8) and the values the spec leaves free.
The open parameters are plain data (`Params`), held in State, so that every statement about all states holds
for every admitted value; the instance the reset state belongs to is an opaque constant. -/

namespace Sys2Proof

/-- One mapped range of byte addresses: `base` up to `base + size - 1` (the platform predicate `MEMMAP` of R8). -/
structure Region where
  base : Nat
  size : Nat
  deriving DecidableEq, Repr, Inhabited

/-- The OPEN implementation parameters of 00_scope.md R8, constant after reset (log entry 2). -/
structure Params where
  /-- `VEC_CAP`: the wide-vector unit exists (R8, R22). -/
  vecCap : Bool
  /-- `PACK_PRESENT`: the Packing Stage exists (R8, R200). -/
  packPresent : Bool
  /-- `NWORKERS`, an integer at least 1 (R8); 0 is read as 1 by `Params.workers`. -/
  nworkers : Nat
  /-- `QME_BASE`: bus address of register number 0 (R8, R20). -/
  qmeBase : Nat
  /-- `MEMMAP`: the addresses the memory port can reach (R8, R76). -/
  memmap : List Region
  deriving DecidableEq, Repr, Inhabited

/-- The parameters of the instance whose reset state `State.reset` is: OPEN (R8), so no value is given. -/
opaque Config.params : Params

/-- A free byte, the `k`-th drawn: what a byte of the output region holds after a launch that breaks host
duty H1, H2 or H3 (20_memory.md R82; log entry 7). -/
opaque Config.freeByte : Nat → Byte

/-- A free binary32 pattern, the `k`-th drawn: `D_RESULT` after a DOT that broke host duty H1 (log entry 7). -/
opaque Config.freeF32 : Nat → F32

/-- A free choice, the `k`-th drawn: whether an output byte holds its would-be value after an abort or a
reset in `BUSY` (60_exceptions.md R243; log entry 6). -/
opaque Config.freeBit : Nat → Bool

/-- Elements per Strategy V iteration: "BLOCK=16 packed elements per iteration" (R8). -/
def Config.block : Nat := 16

/-- The address space: `AW = 64` (R8, R70). -/
def Config.addressSpace : Int := 18446744073709551616

end Sys2Proof
end

