-- ==== Sys2Proof/Machine/State.lean ====
section
/-! DEFINITION. The state of QME as plain data (10_state.md, INVENTORY.md "State"), the reasons a step can stop,
and the state after reset (70_reset_and_hazards.md R260). -/

namespace Sys2Proof.Machine

/-- The registers of the map of 10_state.md R21, by name. -/
inductive Reg where
  | cap | cmd | status | bits | scale | zeroPoint
  | aBase | aDtype | aSize0 | aSize1 | aStride0 | aStride1
  | bBase | bDtype | bSize0 | bSize1 | bStride0 | bStride1
  | outBase | outDtype | outSize0 | outSize1
  | dAptr | dBptr | dLength | dRowStride | dColStride | dResult
  | xByte | xSub | xCode
  deriving DecidableEq, Repr

/-- Access kinds of 10_state.md R20. -/
inductive Access where
  /-- the host reads and writes -/
  | rw
  /-- the host reads; a host write is ignored -/
  | ro
  /-- the host writes; a host read returns 0 -/
  | wo
  deriving DecidableEq, Repr

/-- A matrix descriptor: six registers (10_state.md R26 to R28). -/
structure Desc where
  base : Word64
  dtype : Byte
  size0 : Word64
  size1 : Word64
  stride0 : Word64
  stride1 : Word64
  deriving DecidableEq, Repr

/-- A descriptor with its fields assembled as 30_encoding.md R104 reads them: base `zext_64`, sizes `nat`,
strides `sext_64`. -/
structure View where
  base : Int
  size0 : Nat
  size1 : Nat
  stride0 : Int
  stride1 : Int
  deriving DecidableEq, Repr

/-- The dot-product strategies of 42_dot_product.md R172: `dot_S4`, `dot_S8`, `dot_V`. -/
inductive Strategy where
  | s4 | s8 | v8
  deriving DecidableEq, Repr

/-- The arguments of `dot` (42_dot_product.md R160), the strategy standing for the static operand `bits`. -/
structure DotArgs where
  strategy : Strategy
  ap : Int
  bp : Int
  length : Nat
  rs : Int
  cs : Int
  scale : F32
  zp : F32
  deriving DecidableEq, Repr

/-- The latched operands of a MATMUL that passed its checks (10_state.md R40, 43_matmul_driver.md R184, R185). -/
structure MatmulArgs where
  strategy : Strategy
  a : View
  b : View
  out : Int
  scale : F32
  zp : F32
  deriving DecidableEq, Repr

/-- The latched operands of a PACK that passed its checks (10_state.md R40, 44_packing_stage.md R203). -/
structure PackArgs where
  bits : Nat
  a : View
  out : Int
  scale : F32
  zp : F32
  deriving DecidableEq, Repr

/-- The command latch (10_state.md R40): an accepted command with its operands. EXTRACT is never latched, it is
complete in the step that accepts it (40_bit_extractor.md R135). -/
inductive Launch where
  | dot (d : DotArgs)
  | matmul (m : MatmulArgs)
  | pack (p : PackArgs)
  deriving DecidableEq, Repr

/-- A worker context (10_state.md R41 to R43, R52): its row range `[lo, hi)`, the cell `(i, j)`, the next logical
element `l`, its accumulator and its vector lanes (the empty list before the first block; log entry 9). -/
structure Worker where
  lo : Nat
  hi : Nat
  i : Nat
  j : Nat
  l : Nat
  acc : F32
  lanes : List F32
  deriving DecidableEq, Repr

/-- Memory: the bytes that differ from what an unlisted address reads as, addresses strictly rising
(20_memory.md R70). -/
abbrev Memory := List Host.Cell

/-- A command in its busy phase (45_command_protocol.md R220). `mem0` is memory when it was accepted and
`tainted` says that the launch broke host duty H1, H2 or H3 (70_reset_and_hazards.md R270; log entries 6, 7). -/
structure Run where
  op : Launch
  workers : List Worker
  mem0 : Memory
  tainted : Bool
  deriving DecidableEq, Repr

/-- The error codes that end a command in `STATE = ERROR` (60_exceptions.md R230). -/
inductive PreError where
  | configuration
  | shapeMismatch
  | typeMismatch
  | illegalCommand
  deriving DecidableEq, Repr

/-- The error codes that end a command in `STATE = ABORT` (60_exceptions.md R230). -/
inductive AbortCode where
  | dispatch
  | memory
  deriving DecidableEq, Repr

/-- The engine state: `STATUS.STATE`, with the error code where there is one and the command's own state while
it is busy (10_state.md R24, R50). -/
inductive Engine where
  | idle
  | busy (run : Run)
  | done
  | error (code : PreError)
  | abort (code : AbortCode)
  deriving DecidableEq, Repr

/-- The sequencer's position between steps (10_state.md R52); `check` lies inside the issue step. -/
inductive SeqPos where
  | idle | check | run | retire
  deriving DecidableEq, Repr

/-- One action of the host (00_scope.md R7, 30_encoding.md R120 to R122). -/
inductive HostAction where
  /-- `HostWrite(r, v)`: the tuple `(W, r, v)`. -/
  | write (r : Nat) (v : Word64)
  /-- `HostRead(r)`: the tuple `(R, r)`. -/
  | read (r : Nat)
  /-- `WAIT`: repeat `RD STATUS` until the value read has `STATE != BUSY` (R121). -/
  | wait
  /-- The host stores one byte to memory, which it owns outside a command's lifetime (R7). -/
  | store (a : Word64) (b : Byte)
  /-- The platform pulses the reset input (70_reset_and_hazards.md R260, R261). -/
  | reset
  deriving DecidableEq, Repr

/-- Who moves at one step of a busy phase (45_command_protocol.md R220). -/
inductive Turn where
  | host
  | worker (w : Nat)
  | sequencer
  deriving DecidableEq, Repr

/-- The reasons a step stops with a fault: NONE. Every error of QME is a state of the machine (`STATE = ERROR` or
`STATE = ABORT`, 60_exceptions.md), in which reads and reset still work, so no meaning raises a fault. -/
inductive Fault where
  deriving DecidableEq, Repr

/-- The reasons a step is refused. -/
inductive Refusal where
  /-- Raised by an arm of `exec` whose instruction has no meaning yet; no arm does so. Safe: the model stops. -/
  | notModelled (mnemonic : String)
  deriving DecidableEq, Repr

/-- The state of the machine. -/
structure State where
  /-- The build-time parameters (00_scope.md R8); `CAP` (R22) is computed from them. -/
  par : Params
  /-- `BITS` (R25). -/
  bits : Word32
  /-- `SCALE` (R29). -/
  scale : F32
  /-- `ZERO_POINT` (R29). -/
  zeroPoint : F32
  /-- The A descriptor (R26). -/
  a : Desc
  /-- The B descriptor (R27). -/
  b : Desc
  /-- `OUT_BASE` (R30). -/
  outBase : Word64
  /-- `OUT_DTYPE` (R30). -/
  outDtype : Byte
  /-- `OUT_SIZE0` (R30). -/
  outSize0 : Word64
  /-- `OUT_SIZE1` (R30). -/
  outSize1 : Word64
  /-- `D_APTR` (R31). -/
  dAptr : Word64
  /-- `D_BPTR` (R31). -/
  dBptr : Word64
  /-- `D_LENGTH` (R31). -/
  dLength : Word64
  /-- `D_ROW_STRIDE` (R31). -/
  dRowStride : Word64
  /-- `D_COL_STRIDE` (R31). -/
  dColStride : Word64
  /-- `D_RESULT` (R31). -/
  dResult : F32
  /-- `X_BYTE` (R32). -/
  xByte : Byte
  /-- `X_SUB` (R32). -/
  xSub : Word32
  /-- `X_CODE` (R32). -/
  xCode : Byte
  /-- `STATUS.LASTOP` (R24). -/
  lastop : Byte
  /-- `STATUS.STATE` and `STATUS.ERR`, with the latch and the worker contexts while busy (R24, R40 to R43, R50). -/
  engine : Engine
  /-- Memory (20_memory.md R70). -/
  mem : Memory
  /-- The host's actions still to come (R122); the model's own field (log entry 1). -/
  host : List HostAction
  /-- What the host's register reads returned, register number and value, oldest first; the model's own field. -/
  reads : List (Nat × Word64)
  /-- Who moves at the coming steps of busy phases (U1); the model's own field (log entry 4). -/
  turns : List Turn
  /-- The cut points of the coming row partitions (`PARTITION`, R186); the model's own field (log entry 4). -/
  cuts : List (List Nat)
  /-- How many free values have been drawn; the model's own field (log entries 6, 7). -/
  fresh : Nat
  deriving DecidableEq, Repr

/-- A descriptor after reset: base, sizes and strides 0, type `NONE` (R260). -/
def Desc.reset : Desc :=
  { base := 0#64, dtype := 0#8, size0 := 0#64, size1 := 0#64, stride0 := 0#64, stride1 := 0#64 }

/-- The state after reset of the instance with parameters `p` (70_reset_and_hazards.md R260): every register 0,
`STATUS = 0`, no command in progress, memory with nothing listed, and no plan. -/
def State.resetOf (p : Params) : State where
  par := p
  bits := 0#32
  scale := 0#32
  zeroPoint := 0#32
  a := Desc.reset
  b := Desc.reset
  outBase := 0#64
  outDtype := 0#8
  outSize0 := 0#64
  outSize1 := 0#64
  dAptr := 0#64
  dBptr := 0#64
  dLength := 0#64
  dRowStride := 0#64
  dColStride := 0#64
  dResult := 0#32
  xByte := 0#8
  xSub := 0#32
  xCode := 0#8
  lastop := 0#8
  engine := .idle
  mem := []
  host := []
  reads := []
  turns := []
  cuts := []
  fresh := 0

/-- The machine right after reset (R260), of the instance whose parameters are left open (R8). -/
def State.reset : State := State.resetOf Config.params

end Sys2Proof.Machine
end

