-- ==== Sys2Proof/Machine/Float.lean ====
section
/-! DEFINITION. Float arithmetic (41_accumulator_dequant.md R140 to R149) over binary32 patterns (30_encoding.md R118),
computed exactly in naturals and rounded once. Every finite value is a multiple of `2^-149`, so a magnitude is a
natural number of these units, and a rounded result is found from the exact quotient of two naturals. -/

namespace Sys2Proof.Machine

/-- `1.0` is `2^149` units of `2^-149`. -/
def oneUnits : Nat := 2 ^ 149

/-- The canonical NaN (30_encoding.md R118). -/
def canonicalNaN : F32 := 0x7FC00000#32

/-- `+0.0` (R118). -/
def plusZero : F32 := 0x00000000#32

/-- The pattern of `+inf` as a number; patterns below it are the finite non-negative values in order (R118). -/
def infPattern : Nat := 0x7F800000

/-- Sign `S`, bit 31 (R118). -/
def fsign (x : F32) : Bool := x.msb

/-- Biased exponent `E`, bits 30:23 (R118). -/
def fexp (x : F32) : Nat := x.toNat / 2 ^ 23 % 2 ^ 8

/-- Fraction `F`, bits 22:0 (R118). -/
def ffrac (x : F32) : Nat := x.toNat % 2 ^ 23

/-- A NaN: `E = 255` and `F != 0` (R118). -/
def isNaN (x : F32) : Bool := fexp x == 255 && ffrac x != 0

/-- An infinity: `E = 255` and `F = 0` (R118). -/
def isInf (x : F32) : Bool := fexp x == 255 && ffrac x == 0

/-- A zero: `E = 0` and `F = 0` (R118). -/
def isZero (x : F32) : Bool := fexp x == 0 && ffrac x == 0

/-- The magnitude of a finite value in units of `2^-149`: `F` when `E = 0`, else `(2^23 + F) * 2^(E-1)` (R118). -/
def fmag (x : F32) : Nat := if fexp x = 0 then ffrac x else (2 ^ 23 + ffrac x) * 2 ^ (fexp x - 1)

/-- The value of a finite pattern in units of `2^-149` (R118). -/
def fval (x : F32) : Int := if fsign x then -(fmag x : Int) else fmag x

/-- The pattern with sign `s` and bits 30:0 equal to `p` (R118). -/
def withSign (s : Bool) (p : Nat) : F32 := BitVec.ofNat 32 ((if s then 2 ^ 31 else 0) + p)

/-- The zero of a sign (R118). -/
def signedZero (s : Bool) : F32 := withSign s 0

/-- The infinity of a sign (R118). -/
def signedInf (s : Bool) : F32 := withSign s infPattern

/-- `neg` flips bit 31 (R144). -/
def fneg (x : F32) : F32 := x ^^^ 0x80000000#32

/-- The integer nearest to `n / d`, the even one on a tie (R141, R147). -/
def roundEven (n d : Nat) : Nat :=
  if 2 * (n % d) < d then n / d
  else if d < 2 * (n % d) then n / d + 1
  else n / d + n / d % 2

/-- The spacing exponent at the real `n / d` units: 0 below `2^24` units (the subnormal and lowest normal grid),
else such that the quotient has 24 bits (R141). -/
def spacing (n d : Nat) : Nat := Nat.log2 (n / d) - 23

/-- Bits 30:0 of the binary32 value nearest to `n / d` units, ties to even, infinity from `2^128` on (R141). -/
def roundPattern (n d : Nat) : Nat :=
  min (spacing n d * 2 ^ 23 + roundEven n (d * 2 ^ spacing n d)) infPattern

/-- `round_f32` of the real of sign `s` and magnitude `n / d` units, `n, d > 0` (R141). -/
def roundF32 (s : Bool) (n d : Nat) : F32 := withSign s (roundPattern n d)

/-- `f32_of_u8(c)`, exact (R142). -/
def f32OfU8 (c : Nat) : F32 := if c = 0 then plusZero else roundF32 false (c * oneUnits) 1

/-- `fadd(a, b)`, its cases in order (R143). -/
def fadd (a b : F32) : F32 :=
  if isNaN a || isNaN b then canonicalNaN
  else if isInf a && isInf b && fsign a != fsign b then canonicalNaN
  else if isInf a then a
  else if isInf b then b
  else if isZero a && isZero b then signedZero (fsign a && fsign b)
  else if fval a + fval b = 0 then plusZero
  else roundF32 (decide (fval a + fval b < 0)) (fval a + fval b).natAbs 1

/-- `fsub(a, b) = fadd(a, neg(b))` (R144). -/
def fsub (a b : F32) : F32 := fadd a (fneg b)

/-- `fmul(a, b)`, its cases in order (R145). -/
def fmul (a b : F32) : F32 :=
  if isNaN a || isNaN b then canonicalNaN
  else if (isInf a && isZero b) || (isZero a && isInf b) then canonicalNaN
  else if isInf a || isInf b then signedInf (fsign a != fsign b)
  else if isZero a || isZero b then signedZero (fsign a != fsign b)
  else roundF32 (fsign a != fsign b) (fmag a * fmag b) oneUnits

/-- `fdiv(a, b)`, its cases in order (R146). -/
def fdiv (a b : F32) : F32 :=
  if isNaN a || isNaN b then canonicalNaN
  else if (isInf a && isInf b) || (isZero a && isZero b) then canonicalNaN
  else if isInf a || isZero b then signedInf (fsign a != fsign b)
  else if isZero a || isInf b then signedZero (fsign a != fsign b)
  else roundF32 (fsign a != fsign b) (fmag a * oneUnits) (fmag b)

/-- `frint(a)`: to an integral value, ties to even; an infinity or `|a| >= 2^23` is `a` itself (R147). -/
def frint (a : F32) : F32 :=
  if isNaN a then canonicalNaN
  else if isInf a || decide (2 ^ 23 * oneUnits ≤ fmag a) then a
  else if roundEven (fmag a) oneUnits = 0 then signedZero (fsign a)
  else roundF32 (fsign a) (roundEven (fmag a) oneUnits * oneUnits) 1

end Sys2Proof.Machine
end

