-- ==== Sys2Proof/Machine/Accumulate.lean ====
section
/-! DEFINITION. The accumulator micro-operations of `accumulator_with_dequant` (41_accumulator_dequant.md R150 to R152).
No operation is fused with another or reassociated (R149). -/

namespace Sys2Proof.Machine

/-- `ACC.CLR`: `ACC <- +0.0` (R150). -/
def accClr : F32 := plusZero

/-- The product of one element: `fmul(fsub(f32_of_u8(code), zp), bval)` (R151; a lane of 42_dot_product.md R169). -/
def elementProduct (zp : F32) (code : Nat) (bval : F32) : F32 := fmul (fsub (f32OfU8 code) zp) bval

/-- `ACC.MAC(code, bval)`: `ACC <- fadd(ACC, p)` (R151). -/
def accMac (zp acc : F32) (code : Nat) (bval : F32) : F32 := fadd acc (elementProduct zp code bval)

/-- `ACC.FIN`: `fmul(ACC, scale)` (R152). -/
def accFin (scale acc : F32) : F32 := fmul acc scale

end Sys2Proof.Machine
end

