-- ==== Sys2Proof/Machine/Flags.lean ====
section
/-! DEFINITION. QME has no flags, condition codes or float exception flags (10_state.md R44, 41_accumulator_dequant.md
R148): all that a command leaves besides its results is `STATUS`. This file computes the words of the two
status registers, `STATUS` (R24) and `CAP` (R22), and the codes in them. -/

namespace Sys2Proof.Machine

/-- The code of an error that ends a command in `ERROR` (60_exceptions.md R230). -/
def PreError.code : PreError → Byte
  | .configuration => 0x01#8
  | .shapeMismatch => 0x02#8
  | .typeMismatch => 0x03#8
  | .illegalCommand => 0x04#8

/-- The code of an abort (60_exceptions.md R230). -/
def AbortCode.code : AbortCode → Byte
  | .dispatch => 0x10#8
  | .memory => 0x11#8

/-- `STATUS.STATE` (10_state.md R24). -/
def Engine.stateCode : Engine → BitVec 3
  | .idle => 0#3
  | .busy _ => 1#3
  | .done => 2#3
  | .error _ => 3#3
  | .abort _ => 4#3

/-- `STATUS.ERR`: 0 (`NONE`) unless the engine is in `ERROR` or `ABORT` (R24). -/
def Engine.errCode : Engine → Byte
  | .idle => 0x00#8
  | .busy _ => 0x00#8
  | .done => 0x00#8
  | .error e => e.code
  | .abort c => c.code

/-- The value `STATUS` reads as: `LASTOP` in 23:16, `ERR` in 15:8, `STATE` in 2:0, the rest 0 (R24). -/
def State.statusWord (s : State) : Word64 :=
  (0#40 ++ s.lastop ++ s.engine.errCode ++ (0#5 ++ s.engine.stateCode))

/-- The value `CAP` reads as: bit 0 `VEC`, bit 1 `PACK`, bits 15:8 `VERSION = 1`, the rest 0 (R22). -/
def capWord (p : Params) : Word64 :=
  0#48 ++ 0x01#8 ++ (0#6 ++ BitVec.ofBool p.packPresent ++ BitVec.ofBool p.vecCap)

/-- `STATE = BUSY` (R24). -/
def Engine.isBusy : Engine → Bool
  | .busy _ => true
  | _ => false

/-- "if `STATE` is `BUSY` or `ABORT`, the write is ignored" (45_command_protocol.md R216, R219). -/
def Engine.locked : Engine → Bool
  | .busy _ => true
  | .abort _ => true
  | _ => false

/-- "A run is over when `STATE` is `DONE`, `ERROR` or `ABORT`" (45_command_protocol.md R221). -/
def Engine.runOver : Engine → Bool
  | .done => true
  | .error _ => true
  | .abort _ => true
  | _ => false

end Sys2Proof.Machine
end

