-- ==== Sys2Proof/Machine/Ops.lean ====
section
/-! DEFINITION. The named operations over memory (20_memory.md), over the register file (10_state.md), and the
entry of errors and aborts (60_exceptions.md R237, R241), reset (70_reset_and_hazards.md R260) and free values. -/

namespace Sys2Proof.Machine

/-! ### Memory -/

/-- What an address that memory does not list reads as: the spec gives no power-on contents (R260 "Reset does not
touch memory"); DESIGN CHOICE, unsafe, log entry 5. -/
def unlistedByte : Byte := 0x00#8

/-- The byte at address `a` (20_memory.md R70). -/
def Memory.read : Memory → Nat → Byte
  | [], _ => unlistedByte
  | (k, b) :: m, a => if k = a then b else Memory.read m a

/-- Memory with byte `b` at address `a`; the canonical form is kept (R70). -/
def Memory.write : Memory → Nat → Byte → Memory
  | [], a, b => if b = unlistedByte then [] else [(a, b)]
  | (k, c) :: m, a, b =>
    if a < k then
      if b = unlistedByte then (k, c) :: m else (a, b) :: (k, c) :: m
    else if a = k then
      if b = unlistedByte then m else (a, b) :: m
    else (k, c) :: Memory.write m a b

/-- Several bytes stored one after another. -/
def Memory.writeAll (m : Memory) (cells : List Host.Cell) : Memory :=
  cells.foldl (fun m c => Memory.write m c.1 c.2) m

/-- The canonical form: addresses strictly rising, and no entry equal to what an unlisted address reads as. -/
def Memory.wf : Memory → Bool
  | [] => true
  | (k, b) :: m => decide (b ≠ unlistedByte) && m.all (fun c => decide (k < c.1)) && Memory.wf m

/-- `Mapped(addr)`: the memory port can reach the byte (00_scope.md R8, 20_memory.md R76). -/
def mapped (p : Params) (addr : Int) : Bool :=
  p.memmap.any fun r => decide ((r.base : Int) ≤ addr) && decide (addr < (r.base : Int) + r.size)

/-- Admission of an access of `n` bytes at the integer address `addr` (20_memory.md R75, R76). -/
def admitted (p : Params) (addr : Int) (n : Nat) : Bool :=
  decide (0 ≤ addr) && decide (addr + n ≤ Config.addressSpace) && decide (addr % n = 0) &&
    (List.range n).all fun b => mapped p (addr + b)

/-- `sum over b in 0 .. n of (byte[a + b] << (8*b))`: little-endian assembly (20_memory.md R72, R73). -/
def bytesAt (m : Memory) (a : Nat) : Nat → Nat
  | 0 => 0
  | n + 1 => bytesAt m a n + (Memory.read m (a + n)).toNat * 2 ^ (8 * n)

/-- `MemRead(addr, n)` (R73); an access that is not admitted raises `AbortMemory` (R76). -/
def memRead (p : Params) (m : Memory) (addr : Int) (n : Nat) : Except AbortCode Nat :=
  if admitted p addr n then .ok (bytesAt m addr.toNat n) else .error .memory

/-- The bytes `MemWrite(addr, n, v)` stores, `byte[addr + b] <- v[8b+7 : 8b]`; an access that is not admitted
raises `AbortMemory` and stores nothing (R73, R76). -/
def memWrite (p : Params) (addr : Int) (n : Nat) (v : Nat) : Except AbortCode (List Host.Cell) :=
  if admitted p addr n then
    .ok ((List.range n).map fun b => (addr.toNat + b, BitVec.ofNat 8 (v / 2 ^ (8 * b))))
  else .error .memory

/-- `MemRead_u8` (R74). -/
def memReadU8 (p : Params) (m : Memory) (addr : Int) : Except AbortCode Byte :=
  (memRead p m addr 1).map (BitVec.ofNat 8)

/-- `MemRead_f32`: the pattern "is taken as it stands" (R74). -/
def memReadF32 (p : Params) (m : Memory) (addr : Int) : Except AbortCode F32 :=
  (memRead p m addr 4).map (BitVec.ofNat 32)

/-- `MemWrite_u8` (R74). -/
def memWriteU8 (p : Params) (addr : Int) (v : Byte) : Except AbortCode (List Host.Cell) :=
  memWrite p addr 1 v.toNat

/-- `MemWrite_f32` (R74). -/
def memWriteF32 (p : Params) (addr : Int) (v : F32) : Except AbortCode (List Host.Cell) :=
  memWrite p addr 4 v.toNat

/-! ### The register file -/

/-- Register numbers (10_state.md R21). -/
def Reg.number : Reg → Nat
  | .cap => 0x00 | .cmd => 0x01 | .status => 0x02 | .bits => 0x03 | .scale => 0x04 | .zeroPoint => 0x05
  | .aBase => 0x08 | .aDtype => 0x09 | .aSize0 => 0x0A | .aSize1 => 0x0B | .aStride0 => 0x0C | .aStride1 => 0x0D
  | .bBase => 0x10 | .bDtype => 0x11 | .bSize0 => 0x12 | .bSize1 => 0x13 | .bStride0 => 0x14 | .bStride1 => 0x15
  | .outBase => 0x18 | .outDtype => 0x19 | .outSize0 => 0x1A | .outSize1 => 0x1B
  | .dAptr => 0x20 | .dBptr => 0x21 | .dLength => 0x22 | .dRowStride => 0x23 | .dColStride => 0x24 | .dResult => 0x25
  | .xByte => 0x28 | .xSub => 0x29 | .xCode => 0x2A

/-- Access kinds (10_state.md R21). -/
def Reg.access : Reg → Access
  | .cap => .ro | .cmd => .wo | .status => .ro | .bits => .rw | .scale => .rw | .zeroPoint => .rw
  | .aBase => .rw | .aDtype => .rw | .aSize0 => .rw | .aSize1 => .rw | .aStride0 => .rw | .aStride1 => .rw
  | .bBase => .rw | .bDtype => .rw | .bSize0 => .rw | .bSize1 => .rw | .bStride0 => .rw | .bStride1 => .rw
  | .outBase => .rw | .outDtype => .ro | .outSize0 => .ro | .outSize1 => .ro
  | .dAptr => .rw | .dBptr => .rw | .dLength => .rw | .dRowStride => .rw | .dColStride => .rw | .dResult => .ro
  | .xByte => .rw | .xSub => .rw | .xCode => .ro

/-- The width of a register's content in bits (10_state.md R21, column "Content"). -/
def Reg.width : Reg → Nat
  | .cap => 64 | .cmd => 32 | .status => 64 | .bits => 32 | .scale => 32 | .zeroPoint => 32
  | .aBase => 64 | .aDtype => 8 | .aSize0 => 64 | .aSize1 => 64 | .aStride0 => 64 | .aStride1 => 64
  | .bBase => 64 | .bDtype => 8 | .bSize0 => 64 | .bSize1 => 64 | .bStride0 => 64 | .bStride1 => 64
  | .outBase => 64 | .outDtype => 8 | .outSize0 => 64 | .outSize1 => 64
  | .dAptr => 64 | .dBptr => 64 | .dLength => 64 | .dRowStride => 64 | .dColStride => 64 | .dResult => 32
  | .xByte => 8 | .xSub => 32 | .xCode => 8

/-- The implemented registers, in the order of R21. -/
def Reg.all : List Reg :=
  [.cap, .cmd, .status, .bits, .scale, .zeroPoint, .aBase, .aDtype, .aSize0, .aSize1, .aStride0, .aStride1,
   .bBase, .bDtype, .bSize0, .bSize1, .bStride0, .bStride1, .outBase, .outDtype, .outSize0, .outSize1,
   .dAptr, .dBptr, .dLength, .dRowStride, .dColStride, .dResult, .xByte, .xSub, .xCode]

/-- The register a number names, none for an unimplemented number (10_state.md R33). -/
def Reg.ofNumber (n : Nat) : Option Reg := Reg.all.find? fun r => r.number == n

/-- What a register reads as: its content zero-extended (10_state.md R20); `CMD` holds no storage and reads 0 (R23). -/
def State.readReg (s : State) : Reg → Word64
  | .cap => capWord s.par
  | .cmd => 0#64
  | .status => s.statusWord
  | .bits => s.bits.setWidth 64
  | .scale => s.scale.setWidth 64
  | .zeroPoint => s.zeroPoint.setWidth 64
  | .aBase => s.a.base
  | .aDtype => s.a.dtype.setWidth 64
  | .aSize0 => s.a.size0
  | .aSize1 => s.a.size1
  | .aStride0 => s.a.stride0
  | .aStride1 => s.a.stride1
  | .bBase => s.b.base
  | .bDtype => s.b.dtype.setWidth 64
  | .bSize0 => s.b.size0
  | .bSize1 => s.b.size1
  | .bStride0 => s.b.stride0
  | .bStride1 => s.b.stride1
  | .outBase => s.outBase
  | .outDtype => s.outDtype.setWidth 64
  | .outSize0 => s.outSize0
  | .outSize1 => s.outSize1
  | .dAptr => s.dAptr
  | .dBptr => s.dBptr
  | .dLength => s.dLength
  | .dRowStride => s.dRowStride
  | .dColStride => s.dColStride
  | .dResult => s.dResult.setWidth 64
  | .xByte => s.xByte.setWidth 64
  | .xSub => s.xSub.setWidth 64
  | .xCode => s.xCode.setWidth 64

/-- A host write to a register's storage: an RW register takes the low bits of `v` (10_state.md R34); a write to an RO
register is ignored, and `CMD` holds no storage (R20, R23). -/
def State.writeReg (s : State) (r : Reg) (v : Word64) : State :=
  match r with
  | .cap => s
  | .cmd => s
  | .status => s
  | .bits => { s with bits := v.setWidth 32 }
  | .scale => { s with scale := v.setWidth 32 }
  | .zeroPoint => { s with zeroPoint := v.setWidth 32 }
  | .aBase => { s with a := { s.a with base := v } }
  | .aDtype => { s with a := { s.a with dtype := v.setWidth 8 } }
  | .aSize0 => { s with a := { s.a with size0 := v } }
  | .aSize1 => { s with a := { s.a with size1 := v } }
  | .aStride0 => { s with a := { s.a with stride0 := v } }
  | .aStride1 => { s with a := { s.a with stride1 := v } }
  | .bBase => { s with b := { s.b with base := v } }
  | .bDtype => { s with b := { s.b with dtype := v.setWidth 8 } }
  | .bSize0 => { s with b := { s.b with size0 := v } }
  | .bSize1 => { s with b := { s.b with size1 := v } }
  | .bStride0 => { s with b := { s.b with stride0 := v } }
  | .bStride1 => { s with b := { s.b with stride1 := v } }
  | .outBase => { s with outBase := v }
  | .outDtype => s
  | .outSize0 => s
  | .outSize1 => s
  | .dAptr => { s with dAptr := v }
  | .dBptr => { s with dBptr := v }
  | .dLength => { s with dLength := v }
  | .dRowStride => { s with dRowStride := v }
  | .dColStride => { s with dColStride := v }
  | .dResult => s
  | .xByte => { s with xByte := v.setWidth 8 }
  | .xSub => { s with xSub := v.setWidth 32 }
  | .xCode => s

/-! ### Acceptance, errors, aborts, reset -/

/-- `STATUS.LASTOP <- W[7:0]`, the first line of the issue step (45_command_protocol.md R217). -/
def State.accept (opc : Byte) (s : State) : State := { s with lastop := opc }

/-- The output result registers (10_state.md R30). -/
def State.setOut (dtype : Byte) (size0 size1 : Word64) (s : State) : State :=
  { s with outDtype := dtype, outSize0 := size0, outSize1 := size1 }

/-- `x[OUT_DTYPE] <- 0 ; x[OUT_SIZE0] <- 0 ; x[OUT_SIZE1] <- 0` (43_matmul_driver.md R181, 44_packing_stage.md R201). -/
def State.clearOut (s : State) : State := s.setOut 0#8 0#64 0#64

/-- `X_CODE <- code` (40_bit_extractor.md R135). -/
def State.setCode (code : Byte) (s : State) : State := { s with xCode := code }

/-- `D_RESULT <- v` (42_dot_product.md R175). -/
def State.setResult (v : F32) (s : State) : State := { s with dResult := v }

/-- A move of the engine state machine (10_state.md R50). -/
def State.setEngine (e : Engine) (s : State) : State := { s with engine := e }

/-- Bytes stored to memory by the engine or the host. -/
def State.storeCells (cells : List Host.Cell) (s : State) : State := { s with mem := Memory.writeAll s.mem cells }

/-- Precondition-error entry, `raise E` in the issue step: `STATE <- ERROR`, `ERR <- code(E)`, nothing else
(60_exceptions.md R237). There is no return instruction: the next accepted `CMD` write overwrites it (R238). -/
def State.raiseError (e : PreError) (s : State) : State := s.setEngine (.error e)

/-- The effect of an illegal `CMD` write that is not ignored (30_encoding.md R102, 60_exceptions.md R235). -/
def State.illegalCommand (opc : Byte) (s : State) : State := (s.accept opc).raiseError .illegalCommand

/-- Free bytes for the addresses of a region that the engine can reach, drawn from counter value `fresh` on
(log entry 7). -/
def freeCells (p : Params) (fresh : Nat) (region : List Int) : List Host.Cell :=
  ((region.filter fun a => admitted p a 1).zipIdx fresh).map fun x => (x.1.toNat, Config.freeByte x.2)

/-- A result that the spec calls unspecified (20_memory.md R82): every byte of the region is a free value. -/
def State.scramble (region : List Int) (s : State) : State :=
  { s.storeCells (freeCells s.par s.fresh region) with fresh := s.fresh + region.length }

/-- Each byte the command would have written, either at that value or at the value from before the command:
a free choice per byte (60_exceptions.md R243; log entry 6). -/
def eitherCells (mem0 : Memory) (fresh : Nat) (would : List Host.Cell) : List Host.Cell :=
  (would.zipIdx fresh).map fun x => (x.1.1, if Config.freeBit x.2 then x.1.2 else Memory.read mem0 x.1.1)

/-- The bytes of a region as they were before the command (60_exceptions.md R243). -/
def beforeCells (mem0 : Memory) (region : List Int) : List Host.Cell :=
  (region.filter fun a => decide (0 ≤ a)).map fun a => (a.toNat, Memory.read mem0 a.toNat)

/-- What a command stopped in its busy phase leaves of its write footprint `region` (R243, R261): every byte as before the
command, but for a free choice of the bytes the completed command would have written. `would` is what it would have
written, `mem0` memory before it, `tainted` a broken host duty (log entries 6, 7). -/
def State.abandon (mem0 : Memory) (tainted : Bool) (region : List Int) (would : List Host.Cell) (s : State) : State :=
  if tainted then s.scramble region
  else
    { s.storeCells (beforeCells mem0 region ++ eitherCells mem0 s.fresh would) with fresh := s.fresh + would.length }

/-- Reset (70_reset_and_hazards.md R260): every register as after reset, no command in progress, the parameters
and memory untouched; what the host has still to do and what it has seen are not the engine's. -/
def State.toReset (s : State) : State :=
  { State.resetOf s.par with
    mem := s.mem, host := s.host, reads := s.reads, turns := s.turns, cuts := s.cuts, fresh := s.fresh }

/-- At least one worker (00_scope.md R8). -/
def workerCount (p : Params) : Nat := max 1 p.nworkers

end Sys2Proof.Machine
end

