-- ==== Sys2Proof/Machine/Operands.lean ====
section
/-! DEFINITION. Operand assembly (30_encoding.md R104), type tags (R112), element addresses (20_memory.md R79 to R81)
and footprints (R83). QME's commands name no operand forms of their own: every operand is a register. -/

namespace Sys2Proof.Machine

/-- Tag `U8` (30_encoding.md R112). -/
def tagU8 : Byte := 1#8

/-- Tag `F32` (30_encoding.md R112). -/
def tagF32 : Byte := 2#8

/-- `per = 8 / bits`, sub-values per byte (00_scope.md R12). -/
def subsPerByte (bits : Nat) : Nat := 8 / bits

/-- "`bits ∈ {4, 8}` — any other value is a configuration error" (60_exceptions.md R231). -/
def legalBits (b : Nat) : Bool := b == 4 || b == 8

/-- A descriptor assembled (R104): base and sizes `zext_64`, strides `sext_64`. -/
def Desc.view (d : Desc) : View :=
  { base := zext64 d.base, size0 := d.size0.toNat, size1 := d.size1.toNat,
    stride0 := sext64 d.stride0, stride1 := sext64 d.stride1 }

/-- `addr(M, i, j)` for elements of `esize` bytes (20_memory.md R79). -/
def View.addr (v : View) (esize : Int) (i j : Nat) : Int :=
  v.base + esize * (i * v.stride0 + j * v.stride1)

/-- The static operand `bits` of a strategy (42_dot_product.md R172). -/
def Strategy.bits : Strategy → Nat
  | .s4 => 4
  | .s8 => 8
  | .v8 => 8

/-- `per` of a strategy. -/
def Strategy.per (st : Strategy) : Nat := subsPerByte st.bits

/-- `K = length * per`, the logical elements of a dot product (42_dot_product.md R161). -/
def DotArgs.logical (d : DotArgs) : Nat := d.length * d.strategy.per

/-- The address of packed byte `t` (20_memory.md R80). -/
def DotArgs.codeAddr (d : DotArgs) (t : Nat) : Int := d.ap + t * d.rs

/-- The address of the dense value of logical element `l` (20_memory.md R80). -/
def DotArgs.denseAddr (d : DotArgs) (l : Nat) : Int := d.bp + 4 * l * d.cs

/-- The operands of DOT (42_dot_product.md R175). -/
def State.dotArgs (s : State) (st : Strategy) : DotArgs :=
  { strategy := st, ap := zext64 s.dAptr, bp := zext64 s.dBptr, length := s.dLength.toNat,
    rs := sext64 s.dRowStride, cs := sext64 s.dColStride, scale := s.scale, zp := s.zeroPoint }

/-- The operands of MATMUL (43_matmul_driver.md R180, R184). -/
def State.matmulArgs (s : State) (st : Strategy) : MatmulArgs :=
  { strategy := st, a := s.a.view, b := s.b.view, out := zext64 s.outBase, scale := s.scale, zp := s.zeroPoint }

/-- The operands of PACK (44_packing_stage.md R200, R203). -/
def State.packArgs (s : State) (bits : Nat) : PackArgs :=
  { bits := bits, a := s.a.view, out := zext64 s.outBase, scale := s.scale, zp := s.zeroPoint }

/-- `n`, the rows of `A` and of `C` (43_matmul_driver.md R184). -/
def MatmulArgs.n (m : MatmulArgs) : Nat := m.a.size0

/-- `m`, the columns of `B` and of `C` (43_matmul_driver.md R184). -/
def MatmulArgs.m (m : MatmulArgs) : Nat := m.b.size1

/-- The arguments of the dot product of cell `(i, j)` (43_matmul_driver.md R187). -/
def MatmulArgs.cell (m : MatmulArgs) (i j : Nat) : DotArgs :=
  { strategy := m.strategy, ap := m.a.base + i * m.a.stride0, bp := m.b.base + 4 * j * m.b.stride1,
    length := m.a.size1, rs := m.a.stride1, cs := m.b.stride0, scale := m.scale, zp := m.zp }

/-- `addr(C, i, j)` (20_memory.md R81). -/
def MatmulArgs.outAddr (m : MatmulArgs) (i j : Nat) : Int := m.out + 4 * (i * m.m + j)

/-- `n` of PACK (44_packing_stage.md R203). -/
def PackArgs.n (p : PackArgs) : Nat := p.a.size0

/-- `kb = k / per` (44_packing_stage.md R203). -/
def PackArgs.kb (p : PackArgs) : Nat := p.a.size1 / subsPerByte p.bits

/-- `addr(P, i, t)` (20_memory.md R81). -/
def PackArgs.outAddr (p : PackArgs) (i t : Nat) : Int := p.out + (i * p.kb + t)

/-- Where a command's output region begins, and how many bytes it has (20_memory.md R82). DOT writes no memory. -/
def Launch.outRegion : Launch → Int × Nat
  | .dot _ => (0, 0)
  | .matmul m => (m.out, 4 * m.n * m.m)
  | .pack p => (p.out, p.n * p.kb)

/-- The write footprint, byte by byte (20_memory.md R83). -/
def Launch.writeFootprint (op : Launch) : List Int :=
  (List.range op.outRegion.2).map fun (k : Nat) => op.outRegion.1 + (k : Int)

/-- Whether a byte address lies in the write footprint (20_memory.md R83). -/
def Launch.inOutput (op : Launch) (a : Int) : Bool :=
  decide (op.outRegion.1 ≤ a) && decide (a < op.outRegion.1 + op.outRegion.2)

/-- The four bytes of the `F32` element at an address (20_memory.md R71). -/
def elementBytes (a : Int) : List Int := (List.range 4).map fun (b : Nat) => a + (b : Int)

/-- The read footprint of a dot product: its packed bytes and the bytes of its dense values (20_memory.md R80). -/
def DotArgs.readFootprint (d : DotArgs) : List Int :=
  (List.range d.length).map d.codeAddr ++ (List.range d.logical).flatMap fun l => elementBytes (d.denseAddr l)

/-- The read footprint of a MATMUL: empty when `n = 0` or `m = 0` (20_memory.md R83). -/
def MatmulArgs.readFootprint (m : MatmulArgs) : List Int :=
  if m.n = 0 ∨ m.m = 0 then []
  else
    ((List.range m.n).flatMap fun i => (List.range m.a.size1).map fun t => m.a.addr 1 i t) ++
      (List.range (m.a.size1 * m.strategy.per)).flatMap fun l =>
        (List.range m.m).flatMap fun j => elementBytes (m.b.addr 4 l j)

/-- The read footprint of a PACK: every element of the dense input (44_packing_stage.md R206). -/
def PackArgs.readFootprint (p : PackArgs) : List Int :=
  (List.range p.n).flatMap fun i =>
    (List.range (p.kb * subsPerByte p.bits)).flatMap fun l => elementBytes (p.a.addr 4 i l)

/-- The read footprint of a command (20_memory.md R83). -/
def Launch.readFootprint : Launch → List Int
  | .dot d => d.readFootprint
  | .matmul m => m.readFootprint
  | .pack p => p.readFootprint

/-- The write footprint meets the read footprint: host duty H2 is broken (70_reset_and_hazards.md R270). -/
def Launch.aliased (op : Launch) : Bool :=
  decide (op.outRegion.2 ≠ 0) && op.readFootprint.any op.inOutput

/-- A byte that host duties H1 and H3 forbid anyone but the engine to write while the command is `BUSY`
(70_reset_and_hazards.md R270). -/
def Launch.inFootprint (op : Launch) (a : Int) : Bool := op.inOutput a || op.readFootprint.contains a

end Sys2Proof.Machine
end

