-- ==== Sys2Proof/Machine/Extract.lean ====
section
/-! DEFINITION. The bit extractor (40_bit_extractor.md) and the meaning of the EXTRACT command. -/

namespace Sys2Proof.Machine

/-- `extract(byte, sub_index, bits) = (byte >> (sub_index * bits)) & ((1 << bits) - 1)` (R130); 0 once the shift
reaches 8 (R134). -/
def extractCode (byte : Byte) (sub bits : Nat) : Nat :=
  (byte.toNat >>> (sub * bits)) &&& ((1 <<< bits) - 1)

/-- A packed byte from its codes, low bits first (30_encoding.md R109). -/
def composeByte (bits : Nat) : List Nat → Nat
  | [] => 0
  | c :: cs => c + 2 ^ bits * composeByte bits cs

/-- EXTRACT (R135), complete in the step that accepts it. -/
def execExtract (s : State) : Host.Outcome State Fault Refusal :=
  let s := s.accept 0x01#8
  .next <|
    if legalBits s.bits.toNat then
      (s.setCode (BitVec.ofNat 8 (extractCode s.xByte s.xSub.toNat s.bits.toNat))).setEngine .done
    else s.raiseError .configuration

end Sys2Proof.Machine
end

