-- ==== Sys2Proof/Machine/DotProduct.lean ====
section
/-! DEFINITION. The dot-product engine `qint8_qint4_to_float_dot_product` (42_dot_product.md): the scalar strategy, the
wide-vector strategy, and the selection between them. -/

namespace Sys2Proof.Machine

/-- The code of logical element `l`: sub-value `l mod per` of packed byte `l / per` (30_encoding.md R110). -/
def readCode (p : Params) (m : Memory) (d : DotArgs) (l : Nat) : Except AbortCode Nat := do
  let byte ← memReadU8 p m (d.codeAddr (l / d.strategy.per))
  return extractCode byte (l % d.strategy.per) d.strategy.bits

/-- One element of a dot product accumulated by `ACC.MAC` (41_accumulator_dequant.md R151). -/
def elementMac (p : Params) (m : Memory) (d : DotArgs) (acc : F32) (l : Nat) : Except AbortCode F32 := do
  let code ← readCode p m d l
  let bval ← memReadF32 p m (d.denseAddr l)
  return accMac d.zp acc code bval

/-- The inner loop of Strategy S over the sub-values of packed byte `t`, low bits first (42_dot_product.md R164). -/
def subValues (p : Params) (m : Memory) (d : DotArgs) (byte : Byte) (t : Nat) (acc : F32) : Except AbortCode F32 :=
  (List.range d.strategy.per).foldlM (init := acc) fun acc s => do
    let bval ← memReadF32 p m (d.denseAddr (t * d.strategy.per + s))
    return accMac d.zp acc (extractCode byte s d.strategy.bits) bval

/-- `dot_S`: bytes ascending, one read of each, then `ACC.FIN` (42_dot_product.md R164 to R166). -/
def dotS (p : Params) (m : Memory) (d : DotArgs) : Except AbortCode F32 := do
  let acc ← (List.range d.length).foldlM (init := accClr) fun acc t => do
    let byte ← memReadU8 p m (d.codeAddr t)
    subValues p m d byte t acc
  return accFin d.scale acc

/-- One halving of `reduce16`: lane `i` plus lane `i + k`, for `i < k` (42_dot_product.md R170). -/
def halve (k : Nat) (lanes : List F32) : List F32 := List.zipWith fadd (lanes.take k) (lanes.drop k)

/-- `reduce16(P)`, the halving tree of fifteen `fadd`s (42_dot_product.md R170). -/
def reduce16 (lanes : List F32) : F32 := (halve 1 (halve 2 (halve 4 (halve 8 lanes)))).headD plusZero

/-- The product of lane element `e` of Strategy V (42_dot_product.md R169). -/
def laneProduct (p : Params) (m : Memory) (d : DotArgs) (e : Nat) : Except AbortCode F32 := do
  let code ← memReadU8 p m (d.codeAddr e)
  let bval ← memReadF32 p m (d.denseAddr e)
  return elementProduct d.zp code.toNat bval

/-- The sixteen lane products `P[0..15]` of block `blk` (10_state.md R43, 42_dot_product.md R169). -/
def blockLanes (p : Params) (m : Memory) (d : DotArgs) (blk : Nat) : Except AbortCode (List F32) :=
  (List.range Config.block).mapM fun lane => laneProduct p m d (Config.block * blk + lane)

/-- The number of full blocks, `floor(length / 16)` (42_dot_product.md R169). -/
def DotArgs.blocks (d : DotArgs) : Nat := d.length / Config.block

/-- `dot_V`: block sums first, then the remainder by `ACC.MAC` in ascending order, then `ACC.FIN`
(42_dot_product.md R169, R171). -/
def dotV (p : Params) (m : Memory) (d : DotArgs) : Except AbortCode F32 := do
  let acc ← (List.range d.blocks).foldlM (init := accClr) fun acc blk => do
    let lanes ← blockLanes p m d blk
    return fadd acc (reduce16 lanes)
  let acc ← (List.range (d.length - Config.block * d.blocks)).foldlM (init := acc) fun acc k => do
    let e := Config.block * d.blocks + k
    let code ← memReadU8 p m (d.codeAddr e)
    let bval ← memReadF32 p m (d.denseAddr e)
    return accMac d.zp acc code.toNat bval
  return accFin d.scale acc

/-- `dot(...)` under the strategy selected (42_dot_product.md R160, R172). -/
def dot (p : Params) (m : Memory) (d : DotArgs) : Except AbortCode F32 :=
  match d.strategy with
  | .s4 => dotS p m d
  | .s8 => dotS p m d
  | .v8 => dotV p m d

/-- Strategy selection, with the abort arm for any other `bits` (42_dot_product.md R172, 60_exceptions.md R240). -/
def selectStrategy (bits : Nat) (vecCap : Bool) : Except AbortCode Strategy :=
  if bits = 4 then .ok .s4
  else if bits = 8 then .ok (if vecCap then .v8 else .s8)
  else .error .dispatch

end Sys2Proof.Machine
end

