-- ==== Sys2Proof/Machine/Cells.lean ====
section
/-! DEFINITION. What one output element is and where it goes: a cell of MATMUL (43_matmul_driver.md R187) and a packed
byte of PACK (44_packing_stage.md R202, R206). -/

namespace Sys2Proof.Machine

/-- The value of cell `(i, j)` and the four bytes it is stored as (43_matmul_driver.md R187). -/
def cellStore (p : Params) (m : Memory) (a : MatmulArgs) (i j : Nat) : Except AbortCode (List Host.Cell) := do
  let v ← dot p m (a.cell i j)
  memWriteF32 p (a.outAddr i j) v

/-- `u <= 0.0`, for `u` not a NaN (44_packing_stage.md R202): every negative value, and both zeros. -/
def atMostZero (u : F32) : Bool := fsign u || isZero u

/-- `u >= k`, for `u` not a NaN and a natural `k > 0` (44_packing_stage.md R202). -/
def atLeastNat (u : F32) (k : Nat) : Bool := !fsign u && decide (k * oneUnits ≤ fmag u)

/-- `2^bits - 1`, the greatest code (44_packing_stage.md R202). -/
def maxCode (bits : Nat) : Nat := 2 ^ bits - 1

/-- The clamp of R202 applied to the rounded sum `t`; a NaN gives code 0 (44_packing_stage.md R202, R205). -/
def clampCode (t : F32) (bits : Nat) : Nat :=
  if isNaN t then 0
  else if atMostZero (frint t) then 0
  else if atLeastNat (frint t) (maxCode bits) then maxCode bits
  else fmag (frint t) / oneUnits

/-- `quantize(v, scale, zp, bits)` (44_packing_stage.md R202). -/
def quantize (v scale zp : F32) (bits : Nat) : Nat := clampCode (fadd (frint (fdiv v scale)) zp) bits

/-- The code of element `(i, l)` of PACK's input (44_packing_stage.md R206). -/
def quantizeAt (p : Params) (m : Memory) (a : PackArgs) (i l : Nat) : Except AbortCode Nat := do
  let v ← memReadF32 p m (a.a.addr 4 i l)
  return quantize v a.scale a.zp a.bits

/-- Packed byte `(i, t)` (44_packing_stage.md R206). -/
def packedByte (p : Params) (m : Memory) (a : PackArgs) (i t : Nat) : Except AbortCode Byte := do
  let codes ← (List.range (subsPerByte a.bits)).mapM fun s => quantizeAt p m a i (t * subsPerByte a.bits + s)
  return BitVec.ofNat 8 (composeByte a.bits codes)

/-- The value of packed byte `(i, t)` and where it is stored (44_packing_stage.md R206). -/
def packStore (p : Params) (m : Memory) (a : PackArgs) (i t : Nat) : Except AbortCode (List Host.Cell) := do
  let byte ← packedByte p m a i t
  memWriteU8 p (a.outAddr i t) byte

/-- The stores of a command, one entry per output element, row-major ascending, each a function of the operands and
of memory `m` alone (43_matmul_driver.md R188, 44_packing_stage.md R207). -/
def outputStores (p : Params) (m : Memory) : Launch → List (Except AbortCode (List Host.Cell))
  | .dot _ => []
  | .matmul a => (List.range a.n).flatMap fun i => (List.range a.m).map fun j => cellStore p m a i j
  | .pack a => (List.range a.n).flatMap fun i => (List.range a.kb).map fun t => packStore p m a i t

/-- All the stores, or the first abort among them. -/
def collectStores : List (Except AbortCode (List Host.Cell)) → Except AbortCode (List Host.Cell)
  | [] => .ok []
  | .error c :: _ => .error c
  | .ok cells :: rest => (collectStores rest).map (cells ++ ·)

/-- The stores that have a value: what a command that aborts "would have written" (60_exceptions.md R243). -/
def wouldWrite (p : Params) (m : Memory) (op : Launch) : List Host.Cell :=
  (outputStores p m op).flatMap fun r => r.toOption.getD []

/-- What a command computes from memory `m`: the value of its dot product (DOT only) and its stores. -/
def commandResult (p : Params) (m : Memory) (op : Launch) : Except AbortCode (F32 × List Host.Cell) :=
  match op with
  | .dot d => (dot p m d).map fun v => (v, [])
  | .matmul _ => (collectStores (outputStores p m op)).map fun cells => (plusZero, cells)
  | .pack _ => (collectStores (outputStores p m op)).map fun cells => (plusZero, cells)

end Sys2Proof.Machine
end

