-- ==== Sys2Proof/Machine/Run.lean ====
section
/-! DEFINITION. The run of an accepted command: as one transition (45_command_protocol.md R223), or step by step through
its busy phase by worker contexts (10_state.md R41, R53; 45_command_protocol.md R220, R221). Both end alike. -/

namespace Sys2Proof.Machine

/-! ### Ends of a run -/

/-- Completion (43_matmul_driver.md R189, 44_packing_stage.md R208, 42_dot_product.md R175): the result registers are
written and `STATE <- DONE`. `v` is the value of a DOT. Where a host duty was broken the result is free (log entry 7). -/
def retire (op : Launch) (v : F32) (tainted : Bool) (s : State) : State :=
  match op with
  | .dot _ =>
    if tainted then
      { (s.setResult (Config.freeF32 s.fresh)).setEngine .done with fresh := s.fresh + 1 }
    else (s.setResult v).setEngine .done
  | .matmul a =>
    ((if tainted then s.scramble op.writeFootprint else s).setOut tagF32
      (BitVec.ofNat 64 a.n) (BitVec.ofNat 64 a.m)).setEngine .done
  | .pack a =>
    ((if tainted then s.scramble op.writeFootprint else s).setOut tagU8
      (BitVec.ofNat 64 a.n) (BitVec.ofNat 64 a.kb)).setEngine .done

/-- Abort entry in the busy phase (60_exceptions.md R241, R243): `STATE <- ABORT`, `ERR <- code`, result registers not
written, the write footprint left as `State.abandon` says. -/
def abortRun (op : Launch) (mem0 : Memory) (tainted : Bool) (c : AbortCode) (s : State) : State :=
  (s.abandon mem0 tainted op.writeFootprint (wouldWrite s.par mem0 op)).setEngine (.abort c)

/-- An accepted command as "one atomic transition from issue to `DONE` (or to `ABORT` if any access the command would
make is not admitted)" (45_command_protocol.md R223). -/
def complete (op : Launch) (s : State) : State :=
  match commandResult s.par s.mem op with
  | .ok r => retire op r.1 op.aliased (s.storeCells r.2)
  | .error c => abortRun op s.mem op.aliased c s

/-! ### The busy phase, worker by worker -/

/-- The row ranges from cut points: `0 = r_0 <= r_1 <= ... <= r_W = n` (43_matmul_driver.md R186). -/
def rangesFrom (lo n : Nat) : List Nat → List (Nat × Nat)
  | [] => [(lo, n)]
  | c :: cs => (lo, min n (max lo c)) :: rangesFrom (min n (max lo c)) n cs

/-- The partition of rows `[0, n)` over at most `NWORKERS` workers (43_matmul_driver.md R186); every split is the
value at some cut points. -/
def partitionRows (workers n : Nat) (cuts : List Nat) : List (Nat × Nat) := rangesFrom 0 n (cuts.take (workers - 1))

/-- A worker context at the start of its range, `(lo_w, 0, 0)`, with `ACC.CLR` performed (10_state.md R53;
41_accumulator_dequant.md R150). -/
def Worker.start (r : Nat × Nat) : Worker :=
  { lo := r.1, hi := r.2, i := r.1, j := 0, l := 0, acc := accClr, lanes := [] }

/-- The worker contexts of a command; DOT and PACK use worker 0 only (10_state.md R41). -/
def startWorkers (workers : Nat) (cuts : List Nat) : Launch → List Worker
  | .dot _ => [Worker.start (0, 1)]
  | .matmul a => (partitionRows workers a.n cuts).map Worker.start
  | .pack a => [Worker.start (0, a.n)]

/-- The sequencer starts the workers and `STATE <- BUSY` (43_matmul_driver.md R184, R186). -/
def beginRun (op : Launch) (s : State) : State :=
  { s with
    engine := .busy
      { op := op, workers := startWorkers (workerCount s.par) (s.cuts.headD []) op, mem0 := s.mem, tainted := op.aliased }
    cuts := s.cuts.tail }

/-- An accepted command that passed its checks. Without a plan for its busy phase it is one transition
(45_command_protocol.md R223); with one, it becomes `BUSY` and its agents step as the plan says (R220; log entry 3). -/
def launch (op : Launch) (s : State) : State :=
  match s.turns with
  | [] => complete op s
  | _ :: _ => beginRun op s

/-- Columns of the output: `m` for MATMUL, `kb` for PACK; a DOT has the one cell. -/
def Launch.cols : Launch → Nat
  | .dot _ => 1
  | .matmul a => a.m
  | .pack a => a.kb

/-- A worker with nothing left to do (10_state.md R53; a DOT's worker when `l = k_logical`, a PACK's after its last byte:
log entry 22). -/
def Worker.finished (op : Launch) (w : Worker) : Bool :=
  match op with
  | .dot d => decide (d.logical ≤ w.l)
  | .matmul a => decide (w.hi ≤ w.i) || a.m == 0
  | .pack a => decide (w.hi ≤ w.i) || a.kb == 0

/-- From a stored cell to the next: `(i, j+1, 0)`, else `(i+1, 0, 0)`, with `ACC.CLR` (10_state.md R53). -/
def Worker.nextCell (cols : Nat) (w : Worker) : Worker :=
  if w.j + 1 < cols then { w with j := w.j + 1, l := 0, acc := accClr }
  else { w with i := w.i + 1, j := 0, l := 0, acc := accClr }

/-- One element of Strategy S or of the remainder consumed (10_state.md R53; 42_dot_product.md R164, R171). -/
def Worker.consumeElement (p : Params) (m : Memory) (d : DotArgs) (w : Worker) : Except AbortCode Worker := do
  let acc ← elementMac p m d w.acc w.l
  return { w with l := w.l + 1, acc := acc }

/-- One full block of Strategy V consumed: its lanes, their reduction, one addition (42_dot_product.md R169). -/
def Worker.consumeBlock (p : Params) (m : Memory) (d : DotArgs) (w : Worker) : Except AbortCode Worker := do
  let lanes ← blockLanes p m d (w.l / Config.block)
  return { w with l := w.l + Config.block, acc := fadd w.acc (reduce16 lanes), lanes := lanes }

/-- A worker's step inside a dot product: "one element (Strategy S) or up to `BLOCK` elements (Strategy V)"
(10_state.md R53). Of the sizes R53 allows Strategy V the model takes a whole block, and one element of the remainder
(DESIGN CHOICE, log entry 22). -/
def Worker.consume (p : Params) (m : Memory) (d : DotArgs) (w : Worker) : Except AbortCode Worker :=
  match d.strategy with
  | .s4 => w.consumeElement p m d
  | .s8 => w.consumeElement p m d
  | .v8 => if w.l < Config.block * d.blocks then w.consumeBlock p m d else w.consumeElement p m d

/-- One step of an unfinished worker and the bytes it stores. For MATMUL the step is the one of 10_state.md R53. How much of
its loop one step of DOT or PACK performs, and which position worker 0 keeps meanwhile, the spec leaves open: DESIGN
CHOICE, log entry 22. A DOT steps as inside a MATMUL cell, from `l` to a later `l`; a PACK step is one whole packed byte,
its reads and its write (44_packing_stage.md R206), from byte `(i, j)` to the next with `l` unused. -/
def Worker.advance (p : Params) (m : Memory) (op : Launch) (w : Worker) : Except AbortCode (Worker × List Host.Cell) :=
  match op with
  | .dot d => do
    let w' ← w.consume p m d
    return (w', [])
  | .matmul a =>
    if w.l < (a.cell w.i w.j).logical then do
      let w' ← w.consume p m (a.cell w.i w.j)
      return (w', [])
    else do
      let cells ← memWriteF32 p (a.outAddr w.i w.j) (accFin a.scale w.acc)
      return (w.nextCell a.m, cells)
  | .pack a => do
    let cells ← packStore p m a w.i w.j
    return (w.nextCell a.kb, cells)

/-- Every worker of the run has finished (45_command_protocol.md R221). -/
def Run.finished (r : Run) : Bool := r.workers.all (Worker.finished r.op)

/-- `ACC.FIN` of worker 0, the value of a DOT (42_dot_product.md R164). -/
def Run.value (r : Run) : F32 :=
  match r.op with
  | .dot d => accFin d.scale ((r.workers.map Worker.acc).headD accClr)
  | .matmul _ => plusZero
  | .pack _ => plusZero

/-- One step of worker `w` of a run; a finished or absent worker has none. A step whose access is not admitted raises
`AbortMemory` instead (45_command_protocol.md R220). -/
def workerTurn (r : Run) (w : Nat) (s : State) : State :=
  match r.workers[w]? with
  | none => s
  | some wk =>
    if wk.finished r.op then s
    else
      match wk.advance s.par s.mem r.op with
      | .ok x => (s.storeCells x.2).setEngine (.busy { r with workers := r.workers.set w x.1 })
      | .error c => abortRun r.op r.mem0 r.tainted c s

/-- The sequencer's step: when all workers are finished it retires the command (45_command_protocol.md R221). -/
def sequencerTurn (r : Run) (s : State) : State :=
  if r.finished then retire r.op r.value r.tainted s else s

/-- Who moves when the plan names nobody: the first unfinished worker, or the sequencer. -/
def Run.defaultTurn (r : Run) : Turn :=
  match r.workers.findIdx? (fun w => !w.finished r.op) with
  | some w => .worker w
  | none => .sequencer

/-- The sequencer's position between steps (10_state.md R52). -/
def State.pos (s : State) : SeqPos :=
  match s.engine with
  | .busy r => if r.finished then .retire else .run
  | .idle => .idle
  | .done => .idle
  | .error _ => .idle
  | .abort _ => .idle

end Sys2Proof.Machine
end

