-- ==== Sys2Proof/Machine/Dot.lean ====
section
/-! DEFINITION. The meaning of the DOT command (42_dot_product.md R175). -/

namespace Sys2Proof.Machine

/-- DOT (R175): the `bits` check, then the dot product of the `D_` registers by the strategy of R172. -/
def execDot (s : State) : Host.Outcome State Fault Refusal :=
  let s := s.accept 0x02#8
  .next <|
    if legalBits s.bits.toNat then
      match selectStrategy s.bits.toNat s.par.vecCap with
      | .ok st => launch (.dot (s.dotArgs st)) s
      | .error c => s.setEngine (.abort c)
    else s.raiseError .configuration

end Sys2Proof.Machine
end

