-- ==== Sys2Proof/Machine/Matmul.lean ====
section
/-! DEFINITION. The meaning of the MATMUL command (43_matmul_driver.md R180 to R193). -/

namespace Sys2Proof.Machine

/-- The precondition checks of MATMUL in their order; the first that fails is reported (R181, R182). The shape product
is taken in naturals, without wrap-around. -/
def matmulCheck (s : State) : Except PreError Nat :=
  if s.a.dtype ≠ tagU8 then .error .typeMismatch
  else if s.b.dtype ≠ tagF32 then .error .typeMismatch
  else if !legalBits s.bits.toNat then .error .configuration
  else if s.a.size1.toNat * subsPerByte s.bits.toNat ≠ s.b.size0.toNat then .error .shapeMismatch
  else .ok s.bits.toNat

/-- MATMUL (R180): `OUT_*` cleared, checks (R181), strategy chosen once (R185), then the run (R184 to R190). -/
def execMatmul (s : State) : Host.Outcome State Fault Refusal :=
  let s := (s.accept 0x03#8).clearOut
  .next <|
    match matmulCheck s with
    | .error e => s.raiseError e
    | .ok b =>
      match selectStrategy b s.par.vecCap with
      | .ok st => launch (.matmul (s.matmulArgs st)) s
      | .error c => s.setEngine (.abort c)

end Sys2Proof.Machine
end

