-- ==== Sys2Proof/Machine/Pack.lean ====
section
/-! DEFINITION. The meaning of the PACK command (44_packing_stage.md R200 to R208). -/

namespace Sys2Proof.Machine

/-- The precondition checks of PACK in their order (R201). -/
def packCheck (s : State) : Except PreError Nat :=
  if s.a.dtype ≠ tagF32 then .error .typeMismatch
  else if !legalBits s.bits.toNat then .error .configuration
  else if s.a.size1.toNat % subsPerByte s.bits.toNat ≠ 0 then .error .shapeMismatch
  else .ok s.bits.toNat

/-- PACK (R200): illegal where the unit is absent (30_encoding.md R102), else `OUT_*` cleared, checks (R201), then the
run (R206 to R208). -/
def execPack (s : State) : Host.Outcome State Fault Refusal :=
  .next <|
    if s.par.packPresent then
      let s := (s.accept 0x04#8).clearOut
      match packCheck s with
      | .error e => s.raiseError e
      | .ok b => launch (.pack (s.packArgs b)) s
    else s.illegalCommand 0x04#8

end Sys2Proof.Machine
end

