-- ==== Sys2Proof/Syntax.lean ====
section
/-! DEFINITION. The QME command set, version 1 (00_scope.md R1, 30_encoding.md R101): one constructor per
row of spec/opcode_table.json. A command has no operand fields (R100); its operands are registers. -/

namespace Sys2Proof

/-- The four commands (30_encoding.md R101). -/
inductive Instr where
  /-- `EXTRACT`, opcode 0x01: one code out of one byte (40_bit_extractor.md R135). -/
  | extract
  /-- `DOT`, opcode 0x02: one dot product (42_dot_product.md R175). -/
  | dot
  /-- `MATMUL`, opcode 0x03: the whole matrix product (43_matmul_driver.md R180). -/
  | matmul
  /-- `PACK`, opcode 0x04: quantize and pack a dense matrix (44_packing_stage.md R200). -/
  | pack
  deriving DecidableEq, Repr

end Sys2Proof
end

