-- ==== Sys2Proof/Machine/Dispatch.lean ====
section
/-! DEFINITION. The meaning of an accepted command, one arm per command (45_command_protocol.md R217). -/

namespace Sys2Proof.Machine

/-- The effect of an accepted command in the issue step (R217). -/
def exec (i : Instr) (s : State) : Host.Outcome State Fault Refusal :=
  match i with
  | .extract => Sys2Proof.Machine.execExtract s
  | .dot => Sys2Proof.Machine.execDot s
  | .matmul => Sys2Proof.Machine.execMatmul s
  | .pack => Sys2Proof.Machine.execPack s

end Sys2Proof.Machine
end

