-- ==== Sys2Proof/WellFormed.lean ====
section
/-! DEFINITION. Well-formedness: which commands are legal on an instance (30_encoding.md R101, R102) and which
parameter values R8 admits. A command has no operand fields (R100), so the only check on an instruction is
whether its unit is present. -/

namespace Sys2Proof

/-- A command is legal on an instance: PACK "only when PACK_PRESENT = 1", the others always (R101, R102). -/
def Instr.wellFormed (p : Params) : Instr → Bool
  | .extract => true
  | .dot => true
  | .matmul => true
  | .pack => p.packPresent

/-- A region of the memory map lies in the address space (R70). -/
def Region.wellFormed (r : Region) : Bool := decide ((r.base + r.size : Int) ≤ Config.addressSpace)

/-- The parameter values R8 admits: at least one worker, and a memory map inside the address space. -/
def Params.wellFormed (p : Params) : Bool := decide (1 ≤ p.nworkers) && p.memmap.all Region.wellFormed

end Sys2Proof
end

