-- ==== Sys2Proof/Decode.lean ====
section
/-! DEFINITION. Decoding of the 64-bit value written to `CMD` (30_encoding.md R100 to R103), total, rejecting
by name; and after it the encoder, from the same table (R101). -/

namespace Sys2Proof

/-- Why a written value is no command word (30_encoding.md R102). The machine answers each of them with
`IllegalCommand`; the names only say which clause of R102 the value falls under. -/
inductive DecodeError where
  /-- `W[63:32] != 0`. -/
  | rsv1Nonzero
  /-- `W[31:8] != 0`. -/
  | rsv0Nonzero
  /-- `OPC = 0x00`. -/
  | opcodeZero
  /-- `OPC` in `[0x05, 0xFF]`. -/
  | opcodeReserved
  deriving DecidableEq, Repr

/-- Field `OPC`, bits 7:0 of `W` (R100). -/
def fieldOpc (w : Word64) : Byte := w.extractLsb' 0 8

/-- Field `RSV0`, bits 31:8 of `W` (R100). -/
def fieldRsv0 (w : Word64) : BitVec 24 := w.extractLsb' 8 24

/-- Field `RSV1`, bits 63:32 of `W` (R100). -/
def fieldRsv1 (w : Word64) : BitVec 32 := w.extractLsb' 32 32

/-- The opcode map (R101). -/
def decodeOpc (opc : Byte) : Except DecodeError Instr :=
  if opc = 0x01#8 then .ok .extract
  else if opc = 0x02#8 then .ok .dot
  else if opc = 0x03#8 then .ok .matmul
  else if opc = 0x04#8 then .ok .pack
  else if opc = 0x00#8 then .error .opcodeZero
  else .error .opcodeReserved

/-- "decoding is: check `RSV1 = 0` and `RSV0 = 0`, then look `OPC` up" (R100). Whether PACK is present is
checked when it is issued (R102, `execPack`). -/
def decode (w : Word64) : Except DecodeError Instr :=
  if fieldRsv1 w = 0#32 then
    if fieldRsv0 w = 0#24 then decodeOpc (fieldOpc w) else .error .rsv0Nonzero
  else .error .rsv1Nonzero

/-- The value a program writes to `CMD` from a table row's bits: bits above `nbits` are 0 (R100). -/
def commandValue (nbits w : Nat) : Word64 := BitVec.ofNat 64 (w % 2 ^ nbits)

/-- The instruction the decoder reads from a table row's bits, numbered as spec/opcode_table.json numbers them. -/
def decodeTableWord (nbits w : Nat) : Option Instr := (decode (commandValue nbits w)).toOption

/-- The opcode of a command (R101). -/
def opcode : Instr → Byte
  | .extract => 0x01#8
  | .dot => 0x02#8
  | .matmul => 0x03#8
  | .pack => 0x04#8

/-- The 64-bit value whose write to `CMD` starts a command (R101, R120). -/
def encode (i : Instr) : Word64 := (opcode i).setWidth 64

end Sys2Proof
end

