-- ==== Sys2Proof/Machine/Host.lean ====
section
/-! DEFINITION. The host's side of the command protocol (45_command_protocol.md R215 to R219) and what the next step of
the machine is: the host's next action, or a move of one of a busy command's agents (R220). -/

namespace Sys2Proof.Machine

/-- What the next step does: run a command just accepted in a state, or be in a state. -/
inductive Fetched where
  | run (i : Instr) (s : State)
  | moved (s : State)
  deriving DecidableEq, Repr

/-- `HostRead(r)`: the register's value zero-extended, 0 for `CMD` and for an unimplemented number (R215). -/
def State.hostRead (s : State) (r : Nat) : Word64 :=
  match Reg.ofNumber r with
  | some reg => s.readReg reg
  | none => 0#64

/-- The value a host read returned, kept for the host; a read changes nothing of the engine (R215). -/
def State.logRead (r : Nat) (s : State) : State := { s with reads := s.reads ++ [(r, s.hostRead r)] }

/-- An accepted `HostWrite(CMD, W)` (R217): a command to run, or `IllegalCommand` (30_encoding.md R102). -/
def issueCommand (w : Word64) (s : State) : Fetched :=
  match decode w with
  | .ok i => .run i s
  | .error _ => .moved (s.illegalCommand (fieldOpc w))

/-- `HostWrite(r, v)`, its tests in order: the lock, `CMD`, an RW register, else ignored (R216, R219). -/
def hostWrite (r : Nat) (v : Word64) (s : State) : Fetched :=
  if s.engine.locked then .moved s
  else
    match Reg.ofNumber r with
    | none => .moved s
    | some .cmd => issueCommand v s
    | some reg => .moved (s.writeReg reg v)

/-- A byte the host stores; one inside a running command's footprints breaks host duty H1 or H3 (70_reset_and_hazards.md
R270), and the command's result is then free (log entry 7). -/
def hostStore (a : Word64) (b : Byte) (s : State) : State :=
  let s' := s.storeCells [(a.toNat, b)]
  match s.engine with
  | .busy r => s'.setEngine (.busy { r with tainted := r.tainted || r.op.inFootprint (zext64 a) })
  | .idle => s'
  | .done => s'
  | .error _ => s'
  | .abort _ => s'

/-- A pulse of the reset input; a command in its busy phase is stopped (70_reset_and_hazards.md R260, R261). -/
def resetPulse (s : State) : State :=
  match s.engine with
  | .busy r => (s.abandon r.mem0 r.tainted r.op.writeFootprint (wouldWrite s.par r.mem0 r.op)).toReset
  | .idle => s.toReset
  | .done => s.toReset
  | .error _ => s.toReset
  | .abort _ => s.toReset

/-- `WAIT`: one `RD STATUS`, repeated while the value read has `STATE = BUSY` (30_encoding.md R121). -/
def hostWait (s : State) : State :=
  let s' := s.logRead 2
  if s.engine.isBusy then { s' with host := .wait :: s'.host } else s'

/-- One action of the host. -/
def hostAct (a : HostAction) (s : State) : Fetched :=
  match a with
  | .write r v => hostWrite r v s
  | .read r => .moved (s.logRead r)
  | .wait => .moved (hostWait s)
  | .store ad b => .moved (hostStore ad b s)
  | .reset => .moved (resetPulse s)

/-- The host's next action; with none left QME "is simply idle, keeps all register state" (60_exceptions.md R251). -/
def hostTurn (s : State) : Fetched :=
  match s.host with
  | [] => .moved s
  | a :: rest => hostAct a { s with host := rest }

/-- One move of the agents of a busy command (R220). -/
def busyTurn (r : Run) (t : Turn) (s : State) : Fetched :=
  match t with
  | .host => hostTurn s
  | .worker w => .moved (workerTurn r w s)
  | .sequencer => .moved (sequencerTurn r s)

/-- What the next step does. While a command is busy the plan says who moves, and after its end the default agent;
otherwise the host acts. -/
def fetch (s : State) : Fetched :=
  match s.engine with
  | .busy r =>
    match s.turns with
    | [] => busyTurn r r.defaultTurn s
    | t :: rest => busyTurn r t { s with turns := rest }
  | .idle => hostTurn s
  | .done => hostTurn s
  | .error _ => hostTurn s
  | .abort _ => hostTurn s

/-- `s` with the engine not locked, so that the host's next write is taken (R219). -/
def State.unlocked (s : State) : State := if s.engine.locked then s.setEngine .idle else s

/-- `s` with a write of `w` to `CMD` as the host's next action, and the engine ready to take it. -/
def State.placeCommand (w : Word64) (s : State) : State :=
  { s.unlocked with host := .write Reg.cmd.number w :: s.host }

end Sys2Proof.Machine
end

