-- ==== Sys2Proof/Machine/Step.lean ====
section
/-! DEFINITION. One step of the machine: the host's next action or a move of a busy command's agent, an accepted command
being run by `exec`. -/

namespace Sys2Proof.Machine

/-- One step. -/
def step (s : State) : Host.Outcome State Fault Refusal :=
  match fetch s with
  | .run i s' => exec i s'
  | .moved s' => .next s'

/-- `s` with the table row's bits as the value of the host's next write to `CMD` (log entry 1). -/
def State.withFetchWord (s : State) (nbits w : Nat) : State := s.placeCommand (commandValue nbits w)

end Sys2Proof.Machine
end

