-- ==== Sys2Proof/Safety.lean ====
section
/-! DEFINITION. The terms claims are stated in: what a command's result is as a function of its operands and of memory
(42_dot_product.md R161, 43_matmul_driver.md R188, 44_packing_stage.md R209), when every access of a launch is admitted
(70_reset_and_hazards.md R270 H5, H8), and the invariant of the machine. -/

namespace Sys2Proof.Machine

/-! ### Results as functions of the operands -/

/-- The code `c_l` of logical element `l` in memory `m` (42_dot_product.md R161). -/
def codeAt (m : Memory) (d : DotArgs) (l : Nat) : Nat :=
  extractCode (Memory.read m (d.codeAddr (l / d.strategy.per)).toNat) (l % d.strategy.per) d.strategy.bits

/-- The dense value `b_l` of logical element `l` in memory `m` (42_dot_product.md R161). -/
def denseAt (m : Memory) (d : DotArgs) (l : Nat) : F32 := BitVec.ofNat 32 (bytesAt m (d.denseAddr l).toNat 4)

/-- The product `p_l` of logical element `l` (42_dot_product.md R173). -/
def productAt (m : Memory) (d : DotArgs) (l : Nat) : F32 := elementProduct d.zp (codeAt m d l) (denseAt m d l)

/-- The running sum over elements `from, .., from + count - 1` in ascending order (42_dot_product.md R164, R171). -/
def ascendingSum (m : Memory) (d : DotArgs) (acc : F32) (start count : Nat) : F32 :=
  (List.range count).foldl (fun acc k => fadd acc (productAt m d (start + k))) acc

/-- The running sum over the full blocks of Strategy V (42_dot_product.md R169). -/
def blockSum (m : Memory) (d : DotArgs) (count : Nat) : F32 :=
  (List.range count).foldl
    (fun acc blk => fadd acc (reduce16 ((List.range Config.block).map fun k => productAt m d (Config.block * blk + k))))
    accClr

/-- The sum a dot product accumulates before `ACC.FIN`, by its strategy (42_dot_product.md R164, R169, R171). -/
def dotSum (m : Memory) (d : DotArgs) : F32 :=
  match d.strategy with
  | .s4 => ascendingSum m d accClr 0 d.logical
  | .s8 => ascendingSum m d accClr 0 d.logical
  | .v8 => ascendingSum m d (blockSum m d d.blocks) (Config.block * d.blocks) (d.length - Config.block * d.blocks)

/-- The value of a dot product whose accesses are all admitted (42_dot_product.md R161, R174). -/
def dotValue (m : Memory) (d : DotArgs) : F32 := fmul (dotSum m d) d.scale

/-- The dense element `(i, l)` of PACK's input (44_packing_stage.md R206). -/
def packInput (m : Memory) (a : PackArgs) (i l : Nat) : F32 := BitVec.ofNat 32 (bytesAt m (a.a.addr 4 i l).toNat 4)

/-- The code PACK gives element `(i, l)` (44_packing_stage.md R206). -/
def packCode (m : Memory) (a : PackArgs) (i l : Nat) : Nat := quantize (packInput m a i l) a.scale a.zp a.bits

/-- The completed command would store byte `b` at address `x`, its inputs being those of memory `m` (43_matmul_driver.md
R187, 44_packing_stage.md R206; 60_exceptions.md R243 "the value the completed command would have written"). -/
def Launch.wouldStore (m : Memory) (x : Nat) (b : Byte) : Launch → Prop
  | .dot _ => False
  | .matmul a => ∃ i < a.n, ∃ j < a.m, ∃ k < 4,
      x = (a.outAddr i j).toNat + k ∧ b = BitVec.ofNat 8 ((dotValue m (a.cell i j)).toNat / 2 ^ (8 * k))
  | .pack a => ∃ i < a.n, ∃ t < a.kb,
      x = (a.outAddr i t).toNat ∧
        b = BitVec.ofNat 8
          (composeByte a.bits
            ((List.range (subsPerByte a.bits)).map fun k => packCode m a i (t * subsPerByte a.bits + k)))

/-- `r` is what 41_accumulator_dequant.md R141 gives for the real number of sign `neg` and magnitude `n / d` units of
`2^-149`: of that sign; an infinity exactly from the midpoint between the largest finite value and `2^128` on; otherwise
no finite value is nearer, and of two equally near the one with an even fraction. -/
def RoundsTo (r : F32) (neg : Bool) (n d : Nat) : Prop :=
  isNaN r = false ∧ fsign r = neg ∧ (isInf r = true ↔ (2 ^ 25 - 1) * 2 ^ 252 * d ≤ n) ∧
  (isInf r = false → ∀ x : F32, isNaN x = false → isInf x = false →
    ((fmag r : Int) * d - n).natAbs ≤ ((fmag x : Int) * d - n).natAbs ∧
    (fmag x ≠ fmag r → ((fmag r : Int) * d - n).natAbs = ((fmag x : Int) * d - n).natAbs → ffrac r % 2 = 0))

/-- A value that is neither a NaN nor an infinity (30_encoding.md R118). -/
def isFinite (x : F32) : Bool := !isNaN x && !isInf x

/-! ### Launches whose accesses are all admitted -/

/-- Every read of a dot product is admitted (20_memory.md R76). -/
def DotArgs.readable (p : Params) (d : DotArgs) : Bool :=
  (List.range d.length).all (fun t => admitted p (d.codeAddr t) 1) &&
    (List.range d.logical).all fun l => admitted p (d.denseAddr l) 4

/-- Every access of a MATMUL is admitted (20_memory.md R76, 43_matmul_driver.md R187). -/
def MatmulArgs.admissible (p : Params) (a : MatmulArgs) : Bool :=
  (List.range a.n).all fun i => (List.range a.m).all fun j =>
    (a.cell i j).readable p && admitted p (a.outAddr i j) 4

/-- Every access of a PACK is admitted (20_memory.md R76, 44_packing_stage.md R206). -/
def PackArgs.admissible (p : Params) (a : PackArgs) : Bool :=
  (List.range a.n).all fun i => (List.range a.kb).all fun t =>
    (List.range (subsPerByte a.bits)).all (fun s => admitted p (a.a.addr 4 i (t * subsPerByte a.bits + s)) 4) &&
      admitted p (a.outAddr i t) 1

/-- Every access of a launch is admitted. -/
def Launch.admissible (p : Params) : Launch → Bool
  | .dot d => d.readable p
  | .matmul a => a.admissible p
  | .pack a => a.admissible p

/-! ### The invariant -/

/-- The row ranges of the workers, in order, are contiguous from `lo` to `n` (43_matmul_driver.md R186). -/
def chained (lo n : Nat) : List (Nat × Nat) → Bool
  | [] => lo == n
  | r :: rest => r.1 == lo && decide (r.1 ≤ r.2) && chained r.2 n rest

/-- The rows of a command's iteration space; a DOT has one cell. -/
def Launch.rows : Launch → Nat
  | .dot _ => 1
  | .matmul a => a.n
  | .pack a => a.n

/-- The opcode a launch was issued by (30_encoding.md R101). -/
def Launch.opcode : Launch → Byte
  | .dot _ => 0x02#8
  | .matmul _ => 0x03#8
  | .pack _ => 0x04#8

/-- The bit width of a launch is legal: its command's check has passed (60_exceptions.md R231). -/
def Launch.legal : Launch → Bool
  | .dot _ => true
  | .matmul _ => true
  | .pack a => legalBits a.bits

/-- A worker's element index is within its dot product, and inside Strategy V's blocks it is at a block boundary
(10_state.md R52, R53). -/
def elementIndexOk (d : DotArgs) (l : Nat) : Bool :=
  decide (l ≤ d.logical) && (d.strategy != .v8 || decide (Config.block * d.blocks ≤ l) || l % Config.block == 0)

/-- A worker context holds a position of 10_state.md R52: its row in its range, its cell in the row, its element index in
the dot product; and its lanes are none or sixteen (R43). -/
def Worker.wellPlaced (op : Launch) (w : Worker) : Bool :=
  (w.lanes.length == 0 || w.lanes.length == Config.block) &&
    match op with
    | .dot d => elementIndexOk d w.l
    | .matmul a =>
      decide (w.lo ≤ w.i) && decide (w.i ≤ w.hi) && (a.m == 0 || decide (w.j < a.m)) &&
        elementIndexOk (a.cell w.i w.j) w.l
    | .pack a => decide (w.lo ≤ w.i) && decide (w.i ≤ w.hi) && (a.kb == 0 || decide (w.j < a.kb))

/-- A run's workers are well placed and own contiguous ranges that cover the rows (10_state.md R41). -/
def Run.ok (r : Run) : Bool :=
  Memory.wf r.mem0 && r.op.legal && r.workers.all (Worker.wellPlaced r.op) &&
    chained 0 r.op.rows (r.workers.map fun w => (w.lo, w.hi))

/-- `OUT_DTYPE`, `OUT_SIZE0` and `OUT_SIZE1` are 0 (10_state.md R30). -/
def State.outClear (s : State) : Bool := s.outDtype == 0#8 && s.outSize0 == 0#64 && s.outSize1 == 0#64

/-- A command that writes memory has its output registers cleared while it runs (10_state.md R30, 45_command_protocol.md
R215). -/
def Launch.outOk (s : State) : Launch → Bool
  | .dot _ => true
  | .matmul _ => s.outClear
  | .pack _ => s.outClear

/-- The engine state is one the rules reach: a busy run is in order, with `LASTOP` its opcode and its output registers
cleared, and `AbortDispatch` never occurs (60_exceptions.md R240). -/
def State.engineOk (s : State) : Bool :=
  match s.engine with
  | .busy r => r.ok && s.lastop == r.op.opcode && r.op.outOk s
  | .abort .dispatch => false
  | .abort .memory => true
  | .idle => true
  | .done => true
  | .error _ => true

/-- The invariant of the machine: memory is in canonical form and the engine state is one the rules reach. -/
def State.Inv (s : State) : Prop := Memory.wf s.mem = true ∧ s.engineOk = true

/-- The strategy of 42_dot_product.md R172 for the `BITS` register and `VEC_CAP`: `dot_S4` for 4, and for 8 `dot_V` where
the wide-vector unit exists, else `dot_S8`. -/
def State.chooses (s : State) (st : Strategy) : Prop :=
  (s.bits = 4#32 ∧ st = .s4) ∨ (s.bits = 8#32 ∧ st = if s.par.vecCap then .v8 else .s8)

/-- The precondition checks of MATMUL pass (43_matmul_driver.md R181), with strategy `st`. -/
def State.matmulPasses (s : State) (st : Strategy) : Prop :=
  s.a.dtype = tagU8 ∧ s.b.dtype = tagF32 ∧ s.chooses st ∧ s.a.size1.toNat * st.per = s.b.size0.toNat

/-- The precondition checks of PACK pass (44_packing_stage.md R201), on an engine with the Packing Stage. -/
def State.packPasses (s : State) : Prop :=
  s.par.packPresent = true ∧ s.a.dtype = tagF32 ∧ (s.bits = 4#32 ∨ s.bits = 8#32) ∧
    s.a.size1.toNat % (8 / s.bits.toNat) = 0

/-- The plan gives the next step to an agent of the busy command, not to the host. -/
def State.agentMoves (s : State) : Prop := ∀ rest, s.turns ≠ .host :: rest

/-- The engine is between commands and takes host writes (45_command_protocol.md R219). -/
def State.ready (s : State) : Prop := s.engine.locked = false

end Sys2Proof.Machine
end

