-- ==== Sys2Proof/Certificates/Slice0/Obligations.lean ====
section
/-! DEFINITION. The statements made about the machine, for the provers. Each docstring names the rule of spec/ it
formalises, or the section it rests on. -/

open Sys2Proof Sys2Proof.Machine

/-! ### Encodings and issue -/

/-- The words of 30_encoding.md R101 decode to their commands, and words R102 calls illegal do not decode. -/
def Obligations.CommandWordsDecode : Prop :=
  decode 0x0000000000000001#64 = .ok .extract ∧ decode 0x0000000000000002#64 = .ok .dot ∧
  decode 0x0000000000000003#64 = .ok .matmul ∧ decode 0x0000000000000004#64 = .ok .pack ∧
  decode 0x0000000000000000#64 = .error .opcodeZero ∧ decode 0x0000000000000005#64 = .error .opcodeReserved ∧
  decode 0x00000000000000FF#64 = .error .opcodeReserved ∧ decode 0x0000000000000103#64 = .error .rsv0Nonzero ∧
  decode 0x0000000100000001#64 = .error .rsv1Nonzero

/-- 30_encoding.md R100 to R102: of all 64-bit values exactly the encodings of the four commands decode, each to its
own command. -/
def Obligations.DecodeIffEncode : Prop :=
  ∀ (w : Word64) (i : Instr), decode w = .ok i ↔ w = encode i

/-- 45_command_protocol.md R217: a write to `CMD` that is not ignored and decodes to a command is run by `exec`, the
host's action being used up and nothing else changed before. -/
def Obligations.StepRunsDecodedCommand : Prop :=
  ∀ (s : State) (w : Word64) (rest : List HostAction) (i : Instr),
    s.ready → s.host = .write 1 w :: rest → decode w = .ok i → step s = exec i { s with host := rest }

/-- A table row's bits placed as the host's next `CMD` write are run by the next step (log entry 1). -/
def Obligations.PlacedTableWordRuns : Prop :=
  ∀ (s : State) (nbits w : Nat) (i : Instr),
    decodeTableWord nbits w = some i → step (s.withFetchWord nbits w) = exec i s.unlocked

/-- 30_encoding.md R102, 60_exceptions.md R235: an illegal `CMD` write that is not ignored sets `ERROR`, `IllegalCommand`
and `LASTOP = W[7:0]` and changes no other register and no byte of memory. The clauses are those of R102, in its order. -/
def Obligations.IllegalCommandEffect : Prop :=
  ∀ (s : State) (w : Word64) (rest : List HostAction),
    s.ready → s.host = .write 1 w :: rest →
      (w.toNat / 2 ^ 32 ≠ 0 ∨ w.toNat / 2 ^ 8 % 2 ^ 24 ≠ 0 ∨ w.toNat % 2 ^ 8 = 0x00 ∨ 0x05 ≤ w.toNat % 2 ^ 8 ∨
        (w.toNat % 2 ^ 8 = 0x04 ∧ s.par.packPresent = false)) →
      step s = .next { s with host := rest, lastop := BitVec.ofNat 8 w.toNat, engine := .error .illegalCommand }

/-- 30_encoding.md R102: PACK on an engine without the Packing Stage is illegal; `OUT_*` are not changed. -/
def Obligations.PackAbsentIsIllegal : Prop :=
  ∀ s : State, s.par.packPresent = false →
    exec .pack s = .next { s with lastop := 0x04#8, engine := .error .illegalCommand }

/-! ### The host interface -/

/-- 45_command_protocol.md R219: every host write while `ABORT` or `BUSY` is ignored. -/
def Obligations.LockedWriteIgnored : Prop :=
  (∀ (s : State) (c : AbortCode) (r : Nat) (v : Word64) (rest : List HostAction),
    s.engine = .abort c → s.host = .write r v :: rest → step s = .next { s with host := rest }) ∧
  (∀ (s : State) (run : Run) (r : Nat) (v : Word64) (rest : List HostAction) (ts : List Turn),
    s.engine = .busy run → s.turns = .host :: ts → s.host = .write r v :: rest →
      step s = .next { s with host := rest, turns := ts })

/-- 45_command_protocol.md R215: a host read returns the register's value, 0 for `CMD` and for an unimplemented number, in
every engine state, and has no side effect on the engine. The last clauses are the map of 10_state.md R21: which number
reads which piece of State, the result registers among them, zero-extended. -/
def Obligations.HostReadHasNoSideEffect : Prop :=
  (∀ (s : State) (r : Nat) (rest : List HostAction), s.engine.isBusy = false → s.host = .read r :: rest →
    step s = .next { s with host := rest, reads := s.reads ++ [(r, s.hostRead r)] }) ∧
  (∀ (s : State) (r : Nat) (rest : List HostAction) (ts : List Turn), s.engine.isBusy = true →
    s.turns = .host :: ts → s.host = .read r :: rest →
      step s = .next { s with host := rest, turns := ts, reads := s.reads ++ [(r, s.hostRead r)] }) ∧
  (∀ (s : State) (reg : Reg), s.hostRead reg.number = s.readReg reg) ∧ (∀ s : State, s.hostRead 1 = 0#64) ∧
  (∀ (s : State) (r : Nat), Reg.ofNumber r = none → s.hostRead r = 0#64) ∧
  (∀ s : State, s.hostRead 0x00 = capWord s.par ∧ s.hostRead 0x02 = s.statusWord ∧
    s.hostRead 0x03 = s.bits.setWidth 64 ∧ s.hostRead 0x04 = s.scale.setWidth 64 ∧
    s.hostRead 0x05 = s.zeroPoint.setWidth 64) ∧
  (∀ s : State, s.hostRead 0x08 = s.a.base ∧ s.hostRead 0x09 = s.a.dtype.setWidth 64 ∧ s.hostRead 0x0A = s.a.size0 ∧
    s.hostRead 0x0B = s.a.size1 ∧ s.hostRead 0x0C = s.a.stride0 ∧ s.hostRead 0x0D = s.a.stride1) ∧
  (∀ s : State, s.hostRead 0x10 = s.b.base ∧ s.hostRead 0x11 = s.b.dtype.setWidth 64 ∧ s.hostRead 0x12 = s.b.size0 ∧
    s.hostRead 0x13 = s.b.size1 ∧ s.hostRead 0x14 = s.b.stride0 ∧ s.hostRead 0x15 = s.b.stride1) ∧
  (∀ s : State, s.hostRead 0x18 = s.outBase ∧ s.hostRead 0x19 = s.outDtype.setWidth 64 ∧ s.hostRead 0x1A = s.outSize0 ∧
    s.hostRead 0x1B = s.outSize1) ∧
  (∀ s : State, s.hostRead 0x20 = s.dAptr ∧ s.hostRead 0x21 = s.dBptr ∧ s.hostRead 0x22 = s.dLength ∧
    s.hostRead 0x23 = s.dRowStride ∧ s.hostRead 0x24 = s.dColStride ∧ s.hostRead 0x25 = s.dResult.setWidth 64) ∧
  (∀ s : State, s.hostRead 0x28 = s.xByte.setWidth 64 ∧ s.hostRead 0x29 = s.xSub.setWidth 64 ∧
    s.hostRead 0x2A = s.xCode.setWidth 64)

/-- 10_state.md R34: a host write to an RW register stores the low bits of the value, a later read returns them
zero-extended, and no other register, no byte of memory and no part of `STATUS` changes. -/
def Obligations.RegisterWriteThenRead : Prop :=
  ∀ (s : State) (reg : Reg) (v : Word64) (rest : List HostAction),
    s.ready → reg.access = .rw → s.host = .write reg.number v :: rest →
      ∃ t, step s = .next t ∧ t.readReg reg = BitVec.ofNat 64 (v.toNat % 2 ^ reg.width) ∧
        (∀ other, other ≠ reg → t.readReg other = s.readReg other) ∧ t.engine = s.engine ∧ t.lastop = s.lastop ∧
        t.mem = s.mem ∧ t.par = s.par ∧ t.host = rest ∧ t.reads = s.reads ∧ t.turns = s.turns ∧ t.cuts = s.cuts ∧
        t.fresh = s.fresh

/-- 10_state.md R33: a number absent from the map of R21, any number from 0x40 on among them, names no register, reads as 0
and ignores writes, in every engine state. -/
def Obligations.UnimplementedNumbers : Prop :=
  (∀ r : Nat, Reg.ofNumber r = none ↔
    r ∉ [0x00, 0x01, 0x02, 0x03, 0x04, 0x05, 0x08, 0x09, 0x0A, 0x0B, 0x0C, 0x0D, 0x10, 0x11, 0x12, 0x13, 0x14, 0x15,
      0x18, 0x19, 0x1A, 0x1B, 0x20, 0x21, 0x22, 0x23, 0x24, 0x25, 0x28, 0x29, 0x2A]) ∧
  (∀ (s : State) (r : Nat), Reg.ofNumber r = none → s.hostRead r = 0#64) ∧
  (∀ (s : State) (r : Nat) (v : Word64) (rest : List HostAction), s.engine.isBusy = false → Reg.ofNumber r = none →
    s.host = .write r v :: rest → step s = .next { s with host := rest }) ∧
  (∀ (s : State) (r : Nat) (v : Word64) (rest : List HostAction) (ts : List Turn), s.engine.isBusy = true →
    Reg.ofNumber r = none → s.turns = .host :: ts → s.host = .write r v :: rest →
      step s = .next { s with host := rest, turns := ts })

/-- 45_command_protocol.md R216: a host write to a read-only register is ignored. -/
def Obligations.ReadOnlyWriteIgnored : Prop :=
  ∀ (s : State) (reg : Reg) (v : Word64) (rest : List HostAction),
    s.ready → reg.access = .ro → s.host = .write reg.number v :: rest → step s = .next { s with host := rest }

/-- 30_encoding.md R121: `WAIT` repeats `RD STATUS` until the value read has `STATE != BUSY`. -/
def Obligations.WaitPollsStatus : Prop :=
  (∀ (s : State) (rest : List HostAction), s.engine.isBusy = false → s.host = .wait :: rest →
    step s = .next { s with host := rest, reads := s.reads ++ [(2, s.statusWord)] }) ∧
  (∀ (s : State) (rest : List HostAction) (ts : List Turn), s.engine.isBusy = true → s.turns = .host :: ts →
    s.host = .wait :: rest → step s = .next { s with turns := ts, reads := s.reads ++ [(2, s.statusWord)] })

/-- 10_state.md R24: the fields of `STATUS`, its state codes, and the error codes of 60_exceptions.md R230; every other
bit reads 0. -/
def Obligations.StatusFields : Prop :=
  (∀ s : State, s.statusWord.toNat =
    s.lastop.toNat * 2 ^ 16 + s.engine.errCode.toNat * 2 ^ 8 + s.engine.stateCode.toNat) ∧
  (∀ s : State, s.engine = .idle → s.engine.stateCode = 0#3 ∧ s.engine.errCode = 0x00#8) ∧
  (∀ (s : State) (r : Run), s.engine = .busy r → s.engine.stateCode = 1#3 ∧ s.engine.errCode = 0x00#8) ∧
  (∀ s : State, s.engine = .done → s.engine.stateCode = 2#3 ∧ s.engine.errCode = 0x00#8) ∧
  (∀ (s : State) (e : PreError), s.engine = .error e → s.engine.stateCode = 3#3 ∧ s.engine.errCode = e.code) ∧
  (∀ (s : State) (c : AbortCode), s.engine = .abort c → s.engine.stateCode = 4#3 ∧ s.engine.errCode = c.code) ∧
  PreError.configuration.code = 0x01#8 ∧ PreError.shapeMismatch.code = 0x02#8 ∧
  PreError.typeMismatch.code = 0x03#8 ∧ PreError.illegalCommand.code = 0x04#8 ∧
  AbortCode.dispatch.code = 0x10#8 ∧ AbortCode.memory.code = 0x11#8

/-- 10_state.md R22: the fields of `CAP`, which never change. -/
def Obligations.CapFieldsNeverChange : Prop :=
  (∀ s : State, (s.readReg .cap).toNat = s.par.vecCap.toNat + s.par.packPresent.toNat * 2 + 1 * 2 ^ 8) ∧
  (∀ s t : State, step s = .next t → t.par = s.par ∧ t.readReg .cap = s.readReg .cap)

/-- A byte the host stores while no command runs is in memory after it, and nothing else changes (00_scope.md R7,
20_memory.md R89; the model's action, log entry 12). -/
def Obligations.HostStoreBetweenCommands : Prop :=
  ∀ (s : State) (a : Word64) (b : Byte) (rest : List HostAction),
    s.engine.isBusy = false → Memory.wf s.mem = true → s.host = .store a b :: rest →
      ∃ t, step s = .next t ∧ t = { s with host := rest, mem := t.mem } ∧ Memory.wf t.mem = true ∧
        ∀ x, Memory.read t.mem x = if x = a.toNat then b else Memory.read s.mem x

/-! ### EXTRACT -/

/-- 40_bit_extractor.md R135 with the formula of R130: EXTRACT with a legal `BITS` writes the code to `X_CODE` and ends `DONE`
in the step that accepts it; with any other `BITS` it ends `ERROR` in that step; nothing else changes. -/
def Obligations.ExtractResult : Prop :=
  decode 0x0000000000000001#64 = .ok .extract ∧
  (∀ s : State, s.bits = 4#32 ∨ s.bits = 8#32 →
    exec .extract s = .next { s with
      lastop := 0x01#8
      xCode := BitVec.ofNat 8 (s.xByte.toNat / 2 ^ (s.xSub.toNat * s.bits.toNat) % 2 ^ s.bits.toNat)
      engine := .done }) ∧
  (∀ s : State, s.bits ≠ 4#32 → s.bits ≠ 8#32 →
    exec .extract s = .next { s with lastop := 0x01#8, engine := .error .configuration })

/-- 60_exceptions.md R231, R237: EXTRACT and DOT with `BITS` not 4 or 8 raise `ConfigurationError`; apart from `STATUS`
nothing changes. -/
def Obligations.ExtractAndDotConfigurationError : Prop :=
  ∀ s : State, s.bits ≠ 4#32 → s.bits ≠ 8#32 →
    exec .extract s = .next { s with lastop := 0x01#8, engine := .error .configuration } ∧
    exec .dot s = .next { s with lastop := 0x02#8, engine := .error .configuration }

/-- 40_bit_extractor.md R131, R132, R134: the extractor is the identity for 8 bits, the low and high nibble for 4 bits, and
0 for an out-of-range sub-index. -/
def Obligations.ExtractorCases : Prop :=
  (∀ byte : Byte, extractCode byte 0 8 = byte.toNat) ∧
  (∀ byte : Byte, extractCode byte 0 4 = (byte.extractLsb' 0 4).toNat) ∧
  (∀ byte : Byte, extractCode byte 1 4 = (byte.extractLsb' 4 4).toNat) ∧
  (∀ (byte : Byte) (sub bits : Nat), bits = 4 ∨ bits = 8 → 8 / bits ≤ sub → extractCode byte sub bits = 0)

/-- 40_bit_extractor.md R136: extracting an in-range sub-value of a byte composed of codes gives the code. -/
def Obligations.BitRoundTrip : Prop :=
  ∀ (bits : Nat) (codes : List Nat) (sub : Nat), bits = 4 ∨ bits = 8 → codes.length = 8 / bits →
    (∀ c ∈ codes, c < 2 ^ bits) → sub < 8 / bits →
      extractCode (BitVec.ofNat 8 (composeByte bits codes)) sub bits = codes.getD sub 0

/-- 40_bit_extractor.md R137: every code is in range, and the codes of a byte compose to the byte. -/
def Obligations.EveryByteIsItsCodes : Prop :=
  ∀ (byte : Byte) (bits : Nat), bits = 4 ∨ bits = 8 →
    (∀ sub < 8 / bits, extractCode byte sub bits ≤ 2 ^ bits - 1) ∧
    composeByte bits ((List.range (8 / bits)).map fun sub => extractCode byte sub bits) = byte.toNat

/-! ### Float arithmetic -/

/-- 41_accumulator_dequant.md R141: the rounded value of the positive real `n / d` (in units of `2^-149`) is infinity exactly
from the midpoint above the largest finite value on; otherwise no non-negative finite value is nearer, and of two equally
near the one returned has an even fraction. The other sign gives the negated pattern. -/
def Obligations.RoundsToNearestEven : Prop :=
  ∀ n d : Nat, 0 < n → 0 < d →
    (roundF32 false n d = 0x7F800000#32 ↔ (2 ^ 25 - 1) * 2 ^ 252 * d ≤ n) ∧
    (roundF32 false n d ≠ 0x7F800000#32 →
      isNaN (roundF32 false n d) = false ∧ fsign (roundF32 false n d) = false ∧
      ∀ x : F32, fsign x = false → isNaN x = false → isInf x = false →
        ((fmag (roundF32 false n d) : Int) * d - n).natAbs ≤ ((fmag x : Int) * d - n).natAbs ∧
        (x ≠ roundF32 false n d →
          ((fmag (roundF32 false n d) : Int) * d - n).natAbs = ((fmag x : Int) * d - n).natAbs →
            ffrac (roundF32 false n d) % 2 = 0)) ∧
    roundF32 true n d = fneg (roundF32 false n d)

/-- 41_accumulator_dequant.md R142: the conversion of a code is exact, and 0 converts to `+0.0`. -/
def Obligations.CodeConversionExact : Prop :=
  (∀ c < 256, fval (f32OfU8 c) = c * 2 ^ 149 ∧ isNaN (f32OfU8 c) = false ∧ isInf (f32OfU8 c) = false) ∧
  f32OfU8 0 = 0x00000000#32 ∧ f32OfU8 1 = 0x3F800000#32 ∧ f32OfU8 15 = 0x41700000#32 ∧ f32OfU8 255 = 0x437F0000#32

/-- 41_accumulator_dequant.md R143, R144: `fadd` case by case (a NaN; infinities; two zeros; an exact sum of zero; any other
finite operands, where the result is the exact sum rounded), `fsub`, and the notes of the two rules. -/
def Obligations.AddAndSubtract : Prop :=
  (∀ a b : F32, isNaN a = true ∨ isNaN b = true → fadd a b = 0x7FC00000#32) ∧
  (∀ a b : F32, isInf a = true → isInf b = true → fsign a ≠ fsign b → fadd a b = 0x7FC00000#32) ∧
  (∀ a b : F32, isInf a = true → isFinite b = true ∨ b = a → fadd a b = a ∧ fadd b a = a) ∧
  (∀ a b : F32, isZero a = true → isZero b = true →
    fadd a b = if a = 0x80000000#32 ∧ b = 0x80000000#32 then 0x80000000#32 else 0x00000000#32) ∧
  (∀ a b : F32, isFinite a = true → isFinite b = true → isZero a = false → fval a + fval b = 0 →
    fadd a b = 0x00000000#32) ∧
  (∀ a b : F32, isFinite a = true → isFinite b = true → fval a + fval b ≠ 0 →
    RoundsTo (fadd a b) (decide (fval a + fval b < 0)) (fval a + fval b).natAbs 1) ∧
  (∀ a b : F32, fsub a b = fadd a (b ^^^ 0x80000000#32)) ∧
  (∀ x : F32, isNaN x = false → fadd 0x00000000#32 x = if x = 0x80000000#32 then 0x00000000#32 else x) ∧
  (∀ x : F32, isNaN x = false → fsub x 0x00000000#32 = x) ∧
  (∀ x : F32, isNaN x = false → isInf x = false → fsub x x = 0x00000000#32) ∧
  (∀ x : F32, isInf x = true → fsub x x = 0x7FC00000#32)

/-- 41_accumulator_dequant.md R145, R146: `fmul` and `fdiv` case by case (a NaN; infinity times zero, infinity over infinity,
zero over zero; infinite results; zero results; any other operands, where the result is the exact product or quotient
rounded), the sign of every result the XOR of the operands' signs, and the notes of R145. -/
def Obligations.MultiplyAndDivide : Prop :=
  (∀ a b : F32, isNaN a = true ∨ isNaN b = true → fmul a b = 0x7FC00000#32 ∧ fdiv a b = 0x7FC00000#32) ∧
  (∀ a b : F32, isInf a = true → isZero b = true → fmul a b = 0x7FC00000#32 ∧ fmul b a = 0x7FC00000#32) ∧
  (∀ a b : F32, isInf a = true → isNaN b = false → isZero b = false →
    fmul a b = (if fsign a = fsign b then 0x7F800000#32 else 0xFF800000#32) ∧
    fmul b a = (if fsign a = fsign b then 0x7F800000#32 else 0xFF800000#32)) ∧
  (∀ a b : F32, isZero a = true → isFinite b = true →
    fmul a b = (if fsign a = fsign b then 0x00000000#32 else 0x80000000#32) ∧
    fmul b a = (if fsign a = fsign b then 0x00000000#32 else 0x80000000#32)) ∧
  (∀ a b : F32, isFinite a = true → isFinite b = true → isZero a = false → isZero b = false →
    RoundsTo (fmul a b) (fsign a != fsign b) (fmag a * fmag b) (2 ^ 149)) ∧
  (∀ a b : F32, (isInf a = true ∧ isInf b = true) ∨ (isZero a = true ∧ isZero b = true) → fdiv a b = 0x7FC00000#32) ∧
  (∀ a b : F32, (isInf a = true ∧ isFinite b = true) ∨ (isZero b = true ∧ isNaN a = false ∧ isZero a = false) →
    fdiv a b = if fsign a = fsign b then 0x7F800000#32 else 0xFF800000#32) ∧
  (∀ a b : F32, (isZero a = true ∧ isNaN b = false ∧ isZero b = false) ∨ (isInf b = true ∧ isFinite a = true) →
    fdiv a b = if fsign a = fsign b then 0x00000000#32 else 0x80000000#32) ∧
  (∀ a b : F32, isFinite a = true → isFinite b = true → isZero a = false → isZero b = false →
    RoundsTo (fdiv a b) (fsign a != fsign b) (fmag a * 2 ^ 149) (fmag b)) ∧
  (∀ x : F32, isNaN x = false → fmul x 0x3F800000#32 = x) ∧ (∀ a b : F32, fmul a b = fmul b a)

/-- 41_accumulator_dequant.md R148 (a): every arithmetic result that is a NaN is the canonical NaN, and an operand that is a
NaN gives it. -/
def Obligations.NaNsAreCanonical : Prop :=
  ∀ a b : F32,
    (isNaN (fadd a b) = true → fadd a b = 0x7FC00000#32) ∧ (isNaN (fsub a b) = true → fsub a b = 0x7FC00000#32) ∧
    (isNaN (fmul a b) = true → fmul a b = 0x7FC00000#32) ∧ (isNaN (fdiv a b) = true → fdiv a b = 0x7FC00000#32) ∧
    (isNaN (frint a) = true → frint a = 0x7FC00000#32) ∧
    (isNaN a = true ∨ isNaN b = true →
      fadd a b = 0x7FC00000#32 ∧ fsub a b = 0x7FC00000#32 ∧ fmul a b = 0x7FC00000#32 ∧ fdiv a b = 0x7FC00000#32)

/-- 41_accumulator_dequant.md R147: `frint` of a value below `2^23` in magnitude is the nearest integer, the even one on a
tie, with the sign kept; a NaN gives the canonical NaN and any other value is itself. -/
def Obligations.RoundsToIntegral : Prop :=
  (∀ a : F32, isNaN a = false → fmag a < 2 ^ 23 * 2 ^ 149 →
    ∃ k : Nat, fmag (frint a) = k * 2 ^ 149 ∧ fsign (frint a) = fsign a ∧ isNaN (frint a) = false ∧
      ∀ j : Nat, ((k * 2 ^ 149 : Nat) - fmag a : Int).natAbs ≤ ((j * 2 ^ 149 : Nat) - fmag a : Int).natAbs ∧
        (j ≠ k → ((k * 2 ^ 149 : Nat) - fmag a : Int).natAbs = ((j * 2 ^ 149 : Nat) - fmag a : Int).natAbs →
          k % 2 = 0)) ∧
  (∀ a : F32, isNaN a = false → 2 ^ 23 * 2 ^ 149 ≤ fmag a → frint a = a) ∧
  (∀ a : F32, isNaN a = true → frint a = 0x7FC00000#32)

/-! ### The dot product and DOT -/

/-- 42_dot_product.md R170: the halving tree. -/
def Obligations.ReductionTree : Prop :=
  ∀ p0 p1 p2 p3 p4 p5 p6 p7 p8 p9 p10 p11 p12 p13 p14 p15 : F32,
    reduce16 [p0, p1, p2, p3, p4, p5, p6, p7, p8, p9, p10, p11, p12, p13, p14, p15] =
      fadd
        (fadd (fadd (fadd p0 p8) (fadd p4 p12)) (fadd (fadd p2 p10) (fadd p6 p14)))
        (fadd (fadd (fadd p1 p9) (fadd p5 p13)) (fadd (fadd p3 p11) (fadd p7 p15)))

/-- 42_dot_product.md R172: the strategy selected, and the abort arm for any other `bits`. -/
def Obligations.StrategySelection : Prop :=
  (∀ v, selectStrategy 4 v = .ok .s4) ∧ selectStrategy 8 false = .ok .s8 ∧ selectStrategy 8 true = .ok .v8 ∧
  (∀ b v, b ≠ 4 → b ≠ 8 → selectStrategy b v = .error .dispatch)

/-- 42_dot_product.md R175, R164, R169, R171: DOT with a legal `BITS` and every read admitted writes the value of the dot
product of its operands to `D_RESULT` and ends `DONE`; nothing else changes (no plan for the busy phase, log entry 3). -/
def Obligations.DotResult : Prop :=
  ∀ (s : State) (st : Strategy), s.chooses st → s.turns = [] → (s.dotArgs st).readable s.par = true →
    exec .dot s = .next { s with
      lastop := 0x02#8, dResult := dotValue s.mem (s.dotArgs st), engine := .done }

/-- 42_dot_product.md R175, 60_exceptions.md R241: DOT with a read that is not admitted ends `ABORT` with `AbortMemory`,
`D_RESULT` unchanged and memory untouched. -/
def Obligations.DotAborts : Prop :=
  ∀ (s : State) (st : Strategy), s.chooses st → s.turns = [] → (s.dotArgs st).readable s.par = false →
    exec .dot s = .next { s with lastop := 0x02#8, engine := .abort .memory }

/-- 41_accumulator_dequant.md R154: the dot product for `scale` is `fmul` of the dot product for 1.0 with `scale`, bit for
bit. -/
def Obligations.ScaleLinearity : Prop :=
  ∀ (p : Params) (m : Memory) (d : DotArgs),
    dot p m d = (dot p m { d with scale := 0x3F800000#32 }).map fun v => fmul v d.scale

/-- 41_accumulator_dequant.md R155: with a zero zero-point the offset subtraction changes nothing. -/
def Obligations.ZeroPointIdentity : Prop :=
  ∀ (zp acc b : F32) (code : Nat), zp = 0x00000000#32 ∨ zp = 0x80000000#32 → code ≤ 255 →
    fsub (f32OfU8 code) zp = f32OfU8 code ∧ accMac zp acc code b = fadd acc (fmul (f32OfU8 code) b)

/-- 42_dot_product.md R173, R169 (corner case): below sixteen elements Strategy V returns the bits of Strategy S. -/
def Obligations.StrategiesAgreeBelowABlock : Prop :=
  ∀ (p : Params) (m : Memory) (d : DotArgs), d.length < 16 →
    dot p m { d with strategy := .v8 } = dot p m { d with strategy := .s8 }

/-- 42_dot_product.md R160, R174: a dot product depends on the bytes of its read footprint alone. -/
def Obligations.DotReadsOnlyItsFootprint : Prop :=
  ∀ (p : Params) (m m' : Memory) (d : DotArgs),
    (∀ x ∈ d.readFootprint, Memory.read m x.toNat = Memory.read m' x.toNat) → dot p m d = dot p m' d

/-! ### MATMUL -/

/-- 43_matmul_driver.md R187 to R189: a MATMUL whose checks pass, whose accesses are all admitted and whose output overlaps
no input ends `DONE` with every cell of the output the dot product of its row and column, the output registers set, every
byte outside the output region as before, and no other register changed (no plan for the busy phase, log entry 3). -/
def Obligations.MatmulResult : Prop :=
  ∀ (s : State) (st : Strategy), Memory.wf s.mem = true → s.turns = [] → s.matmulPasses st →
    (s.matmulArgs st).admissible s.par = true → (Launch.matmul (s.matmulArgs st)).aliased = false →
      ∃ t, exec .matmul s = .next t ∧
        t = { s with
          lastop := 0x03#8, outDtype := tagF32, outSize0 := s.a.size0, outSize1 := s.b.size1, engine := .done,
          mem := t.mem } ∧
        Memory.wf t.mem = true ∧
        (∀ i < s.a.size0.toNat, ∀ j < s.b.size1.toNat,
          bytesAt t.mem ((s.matmulArgs st).outAddr i j).toNat 4 =
            (dotValue s.mem ((s.matmulArgs st).cell i j)).toNat) ∧
        (∀ x : Nat, (Launch.matmul (s.matmulArgs st)).inOutput x = false →
          Memory.read t.mem x = Memory.read s.mem x)

/-- 43_matmul_driver.md R181 to R183, 60_exceptions.md R236, R237: the first failing check ends a MATMUL in `ERROR` with its
code, `OUT_*` cleared, no memory written and nothing else changed. -/
def Obligations.MatmulErrors : Prop :=
  ∀ s : State,
    (s.a.dtype ≠ tagU8 →
      exec .matmul s = .next { s with
        lastop := 0x03#8, outDtype := 0#8, outSize0 := 0#64, outSize1 := 0#64, engine := .error .typeMismatch }) ∧
    (s.a.dtype = tagU8 → s.b.dtype ≠ tagF32 →
      exec .matmul s = .next { s with
        lastop := 0x03#8, outDtype := 0#8, outSize0 := 0#64, outSize1 := 0#64, engine := .error .typeMismatch }) ∧
    (s.a.dtype = tagU8 → s.b.dtype = tagF32 → s.bits ≠ 4#32 → s.bits ≠ 8#32 →
      exec .matmul s = .next { s with
        lastop := 0x03#8, outDtype := 0#8, outSize0 := 0#64, outSize1 := 0#64, engine := .error .configuration }) ∧
    (s.a.dtype = tagU8 → s.b.dtype = tagF32 → (s.bits = 4#32 ∨ s.bits = 8#32) →
      s.a.size1.toNat * (8 / s.bits.toNat) ≠ s.b.size0.toNat →
      exec .matmul s = .next { s with
        lastop := 0x03#8, outDtype := 0#8, outSize0 := 0#64, outSize1 := 0#64, engine := .error .shapeMismatch })

/-- 43_matmul_driver.md R191: with `n = 0` or `m = 0` a MATMUL whose checks pass ends `DONE` with the shape in the output
registers and memory untouched, whatever its addresses. -/
def Obligations.MatmulEmptyOutput : Prop :=
  ∀ (s : State) (st : Strategy), s.turns = [] → s.matmulPasses st → s.a.size0 = 0#64 ∨ s.b.size1 = 0#64 →
    exec .matmul s = .next { s with
      lastop := 0x03#8, outDtype := tagF32, outSize0 := s.a.size0, outSize1 := s.b.size1, engine := .done }

/-- 43_matmul_driver.md R190, 60_exceptions.md R241, R243: a MATMUL with an access that is not admitted ends `ABORT` with
`OUT_*` cleared; each byte of memory is as before, or is the byte the completed command would have written there. -/
def Obligations.MatmulAborts : Prop :=
  ∀ (s : State) (st : Strategy), Memory.wf s.mem = true → s.turns = [] → s.matmulPasses st →
    (s.matmulArgs st).admissible s.par = false → (Launch.matmul (s.matmulArgs st)).aliased = false →
      ∃ t, exec .matmul s = .next t ∧
        t = { s with
          lastop := 0x03#8, outDtype := 0#8, outSize0 := 0#64, outSize1 := 0#64, engine := .abort .memory,
          mem := t.mem, fresh := t.fresh } ∧
        ∀ x : Nat, Memory.read t.mem x = Memory.read s.mem x ∨
          ∃ i < s.a.size0.toNat, ∃ j < s.b.size1.toNat, ∃ b < 4,
            x = ((s.matmulArgs st).outAddr i j).toNat + b ∧
            Memory.read t.mem x =
              BitVec.ofNat 8 ((dotValue s.mem ((s.matmulArgs st).cell i j)).toNat / 2 ^ (8 * b))

/-! ### PACK -/

/-- 44_packing_stage.md R206, R208, R209: a PACK whose checks pass, whose accesses are all admitted and whose output overlaps
no input ends `DONE`; every code extracted from its output is the quantized input element, the output registers are set,
every byte outside the output region is as before, and no other register has changed (no plan, log entry 3). -/
def Obligations.PackResult : Prop :=
  ∀ s : State, Memory.wf s.mem = true → s.turns = [] → s.packPasses →
    (s.packArgs s.bits.toNat).admissible s.par = true → (Launch.pack (s.packArgs s.bits.toNat)).aliased = false →
      ∃ t, exec .pack s = .next t ∧
        t = { s with
          lastop := 0x04#8, outDtype := tagU8, outSize0 := s.a.size0,
          outSize1 := BitVec.ofNat 64 (s.a.size1.toNat / (8 / s.bits.toNat)), engine := .done, mem := t.mem } ∧
        Memory.wf t.mem = true ∧
        (∀ i < s.a.size0.toNat, ∀ l < s.a.size1.toNat,
          extractCode
              (Memory.read t.mem ((s.packArgs s.bits.toNat).outAddr i (l / (8 / s.bits.toNat))).toNat)
              (l % (8 / s.bits.toNat)) s.bits.toNat =
            packCode s.mem (s.packArgs s.bits.toNat) i l) ∧
        (∀ x : Nat, (Launch.pack (s.packArgs s.bits.toNat)).inOutput x = false →
          Memory.read t.mem x = Memory.read s.mem x)

/-- 44_packing_stage.md R201: the first failing check ends a PACK in `ERROR` with its code, `OUT_*` cleared and nothing else
changed. -/
def Obligations.PackErrors : Prop :=
  ∀ s : State, s.par.packPresent = true →
    (s.a.dtype ≠ tagF32 →
      exec .pack s = .next { s with
        lastop := 0x04#8, outDtype := 0#8, outSize0 := 0#64, outSize1 := 0#64, engine := .error .typeMismatch }) ∧
    (s.a.dtype = tagF32 → s.bits ≠ 4#32 → s.bits ≠ 8#32 →
      exec .pack s = .next { s with
        lastop := 0x04#8, outDtype := 0#8, outSize0 := 0#64, outSize1 := 0#64, engine := .error .configuration }) ∧
    (s.a.dtype = tagF32 → (s.bits = 4#32 ∨ s.bits = 8#32) → s.a.size1.toNat % (8 / s.bits.toNat) ≠ 0 →
      exec .pack s = .next { s with
        lastop := 0x04#8, outDtype := 0#8, outSize0 := 0#64, outSize1 := 0#64, engine := .error .shapeMismatch })

/-- 60_exceptions.md R241, R243: a PACK with an access that is not admitted ends `ABORT` with `OUT_*` cleared; every byte
outside the output region is as before, and, where the output overlaps no input, every byte inside it is as before or is
the byte the completed command would have written there: a free choice (log entry 6; no plan, log entry 3). That a launch
whose output does overlap its input also ends `ABORT` with the bytes outside as before is the model's choice (log
entry 7): 20_memory.md R82 puts such a launch outside every claim about the hardware. -/
def Obligations.PackAborts : Prop :=
  ∀ s : State, Memory.wf s.mem = true → s.turns = [] → s.packPasses →
    (s.packArgs s.bits.toNat).admissible s.par = false →
      ∃ t, exec .pack s = .next t ∧
        t = { s with
          lastop := 0x04#8, outDtype := 0#8, outSize0 := 0#64, outSize1 := 0#64, engine := .abort .memory,
          mem := t.mem, fresh := t.fresh } ∧
        (∀ x : Nat, (Launch.pack (s.packArgs s.bits.toNat)).inOutput x = false →
          Memory.read t.mem x = Memory.read s.mem x) ∧
        ((Launch.pack (s.packArgs s.bits.toNat)).aliased = false →
          ∀ x : Nat, (Launch.pack (s.packArgs s.bits.toNat)).inOutput x = true →
            Memory.read t.mem x = Memory.read s.mem x ∨
              (Launch.pack (s.packArgs s.bits.toNat)).wouldStore s.mem x (Memory.read t.mem x))

/-- 44_packing_stage.md R202, R205: the code of a value. A NaN sum gives 0; any other sum is rounded to the nearest integer,
ties to even, and clamped to `[0, 2^bits - 1]`, infinities included. -/
def Obligations.QuantizeClamps : Prop :=
  ∀ (v scale zp : F32) (bits : Nat), bits = 4 ∨ bits = 8 →
    (isNaN (fadd (frint (fdiv v scale)) zp) = true → quantize v scale zp bits = 0) ∧
    (isNaN (fadd (frint (fdiv v scale)) zp) = false →
      quantize v scale zp bits =
        if fsign (fadd (frint (fdiv v scale)) zp) then 0
        else min (2 ^ bits - 1) (roundEven (fmag (fadd (frint (fdiv v scale)) zp)) (2 ^ 149))) ∧
    quantize v scale zp bits ≤ 2 ^ bits - 1

/-- 20_memory.md R82 puts the result of an overlapping launch outside every claim about the hardware; this says what the
MODEL does there, its choice (log entry 7): the command still ends `DONE` with its output registers set, every byte of the
output region is a free byte of its own (`Config.freeByte`, of which nothing is known), and every byte outside is as
before. -/
def Obligations.OverlappingLaunchEnds : Prop :=
  (∀ (s : State) (st : Strategy), Memory.wf s.mem = true → s.turns = [] → s.matmulPasses st →
    (s.matmulArgs st).admissible s.par = true → (Launch.matmul (s.matmulArgs st)).aliased = true →
      ∃ t, exec .matmul s = .next t ∧
        t = { s with
          lastop := 0x03#8, outDtype := tagF32, outSize0 := s.a.size0, outSize1 := s.b.size1, engine := .done,
          mem := t.mem, fresh := s.fresh + 4 * s.a.size0.toNat * s.b.size1.toNat } ∧
        (∀ k < 4 * s.a.size0.toNat * s.b.size1.toNat,
          Memory.read t.mem (s.outBase.toNat + k) = Config.freeByte (s.fresh + k)) ∧
        ∀ x : Nat, (Launch.matmul (s.matmulArgs st)).inOutput x = false →
          Memory.read t.mem x = Memory.read s.mem x) ∧
  (∀ s : State, Memory.wf s.mem = true → s.turns = [] → s.packPasses →
    (s.packArgs s.bits.toNat).admissible s.par = true → (Launch.pack (s.packArgs s.bits.toNat)).aliased = true →
      ∃ t, exec .pack s = .next t ∧
        t = { s with
          lastop := 0x04#8, outDtype := tagU8, outSize0 := s.a.size0,
          outSize1 := BitVec.ofNat 64 (s.a.size1.toNat / (8 / s.bits.toNat)), engine := .done,
          mem := t.mem, fresh := s.fresh + s.a.size0.toNat * (s.a.size1.toNat / (8 / s.bits.toNat)) } ∧
        (∀ k < s.a.size0.toNat * (s.a.size1.toNat / (8 / s.bits.toNat)),
          Memory.read t.mem (s.outBase.toNat + k) = Config.freeByte (s.fresh + k)) ∧
        ∀ x : Nat, (Launch.pack (s.packArgs s.bits.toNat)).inOutput x = false →
          Memory.read t.mem x = Memory.read s.mem x)

/-! ### The busy phase -/

/-- 45_command_protocol.md R217, 43_matmul_driver.md R184, R186: with a plan for its busy phase a DOT, MATMUL or PACK whose
checks pass becomes `BUSY`, its operands latched and its workers at the start of their ranges; memory and `D_RESULT` are
unchanged. -/
def Obligations.PlannedCommandBecomesBusy : Prop :=
  (∀ (s : State) (st : Strategy), s.turns ≠ [] → s.chooses st →
    exec .dot s = .next { s with
      lastop := 0x02#8, cuts := s.cuts.tail
      engine := .busy
        { op := .dot (s.dotArgs st), workers := [Worker.start (0, 1)], mem0 := s.mem, tainted := false } }) ∧
  (∀ (s : State) (st : Strategy), s.turns ≠ [] → s.matmulPasses st →
    exec .matmul s = .next { s with
      lastop := 0x03#8, outDtype := 0#8, outSize0 := 0#64, outSize1 := 0#64, cuts := s.cuts.tail
      engine := .busy
        { op := .matmul (s.matmulArgs st)
          workers := (partitionRows (max 1 s.par.nworkers) s.a.size0.toNat (s.cuts.headD [])).map Worker.start
          mem0 := s.mem, tainted := (Launch.matmul (s.matmulArgs st)).aliased } }) ∧
  (∀ s : State, s.turns ≠ [] → s.packPasses →
    exec .pack s = .next { s with
      lastop := 0x04#8, outDtype := 0#8, outSize0 := 0#64, outSize1 := 0#64, cuts := s.cuts.tail
      engine := .busy
        { op := .pack (s.packArgs s.bits.toNat), workers := [Worker.start (0, s.a.size0.toNat)], mem0 := s.mem
          tainted := (Launch.pack (s.packArgs s.bits.toNat)).aliased } })

/-- 43_matmul_driver.md R186: the ranges of a partition are at most `NWORKERS`, contiguous from 0 to `n`, every row is in
exactly one of them, and every such split is the partition of some cut points. -/
def Obligations.PartitionCoversRowsOnce : Prop :=
  (∀ (workers n : Nat) (cuts : List Nat), 1 ≤ workers →
    (partitionRows workers n cuts).length ≤ workers ∧ chained 0 n (partitionRows workers n cuts) = true ∧
    ∀ i < n, ((partitionRows workers n cuts).filter fun r => decide (r.1 ≤ i) && decide (i < r.2)).length = 1) ∧
  (∀ (workers n : Nat) (ranges : List (Nat × Nat)), ranges ≠ [] → ranges.length ≤ workers →
    chained 0 n ranges = true → ∃ cuts, partitionRows workers n cuts = ranges)

/-- 10_state.md R53: how a MATMUL worker's position advances. Inside a cell it moves to a later element of the same cell and
stores nothing; at the end of the sum it stores the scaled sum as the cell's four bytes and moves to the next cell of its
range with a cleared accumulator. -/
def Obligations.WorkerPositionAdvances : Prop :=
  ∀ (p : Params) (m : Memory) (a : MatmulArgs) (w w' : Worker) (cells : List Host.Cell),
    w.wellPlaced (.matmul a) = true → w.finished (.matmul a) = false →
    w.advance p m (.matmul a) = .ok (w', cells) →
      (w.l < (a.cell w.i w.j).logical ∧ w'.i = w.i ∧ w'.j = w.j ∧ w.l < w'.l ∧ w'.l ≤ (a.cell w.i w.j).logical ∧
        w'.lo = w.lo ∧ w'.hi = w.hi ∧ cells = []) ∨
      (w.l = (a.cell w.i w.j).logical ∧ w'.lo = w.lo ∧ w'.hi = w.hi ∧ w'.l = 0 ∧ w'.acc = 0x00000000#32 ∧
        (w'.i, w'.j) = (if w.j + 1 < a.m then (w.i, w.j + 1) else (w.i + 1, 0)) ∧
        cells = (List.range 4).map fun b =>
          ((a.outAddr w.i w.j).toNat + b, BitVec.ofNat 8 ((fmul w.acc a.scale).toNat / 2 ^ (8 * b))))

/-- 45_command_protocol.md R220, 60_exceptions.md R241: a worker's turn in a busy run performs that worker's step, and
raises `AbortMemory` instead where an access is not admitted. -/
def Obligations.WorkerTurnStep : Prop :=
  ∀ (s : State) (run : Run) (w : Nat) (wk : Worker) (ts : List Turn),
    s.engine = .busy run → s.turns = .worker w :: ts → run.workers[w]? = some wk → wk.finished run.op = false →
      (∀ x, wk.advance s.par s.mem run.op = .ok x →
        step s = .next { s with
          turns := ts, mem := Memory.writeAll s.mem x.2,
          engine := .busy { run with workers := run.workers.set w x.1 } }) ∧
      (∀ c, wk.advance s.par s.mem run.op = .error c → c = .memory ∧
        ∃ t, step s = .next t ∧ t = { s with turns := ts, engine := .abort .memory, mem := t.mem, fresh := t.fresh })

/-- 45_command_protocol.md R221: when every worker is finished the sequencer's turn ends the command: DOT's value is
`ACC.FIN` of worker 0, the output registers of MATMUL and PACK are set, and `STATE` is `DONE`. -/
def Obligations.SequencerRetires : Prop :=
  ∀ (s : State) (run : Run) (ts : List Turn),
    s.engine = .busy run → s.turns = .sequencer :: ts → run.finished = true → run.tainted = false →
      (∀ (d : DotArgs) (w : Worker) (ws : List Worker), run.op = .dot d → run.workers = w :: ws →
        step s = .next { s with turns := ts, dResult := fmul w.acc d.scale, engine := .done }) ∧
      (∀ a : MatmulArgs, run.op = .matmul a →
        step s = .next { s with
          turns := ts, outDtype := tagF32, outSize0 := BitVec.ofNat 64 a.n, outSize1 := BitVec.ofNat 64 a.m,
          engine := .done }) ∧
      (∀ a : PackArgs, run.op = .pack a →
        step s = .next { s with
          turns := ts, outDtype := tagU8, outSize0 := BitVec.ofNat 64 a.n, outSize1 := BitVec.ofNat 64 a.kb,
          engine := .done })

/-- 43_matmul_driver.md R188, 45_command_protocol.md R223: whatever plan of worker and sequencer moves a command's busy phase
follows, and whatever its partition, when it is over the machine is as if the command had been one transition. -/
def Obligations.EveryScheduleAgrees : Prop :=
  ∀ (op : Launch) (s t : State) (k : Nat),
    Memory.wf s.mem = true → op.legal = true → op.aliased = false → s.host = [] → .host ∉ s.turns →
    Host.Core.run core k (beginRun op s) = .next t → t.engine.isBusy = false →
      t = { complete op s with turns := t.turns, cuts := s.cuts.tail }

/-- 70_reset_and_hazards.md R276: a command that is `BUSY` reaches a state that is not `BUSY` after finitely many steps. -/
def Obligations.BusyPhaseEnds : Prop :=
  ∀ s : State, s.engine.isBusy = true → ∃ k t, Host.Core.run core k s = .next t ∧ t.engine.isBusy = false

/-- 20_memory.md R77, R88: a step of a busy command's agents changes no byte outside the command's output region. That this
holds for a run with a broken host duty too is the model's choice (log entry 7). -/
def Obligations.AgentsWriteOnlyTheOutput : Prop :=
  ∀ (s t : State) (run : Run) (x : Nat),
    s.Inv → s.engine = .busy run → s.agentMoves → step s = .next t → run.op.inOutput x = false →
      Memory.read t.mem x = Memory.read s.mem x

/-! ### The engine state machine, reset and invariants -/

/-- 60_exceptions.md R242: the only exit from `ABORT` is reset. -/
def Obligations.OnlyResetLeavesAbort : Prop :=
  ∀ (s t : State) (c : AbortCode), s.engine = .abort c → step s = .next t →
    t.engine = .abort c ∨ (t.engine = .idle ∧ ∃ rest, s.host = .reset :: rest)

/-- 10_state.md R50: the transitions of the engine state. Between commands it changes only by an accepted `CMD` write or
reset; from `BUSY` it goes to `BUSY`, `DONE`, `ABORT` or, by reset, `IDLE`. -/
def Obligations.EngineTransitions : Prop :=
  ∀ s t : State, step s = .next t →
    (s.engine.locked = false →
      t.engine = s.engine ∨ (∃ w rest, s.host = .write 1 w :: rest ∧ t.engine ≠ .idle) ∨
        (∃ rest, s.host = .reset :: rest ∧ t.engine = .idle)) ∧
    (s.engine.isBusy = true →
      t.engine.isBusy = true ∨ t.engine = .done ∨ (∃ c, t.engine = .abort c) ∨
        (t.engine = .idle ∧ ∃ rest, s.host = .reset :: rest))

/-- 60_exceptions.md R240: `AbortDispatch` is dead. -/
def Obligations.AbortDispatchIsDead : Prop :=
  ∀ s t : State, s.engine ≠ .abort .dispatch → step s = .next t → t.engine ≠ .abort .dispatch

/-- 70_reset_and_hazards.md R260: after reset every register but `CAP` reads 0, `CAP` reports the parameters, no command is in
progress. That reset is one action of the host's list is the model's form (log entry 15): the action brings the engine
there from every state, and leaves memory as it was where no command was running (where one was, ResetStopsACommand). -/
def Obligations.ResetState : Prop :=
  (∀ (p : Params) (reg : Reg), reg ≠ .cap → (State.resetOf p).readReg reg = 0#64) ∧
  (∀ p : Params, (State.resetOf p).engine = .idle ∧
    ((State.resetOf p).readReg .cap).toNat = p.vecCap.toNat + p.packPresent.toNat * 2 + 1 * 2 ^ 8) ∧
  (∀ (s : State) (rest : List HostAction), s.engine.isBusy = false → s.host = .reset :: rest →
    step s = .next { State.resetOf s.par with
      mem := s.mem, host := rest, reads := s.reads, turns := s.turns, cuts := s.cuts, fresh := s.fresh }) ∧
  (∀ (s : State) (rest : List HostAction) (ts : List Turn), s.engine.isBusy = true → s.turns = .host :: ts →
    s.host = .reset :: rest →
      ∃ t, step s = .next t ∧ t = { State.resetOf s.par with
        mem := t.mem, host := rest, reads := s.reads, turns := ts, cuts := s.cuts, fresh := t.fresh })

/-- 70_reset_and_hazards.md R261 with 60_exceptions.md R243: a reset pulse while `BUSY` stops the command; the registers are
as after reset, every byte outside the command's output region is as before, and, where no host duty was broken, every
byte inside it is the one from before the command or the one the completed command would have written there (a free
choice, log entry 6). That the other clauses hold for a run with a broken host duty too is the model's choice (log
entry 7). -/
def Obligations.ResetStopsACommand : Prop :=
  ∀ (s : State) (run : Run) (rest : List HostAction) (ts : List Turn),
    s.Inv → s.engine = .busy run → s.turns = .host :: ts → s.host = .reset :: rest →
      ∃ t, step s = .next t ∧
        t = { State.resetOf s.par with
          mem := t.mem, host := rest, reads := s.reads, turns := ts, cuts := s.cuts, fresh := t.fresh } ∧
        (∀ x : Nat, run.op.inOutput x = false → Memory.read t.mem x = Memory.read s.mem x) ∧
        (run.tainted = false → ∀ x : Nat, run.op.inOutput x = true →
          Memory.read t.mem x = Memory.read run.mem0 x ∨ run.op.wouldStore run.mem0 x (Memory.read t.mem x))

/-- 70_reset_and_hazards.md R262: commands issued straight after reset fail safely. -/
def Obligations.CommandsAfterResetFailSafely : Prop :=
  ∀ p : Params,
    exec .extract (State.resetOf p) =
      .next { State.resetOf p with lastop := 0x01#8, engine := .error .configuration } ∧
    exec .dot (State.resetOf p) =
      .next { State.resetOf p with lastop := 0x02#8, engine := .error .configuration } ∧
    exec .matmul (State.resetOf p) =
      .next { State.resetOf p with lastop := 0x03#8, engine := .error .typeMismatch } ∧
    (p.packPresent = true → exec .pack (State.resetOf p) =
      .next { State.resetOf p with lastop := 0x04#8, engine := .error .typeMismatch })

/-- No step stops: every 64-bit command value, every register number and every action has an effect the spec gives. -/
def Obligations.EveryStepHasANextState : Prop :=
  ∀ s : State, ∃ t, step s = .next t

/-- The invariant of Safety.lean holds after reset. -/
def Obligations.ResetMeetsTheInvariant : Prop := State.reset.Inv ∧ ∀ p : Params, (State.resetOf p).Inv

/-- Every step keeps the invariant: memory in canonical form; a busy run's workers at positions of 10_state.md R52 in ranges
that cover the rows once (R41), `LASTOP` its opcode and `OUT_*` 0 (R30); `AbortDispatch` never (60_exceptions.md R240). -/
def Obligations.StepKeepsTheInvariant : Prop :=
  ∀ s t : State, s.Inv → step s = .next t → t.Inv
end

