-- ==== Sys2Proof/Laws/Memory.lean ====
section
/-! SUPPORT. Memory: the canonical form is kept by every operation, a read after a write, and canonical memories with
equal reads are equal (20_memory.md R70, R73). -/

namespace Sys2Proof.Machine

/-- Every listed address is above `k`. -/
def Memory.above (k : Nat) (m : Memory) : Bool := m.all fun c => decide (k < c.1)

@[simp] theorem Memory.read_nil (a : Nat) : Memory.read [] a = unlistedByte := rfl

@[simp] theorem Memory.read_cons (k : Nat) (b : Byte) (m : Memory) (a : Nat) :
    Memory.read ((k, b) :: m) a = if k = a then b else Memory.read m a := rfl

theorem Memory.wf_cons {k : Nat} {b : Byte} {m : Memory} :
    Memory.wf ((k, b) :: m) = true ↔ b ≠ unlistedByte ∧ Memory.above k m = true ∧ Memory.wf m = true := by
  simp [Memory.wf, Memory.above, and_assoc]

/-- An address not above the listed ones is not listed. -/
theorem Memory.read_above {m : Memory} {k a : Nat} (h : Memory.above k m = true) (ha : a ≤ k) :
    Memory.read m a = unlistedByte := by
  induction m with
  | nil => rfl
  | cons c m ih =>
    simp only [Memory.above, List.all_cons, Bool.and_eq_true, decide_eq_true_eq] at h
    rw [Memory.read_cons, if_neg (by omega), ih (by simpa [Memory.above] using h.2)]

theorem Memory.above_mono {m : Memory} {j k : Nat} (h : Memory.above k m = true) (hj : j ≤ k) :
    Memory.above j m = true := by
  simp only [Memory.above, List.all_eq_true, decide_eq_true_eq] at *
  exact fun c hc => Nat.lt_of_le_of_lt hj (h c hc)

theorem Memory.above_write {m : Memory} {k a : Nat} {b : Byte} (h : Memory.above k m = true) (ha : k < a) :
    Memory.above k (Memory.write m a b) = true := by
  induction m with
  | nil => simp only [Memory.write]; split <;> simp [Memory.above, ha]
  | cons c m ih =>
    simp only [Memory.above, List.all_cons, Bool.and_eq_true, decide_eq_true_eq] at h ih ⊢
    simp only [Memory.write]
    split
    · split <;> simp [h, ha]
    · split
      · split <;> simp [h, ha]
      · simp [h.1, ih h.2]

/-- A write keeps the canonical form. -/
theorem Memory.wf_write {m : Memory} (a : Nat) (b : Byte) (h : Memory.wf m = true) :
    Memory.wf (Memory.write m a b) = true := by
  induction m with
  | nil =>
    simp only [Memory.write]
    split
    · rfl
    · rename_i hb; exact Memory.wf_cons.2 ⟨hb, rfl, rfl⟩
  | cons c m ih =>
    obtain ⟨k, v⟩ := c
    have hc := Memory.wf_cons.1 h
    simp only [Memory.write]
    split
    · rename_i hak
      split
      · exact h
      · rename_i hb
        refine Memory.wf_cons.2 ⟨hb, ?_, h⟩
        have := Memory.above_mono hc.2.1 (Nat.le_of_lt hak)
        simpa [Memory.above, hak] using this
    · rename_i hak
      split
      · rename_i he
        split
        · exact hc.2.2
        · rename_i hb; exact Memory.wf_cons.2 ⟨hb, he ▸ hc.2.1, hc.2.2⟩
      · rename_i he
        exact Memory.wf_cons.2 ⟨hc.1, Memory.above_write hc.2.1 (by omega), ih hc.2.2⟩

/-- A read of the address written gives the byte written. -/
theorem Memory.read_write_same {m : Memory} (a : Nat) (b : Byte) (h : Memory.wf m = true) :
    Memory.read (Memory.write m a b) a = b := by
  induction m with
  | nil => simp only [Memory.write]; split <;> simp_all
  | cons c m ih =>
    obtain ⟨k, v⟩ := c
    have hc := Memory.wf_cons.1 h
    simp only [Memory.write]
    split
    · rename_i hak
      split
      · rename_i hb
        rw [Memory.read_cons, if_neg (by omega), Memory.read_above hc.2.1 (Nat.le_of_lt hak), hb]
      · simp
    · split
      · rename_i he
        split
        · rename_i hb; rw [Memory.read_above hc.2.1 (by omega), hb]
        · simp
      · rw [Memory.read_cons, if_neg (by omega), ih hc.2.2]

/-- A read of another address is unchanged by a write. -/
theorem Memory.read_write_other {m : Memory} {a x : Nat} (b : Byte) (hx : x ≠ a) :
    Memory.read (Memory.write m a b) x = Memory.read m x := by
  induction m with
  | nil => simp only [Memory.write]; split <;> simp [Ne.symm hx]
  | cons c m ih =>
    obtain ⟨k, v⟩ := c
    simp only [Memory.write]
    split
    · split <;> simp [Ne.symm hx]
    · split
      · rename_i he
        split <;> simp [he ▸ Ne.symm hx, Ne.symm hx]
      · simp [ih]

/-- A read after a write, in a canonical memory. -/
theorem Memory.read_write {m : Memory} (a : Nat) (b : Byte) (x : Nat) (h : Memory.wf m = true) :
    Memory.read (Memory.write m a b) x = if x = a then b else Memory.read m x := by
  split
  · rename_i hx; rw [hx, Memory.read_write_same a b h]
  · rename_i hx; exact Memory.read_write_other b hx

@[simp] theorem Memory.writeAll_nil (m : Memory) : Memory.writeAll m [] = m := rfl

@[simp] theorem Memory.writeAll_cons (m : Memory) (c : Host.Cell) (cs : List Host.Cell) :
    Memory.writeAll m (c :: cs) = Memory.writeAll (Memory.write m c.1 c.2) cs := rfl

theorem Memory.writeAll_append (m : Memory) (cs ds : List Host.Cell) :
    Memory.writeAll m (cs ++ ds) = Memory.writeAll (Memory.writeAll m cs) ds := by
  simp [Memory.writeAll, List.foldl_append]

/-- Several writes keep the canonical form. -/
theorem Memory.wf_writeAll {m : Memory} (cs : List Host.Cell) (h : Memory.wf m = true) :
    Memory.wf (Memory.writeAll m cs) = true := by
  induction cs generalizing m with
  | nil => exact h
  | cons c cs ih => exact ih (Memory.wf_write c.1 c.2 h)

/-- Several writes leave every address they do not name as it was. -/
theorem Memory.read_writeAll_other {m : Memory} {cs : List Host.Cell} {x : Nat} (h : ∀ c ∈ cs, c.1 ≠ x) :
    Memory.read (Memory.writeAll m cs) x = Memory.read m x := by
  induction cs generalizing m with
  | nil => rfl
  | cons c cs ih =>
    rw [Memory.writeAll_cons, ih fun d hd => h d (List.mem_cons_of_mem _ hd),
      Memory.read_write_other _ (Ne.symm (h c List.mem_cons_self))]

/-- Of several writes, an address that one of them names, and no later one, reads as that byte. -/
theorem Memory.read_writeAll_last {m : Memory} {cs ds : List Host.Cell} {a : Nat} {b : Byte} (hm : Memory.wf m = true)
    (h : ∀ c ∈ ds, c.1 ≠ a) : Memory.read (Memory.writeAll m (cs ++ (a, b) :: ds)) a = b := by
  rw [Memory.writeAll_append, Memory.writeAll_cons, Memory.read_writeAll_other h,
    Memory.read_write_same a b (Memory.wf_writeAll cs hm)]

/-- After several writes an address reads as before or as one of the bytes written to it. -/
theorem Memory.read_writeAll_cases {m : Memory} (cs : List Host.Cell) (x : Nat) (hm : Memory.wf m = true) :
    Memory.read (Memory.writeAll m cs) x = Memory.read m x ∨ (x, Memory.read (Memory.writeAll m cs) x) ∈ cs := by
  induction cs generalizing m with
  | nil => exact .inl rfl
  | cons c cs ih =>
    rw [Memory.writeAll_cons]
    rcases ih (Memory.wf_write c.1 c.2 hm) with h | h
    · rw [h, Memory.read_write _ _ _ hm]
      split
      · rename_i hx; exact .inr (by simp [hx])
      · exact .inl rfl
    · exact .inr (List.mem_cons_of_mem _ h)

/-- After several writes an address that one of them names reads as one of the bytes written to it. -/
theorem Memory.read_writeAll_mem {m : Memory} {cs : List Host.Cell} (hm : Memory.wf m = true) {c : Host.Cell}
    (h : c ∈ cs) : (c.1, Memory.read (Memory.writeAll m cs) c.1) ∈ cs := by
  induction cs generalizing m with
  | nil => cases h
  | cons d cs ih =>
    rw [Memory.writeAll_cons]
    by_cases hc : c ∈ cs
    · exact List.mem_cons_of_mem _ (ih (Memory.wf_write d.1 d.2 hm) hc)
    · have hd : c = d := (List.mem_cons.1 h).resolve_right hc
      subst hd
      rcases Memory.read_writeAll_cases cs c.1 (Memory.wf_write c.1 c.2 hm) with hr | hr
      · rw [hr, Memory.read_write_same _ _ hm]; exact List.mem_cons_self
      · exact List.mem_cons_of_mem _ hr

/-- Canonical memories with equal reads are equal data. -/
theorem Memory.ext_read {m n : Memory} (hm : Memory.wf m = true) (hn : Memory.wf n = true)
    (h : ∀ a, Memory.read m a = Memory.read n a) : m = n := by
  induction m generalizing n with
  | nil =>
    cases n with
    | nil => rfl
    | cons d n =>
      obtain ⟨j, w⟩ := d
      have hd := Memory.wf_cons.1 hn
      exact absurd (by simpa using (h j).symm) hd.1
  | cons c m ih =>
    obtain ⟨k, v⟩ := c
    have hc := Memory.wf_cons.1 hm
    cases n with
    | nil => exact absurd (by simpa using h k) hc.1
    | cons d n =>
      obtain ⟨j, w⟩ := d
      have hd := Memory.wf_cons.1 hn
      have hkj : k = j := by
        rcases Nat.lt_trichotomy k j with hlt | he | hgt
        · have := h k
          rw [Memory.read_cons, if_pos rfl, Memory.read_cons, if_neg (by omega),
            Memory.read_above hd.2.1 (Nat.le_of_lt hlt)] at this
          exact absurd this hc.1
        · exact he
        · have := h j
          rw [Memory.read_cons, if_neg (by omega), Memory.read_cons, if_pos rfl,
            Memory.read_above hc.2.1 (Nat.le_of_lt hgt)] at this
          exact absurd this.symm hd.1
      subst hkj
      have hvw : v = w := by simpa using h k
      subst hvw
      rw [ih hc.2.2 hd.2.2 fun a => ?_]
      by_cases ha : a ≤ k
      · rw [Memory.read_above hc.2.1 ha, Memory.read_above hd.2.1 ha]
      · simpa [show k ≠ a by omega] using h a

/-- Two writes at different addresses commute. -/
theorem Memory.write_comm {m : Memory} {a x : Nat} (b c : Byte) (hm : Memory.wf m = true) (h : a ≠ x) :
    Memory.write (Memory.write m a b) x c = Memory.write (Memory.write m x c) a b := by
  refine Memory.ext_read (Memory.wf_write _ _ (Memory.wf_write _ _ hm)) (Memory.wf_write _ _ (Memory.wf_write _ _ hm))
    fun y => ?_
  rw [Memory.read_write _ _ _ (Memory.wf_write _ _ hm), Memory.read_write _ _ _ hm,
    Memory.read_write _ _ _ (Memory.wf_write _ _ hm), Memory.read_write _ _ _ hm]
  by_cases h1 : y = a <;> by_cases h2 : y = x <;> simp_all

/-- Bytes assembled from two memories that agree on them are equal. -/
theorem bytesAt_congr {m n : Memory} {a k : Nat} (h : ∀ b < k, Memory.read m (a + b) = Memory.read n (a + b)) :
    bytesAt m a k = bytesAt n a k := by
  induction k with
  | zero => rfl
  | succ k ih => simp only [bytesAt, ih fun b hb => h b (by omega), h k (Nat.lt_succ_self k)]

theorem bytesAt_lt (m : Memory) (a n : Nat) : bytesAt m a n < 2 ^ (8 * n) := by
  induction n with
  | zero => simp [bytesAt]
  | succ n ih =>
    have hb : (Memory.read m (a + n)).toNat ≤ 255 := by
      have := (Memory.read m (a + n)).isLt; omega
    have : (Memory.read m (a + n)).toNat * 2 ^ (8 * n) ≤ 255 * 2 ^ (8 * n) := Nat.mul_le_mul_right _ hb
    have hp : 2 ^ (8 * (n + 1)) = 2 ^ (8 * n) * 256 := by rw [Nat.mul_add, Nat.pow_add]
    simp only [bytesAt]; omega

/-- An admitted access lies in the address space, and an element of it. -/
theorem admitted_bounds {p : Params} {x : Int} {n : Nat} (h : admitted p x n = true) :
    0 ≤ x ∧ x + n ≤ Config.addressSpace ∧ x % n = 0 ∧ ∀ b < n, mapped p (x + b) = true := by
  simp only [admitted, Bool.and_eq_true, decide_eq_true_eq, List.all_eq_true, List.mem_range] at h
  exact ⟨h.1.1.1, h.1.1.2, h.1.2, h.2⟩

theorem memRead_ok {p : Params} {m : Memory} {x : Int} {n : Nat} (h : admitted p x n = true) :
    memRead p m x n = .ok (bytesAt m x.toNat n) := if_pos h

theorem memRead_error {p : Params} {m : Memory} {x : Int} {n : Nat} (h : admitted p x n = false) :
    memRead p m x n = .error .memory := by simp [memRead, h]

/-- `MemRead_u8` answers the byte at the address where the access is admitted. -/
theorem memReadU8_ok {p : Params} {m : Memory} {x : Int} (h : admitted p x 1 = true) :
    memReadU8 p m x = .ok (Memory.read m x.toNat) := by
  have : BitVec.ofNat 8 (bytesAt m x.toNat 1) = Memory.read m x.toNat := by
    simp [bytesAt]
  simp [memReadU8, memRead_ok h, Except.map, this]

theorem memReadU8_error {p : Params} {m : Memory} {x : Int} (h : admitted p x 1 = false) :
    memReadU8 p m x = .error .memory := by simp [memReadU8, memRead_error h, Except.map]

/-- `MemRead_f32` answers the four bytes at the address, little-endian, where the access is admitted. -/
theorem memReadF32_ok {p : Params} {m : Memory} {x : Int} (h : admitted p x 4 = true) :
    memReadF32 p m x = .ok (BitVec.ofNat 32 (bytesAt m x.toNat 4)) := by
  simp [memReadF32, memRead_ok h, Except.map]

theorem memReadF32_error {p : Params} {m : Memory} {x : Int} (h : admitted p x 4 = false) :
    memReadF32 p m x = .error .memory := by simp [memReadF32, memRead_error h, Except.map]

/-- The cells a write of `n` bytes stores. -/
def storedCells (a n v : Nat) : List Host.Cell :=
  (List.range n).map fun b => (a + b, BitVec.ofNat 8 (v / 2 ^ (8 * b)))

theorem memWrite_ok {p : Params} {x : Int} {n v : Nat} (h : admitted p x n = true) :
    memWrite p x n v = .ok (storedCells x.toNat n v) := if_pos h

theorem memWrite_error {p : Params} {x : Int} {n v : Nat} (h : admitted p x n = false) :
    memWrite p x n v = .error .memory := by simp [memWrite, h]

/-- Every abort of a memory access is `AbortMemory`. -/
theorem memWrite_error_memory {p : Params} {x : Int} {n v : Nat} {c : AbortCode} (h : memWrite p x n v = .error c) :
    c = .memory := by
  unfold memWrite at h; split at h <;> simp_all

/-- The addresses a write of `n` bytes stores to are `a` to `a + n - 1`. -/
theorem storedCells_addr {a n v : Nat} {c : Host.Cell} (h : c ∈ storedCells a n v) : a ≤ c.1 ∧ c.1 < a + n := by
  simp only [storedCells, List.mem_map, List.mem_range] at h
  obtain ⟨b, hb, rfl⟩ := h
  exact ⟨Nat.le_add_right _ _, by simp; omega⟩

end Sys2Proof.Machine
end

