-- ==== Sys2Proof/Laws/DotProduct.lean ====
section
/-! SUPPORT. What the dot-product engine answers: the value of Safety.lean where every read is admitted, `AbortMemory`
otherwise, for both strategies (42_dot_product.md R164, R169). -/

namespace Sys2Proof.Machine

/-! ### Loops that may abort -/

@[simp] theorem except_ok_bind {α β ε : Type} (a : α) (f : α → Except ε β) : (Except.ok a >>= f) = f a := rfl

@[simp] theorem except_error_bind {α β ε : Type} (e : ε) (f : α → Except ε β) :
    ((Except.error e : Except ε α) >>= f) = .error e := rfl

/-- A condition in two parts on every member of a list. -/
theorem all_and {α : Type} (P Q : α → Bool) (l : List α) : (l.all fun a => P a && Q a) = (l.all P && l.all Q) := by
  induction l with
  | nil => rfl
  | cons a l ih =>
    simp only [List.all_cons, ih]
    cases P a <;> cases Q a <;> cases l.all P <;> simp

/-- A loop whose steps abort exactly where `P` fails. -/
theorem foldlM_guarded {α β ε : Type} {e : ε} {f : β → α → Except ε β} {g : β → α → β} {P : α → Bool} {l : List α}
    (h : ∀ b, ∀ a ∈ l, f b a = if P a then .ok (g b a) else .error e) (b : β) :
    l.foldlM f b = if l.all P then .ok (l.foldl g b) else .error e := by
  induction l generalizing b with
  | nil => rfl
  | cons a l ih =>
    rw [List.foldlM_cons, h b a List.mem_cons_self, List.all_cons, List.foldl_cons]
    cases hp : P a
    · rfl
    · simpa using ih (fun b a ha => h b a (List.mem_cons_of_mem _ ha)) (g b a)

/-- A list of computations that abort exactly where `P` fails. -/
theorem mapM_guarded {α β ε : Type} {e : ε} {f : α → Except ε β} {g : α → β} {P : α → Bool} {l : List α}
    (h : ∀ a ∈ l, f a = if P a then .ok (g a) else .error e) :
    l.mapM f = if l.all P then .ok (l.map g) else .error e := by
  induction l with
  | nil => rfl
  | cons a l ih =>
    rw [List.mapM_cons, h a List.mem_cons_self, List.all_cons, List.map_cons,
      ih fun a ha => h a (List.mem_cons_of_mem _ ha)]
    cases hp : P a
    · rfl
    · cases l.all P <;> rfl

/-- A loop over `n` groups of `k` is one loop over `n * k`. -/
theorem foldl_range_mul {β : Type} (f : β → Nat → β) (n k : Nat) (b : β) :
    (List.range n).foldl (fun b t => (List.range k).foldl (fun b s => f b (t * k + s)) b) b =
      (List.range (n * k)).foldl f b := by
  induction n with
  | zero => simp
  | succ n ih =>
    rw [List.range_succ, List.foldl_append, ih, Nat.succ_mul, List.range_add, List.foldl_append]
    simp [List.foldl_map]

/-- A condition on `n` groups of `k` is a condition on `n * k`. -/
theorem all_range_mul (P : Nat → Bool) (n k : Nat) :
    ((List.range n).all fun t => (List.range k).all fun s => P (t * k + s)) = (List.range (n * k)).all P := by
  induction n with
  | zero => simp
  | succ n ih =>
    rw [List.range_succ, List.all_append, ih, Nat.succ_mul, List.range_add, List.all_append]
    simp [List.all_map, Function.comp_def]

theorem foldl_congr_mem {α β : Type} {f g : β → α → β} {l : List α} (h : ∀ b, ∀ a ∈ l, f b a = g b a) (b : β) :
    l.foldl f b = l.foldl g b := by
  induction l generalizing b with
  | nil => rfl
  | cons a l ih =>
    rw [List.foldl_cons, List.foldl_cons, h b a List.mem_cons_self,
      ih fun b a ha => h b a (List.mem_cons_of_mem _ ha)]

/-! ### The extractor -/

/-- The extractor in the form `floor(byte / 2^(sub * bits)) mod 2^bits` (40_bit_extractor.md R130). -/
theorem extractCode_eq (byte : Byte) (sub bits : Nat) :
    extractCode byte sub bits = byte.toNat / 2 ^ (sub * bits) % 2 ^ bits := by
  rw [extractCode, Nat.shiftRight_eq_div_pow, Nat.one_shiftLeft, Nat.and_two_pow_sub_one_eq_mod]

/-- "For bits=8 this is the identity" (40_bit_extractor.md R131). -/
theorem extractCode_identity (byte : Byte) : extractCode byte 0 8 = byte.toNat := by
  have := byte.isLt
  rw [extractCode_eq]; omega

theorem Strategy.per_pos (st : Strategy) : 0 < st.per := by cases st <;> decide

/-! ### The strategies -/

theorem codeAt_v8 {m : Memory} {d : DotArgs} (h : d.strategy = .v8) (l : Nat) :
    codeAt m d l = (Memory.read m (d.codeAddr l).toNat).toNat := by
  simp [codeAt, h, Strategy.per, Strategy.bits, subsPerByte, Nat.mod_one, extractCode_identity]

/-- One element: the code's byte and the dense value must both be admitted. -/
def DotArgs.elementOk (p : Params) (d : DotArgs) (l : Nat) : Bool :=
  admitted p (d.codeAddr (l / d.strategy.per)) 1 && admitted p (d.denseAddr l) 4

theorem elementMac_eq (p : Params) (m : Memory) (d : DotArgs) (acc : F32) (l : Nat) :
    elementMac p m d acc l = if d.elementOk p l then .ok (fadd acc (productAt m d l)) else .error .memory := by
  rw [elementMac, readCode]
  cases h1 : admitted p (d.codeAddr (l / d.strategy.per)) 1
  · rw [memReadU8_error h1, show d.elementOk p l = false by simp [DotArgs.elementOk, h1]]; rfl
  · rw [memReadU8_ok h1]
    cases h2 : admitted p (d.denseAddr l) 4
    · rw [memReadF32_error h2, show d.elementOk p l = false by simp [DotArgs.elementOk, h2]]; rfl
    · rw [memReadF32_ok h2, show d.elementOk p l = true by simp [DotArgs.elementOk, h1, h2]]; rfl

theorem laneProduct_eq {p : Params} {m : Memory} {d : DotArgs} (h : d.strategy = .v8) (e : Nat) :
    laneProduct p m d e = if d.elementOk p e then .ok (productAt m d e) else .error .memory := by
  have he : e / d.strategy.per = e := by simp [h, Strategy.per, Strategy.bits, subsPerByte]
  rw [laneProduct, productAt, codeAt_v8 h]
  cases h1 : admitted p (d.codeAddr e) 1
  · rw [memReadU8_error h1, show d.elementOk p e = false by simp [DotArgs.elementOk, he, h1]]; rfl
  · rw [memReadU8_ok h1]
    cases h2 : admitted p (d.denseAddr e) 4
    · rw [memReadF32_error h2, show d.elementOk p e = false by simp [DotArgs.elementOk, h2]]; rfl
    · rw [memReadF32_ok h2, show d.elementOk p e = true by simp [DotArgs.elementOk, he, h1, h2]]; rfl

theorem subValues_eq (p : Params) (m : Memory) (d : DotArgs) (t : Nat) (acc : F32) :
    subValues p m d (Memory.read m (d.codeAddr t).toNat) t acc =
      if (List.range d.strategy.per).all fun s => admitted p (d.denseAddr (t * d.strategy.per + s)) 4 then
        .ok ((List.range d.strategy.per).foldl (fun acc s => fadd acc (productAt m d (t * d.strategy.per + s))) acc)
      else .error .memory := by
  refine foldlM_guarded (P := fun s => admitted p (d.denseAddr (t * d.strategy.per + s)) 4) (fun b s hs => ?_) acc
  have hs := List.mem_range.1 hs
  cases h2 : admitted p (d.denseAddr (t * d.strategy.per + s)) 4
  · rw [memReadF32_error h2]; rfl
  · have h3 : (t * d.strategy.per + s) / d.strategy.per = t := by
      rw [Nat.mul_comm, Nat.mul_add_div d.strategy.per_pos, Nat.div_eq_of_lt hs, Nat.add_zero]
    have h4 : (t * d.strategy.per + s) % d.strategy.per = s := by
      rw [Nat.mul_comm, Nat.mul_add_mod, Nat.mod_eq_of_lt hs]
    rw [memReadF32_ok h2]
    simp only [productAt, codeAt, h3, h4, denseAt]
    rfl

theorem dotS_eq {p : Params} {m : Memory} {d : DotArgs} :
    dotS p m d =
      if d.readable p then .ok (fmul (ascendingSum m d accClr 0 d.logical) d.scale) else .error .memory := by
  have hloop := foldlM_guarded (e := AbortCode.memory) (l := List.range d.length)
    (f := fun acc t => do
      let byte ← memReadU8 p m (d.codeAddr t)
      subValues p m d byte t acc)
    (g := fun acc t =>
      (List.range d.strategy.per).foldl (fun acc s => fadd acc (productAt m d (t * d.strategy.per + s))) acc)
    (P := fun t => admitted p (d.codeAddr t) 1 &&
      (List.range d.strategy.per).all fun s => admitted p (d.denseAddr (t * d.strategy.per + s)) 4)
    (fun acc t _ => by
      cases h1 : admitted p (d.codeAddr t) 1
      · rw [memReadU8_error h1]; rfl
      · rw [memReadU8_ok h1]
        rw [except_ok_bind, Bool.true_and]
        exact subValues_eq p m d t acc) accClr
  have hall : ((List.range d.length).all fun t => admitted p (d.codeAddr t) 1 &&
      (List.range d.strategy.per).all fun s => admitted p (d.denseAddr (t * d.strategy.per + s)) 4) = d.readable p := by
    rw [DotArgs.readable, DotArgs.logical, ← all_range_mul, ← all_and]
  rw [dotS, hloop, hall]
  cases d.readable p
  · rfl
  · simp only [ascendingSum, Nat.zero_add, DotArgs.logical,
      ← foldl_range_mul (fun acc l => fadd acc (productAt m d l))]
    rfl

theorem blockLanes_eq {p : Params} {m : Memory} {d : DotArgs} (h : d.strategy = .v8) (blk : Nat) :
    blockLanes p m d blk =
      if (List.range Config.block).all fun k => d.elementOk p (Config.block * blk + k) then
        .ok ((List.range Config.block).map fun k => productAt m d (Config.block * blk + k))
      else .error .memory :=
  mapM_guarded (P := fun k => d.elementOk p (Config.block * blk + k)) fun k _ =>
    laneProduct_eq h (Config.block * blk + k)

/-- With one sub-value per byte a dot product is readable exactly when every element is. -/
theorem readable_v8 {p : Params} {d : DotArgs} (h : d.strategy = .v8) :
    d.readable p = (List.range d.length).all (d.elementOk p) := by
  have hp : d.strategy.per = 1 := by simp [h, Strategy.per, Strategy.bits, subsPerByte]
  have he : ∀ l, d.elementOk p l = (admitted p (d.codeAddr l) 1 && admitted p (d.denseAddr l) 4) := fun l => by
    rw [DotArgs.elementOk, hp, Nat.div_one]
  rw [DotArgs.readable, DotArgs.logical, hp, Nat.mul_one, ← all_and, funext he]

theorem DotArgs.blocks_le (d : DotArgs) : Config.block * d.blocks ≤ d.length := Nat.mul_div_le _ _

theorem dotV_eq {p : Params} {m : Memory} {d : DotArgs} (h : d.strategy = .v8) :
    dotV p m d = if d.readable p then .ok (dotValue m d) else .error .memory := by
  have hblocks := foldlM_guarded (e := AbortCode.memory) (l := List.range d.blocks)
    (f := fun acc blk => do
      let lanes ← blockLanes p m d blk
      return fadd acc (reduce16 lanes))
    (g := fun acc blk =>
      fadd acc (reduce16 ((List.range Config.block).map fun k => productAt m d (Config.block * blk + k))))
    (P := fun blk => (List.range Config.block).all fun k => d.elementOk p (Config.block * blk + k))
    (fun acc blk _ => by
      rw [blockLanes_eq h]
      cases (List.range Config.block).all fun k => d.elementOk p (Config.block * blk + k) <;> rfl) accClr
  have htail : ∀ acc, (List.range (d.length - Config.block * d.blocks)).foldlM (init := acc) (fun acc k => (do
      let e := Config.block * d.blocks + k
      let code ← memReadU8 p m (d.codeAddr e)
      let bval ← memReadF32 p m (d.denseAddr e)
      return accMac d.zp acc code.toNat bval : Except AbortCode F32)) =
      if (List.range (d.length - Config.block * d.blocks)).all fun k => d.elementOk p (Config.block * d.blocks + k) then
        .ok (ascendingSum m d acc (Config.block * d.blocks) (d.length - Config.block * d.blocks))
      else .error .memory := fun acc =>
    foldlM_guarded (P := fun k => d.elementOk p (Config.block * d.blocks + k)) (fun b k _ => by
      have he : (Config.block * d.blocks + k) / d.strategy.per = Config.block * d.blocks + k := by
        simp [h, Strategy.per, Strategy.bits, subsPerByte]
      show (memReadU8 p m (d.codeAddr _) >>= fun code => memReadF32 p m (d.denseAddr _) >>= fun bval => _) = _
      rw [productAt, codeAt_v8 h]
      cases h1 : admitted p (d.codeAddr (Config.block * d.blocks + k)) 1
      · rw [memReadU8_error h1, show d.elementOk p _ = false by simp [DotArgs.elementOk, he, h1]]; rfl
      · rw [memReadU8_ok h1]
        cases h2 : admitted p (d.denseAddr (Config.block * d.blocks + k)) 4
        · rw [memReadF32_error h2, show d.elementOk p _ = false by simp [DotArgs.elementOk, h2]]; rfl
        · rw [memReadF32_ok h2, show d.elementOk p _ = true by simp [DotArgs.elementOk, he, h1, h2]]; rfl) acc
  have hsplit : d.readable p =
      (((List.range d.blocks).all fun blk => (List.range Config.block).all fun k =>
          d.elementOk p (Config.block * blk + k)) &&
        (List.range (d.length - Config.block * d.blocks)).all fun k => d.elementOk p (Config.block * d.blocks + k)) := by
    have hmul := all_range_mul (d.elementOk p) d.blocks Config.block
    simp only [Nat.mul_comm _ Config.block] at hmul
    rw [readable_v8 h, hmul, ← Nat.add_sub_cancel' d.blocks_le, List.range_add, List.all_append]
    simp [List.all_map, Function.comp_def]
  rw [dotV, hblocks, hsplit]
  cases (List.range d.blocks).all fun blk => (List.range Config.block).all fun k => d.elementOk p (Config.block * blk + k)
  · rfl
  · simp only [if_true, Bool.true_and]
    rw [except_ok_bind, htail]
    cases (List.range (d.length - Config.block * d.blocks)).all fun k => d.elementOk p (Config.block * d.blocks + k)
    · rfl
    · simp only [if_true, dotValue, dotSum, h]
      rfl

/-- What `dot` answers (42_dot_product.md R160 to R172). -/
theorem dot_eq (p : Params) (m : Memory) (d : DotArgs) :
    dot p m d = if d.readable p then .ok (dotValue m d) else .error .memory := by
  unfold dot
  cases h : d.strategy
  · rw [dotS_eq]; simp only [dotValue, dotSum, h]
  · rw [dotS_eq]; simp only [dotValue, dotSum, h]
  · exact dotV_eq h

/-! ### What a product reads -/

/-- The bytes element `l` is read from. -/
def DotArgs.reads (d : DotArgs) (l : Nat) (x : Int) : Prop :=
  x = d.codeAddr (l / d.strategy.per) ∨ ∃ b < 4, x = d.denseAddr l + (b : Nat)

/-- Two memories that agree on an element's bytes give it one product (42_dot_product.md R160). -/
theorem productAt_congr {m m' : Memory} {d : DotArgs} {l : Nat} (h0 : 0 ≤ d.denseAddr l)
    (h : ∀ x, d.reads l x → Memory.read m x.toNat = Memory.read m' x.toNat) : productAt m d l = productAt m' d l := by
  have h1 : codeAt m d l = codeAt m' d l := by rw [codeAt, codeAt, h _ (.inl rfl)]
  have h2 : denseAt m d l = denseAt m' d l := by
    refine congrArg _ (bytesAt_congr fun b hb => ?_)
    have := h (d.denseAddr l + (b : Nat)) (.inr ⟨b, hb, rfl⟩)
    rwa [show (d.denseAddr l + (b : Nat)).toNat = (d.denseAddr l).toNat + b by omega] at this
  rw [productAt, productAt, h1, h2]

/-- The sum of a dot product is that of its products (42_dot_product.md R174). -/
theorem dotSum_congr {m m' : Memory} {d : DotArgs} (h : ∀ l < d.logical, productAt m d l = productAt m' d l) :
    dotSum m d = dotSum m' d := by
  have hasc : ∀ acc start count, start + count ≤ d.logical →
      ascendingSum m d acc start count = ascendingSum m' d acc start count := fun acc start count hc =>
    foldl_congr_mem (fun b k hk => by
      have := List.mem_range.1 hk
      rw [h _ (by omega)]) acc
  unfold dotSum
  split
  · exact hasc _ _ _ (by omega)
  · exact hasc _ _ _ (by omega)
  · rename_i hv
    have hlog : d.logical = d.length := by simp [DotArgs.logical, hv, Strategy.per, Strategy.bits, subsPerByte]
    have hb := d.blocks_le
    have hblk : blockSum m d d.blocks = blockSum m' d d.blocks :=
      foldl_congr_mem (fun b k hk => by
        have hk := List.mem_range.1 hk
        congr 2
        refine List.map_congr_left fun q hq => h _ ?_
        have hq := List.mem_range.1 hq
        simp only [Config.block] at *
        omega) accClr
    rw [hblk]
    exact hasc _ _ _ (by omega)

end Sys2Proof.Machine
end

