-- ==== Sys2Proof/Laws/Cells.lean ====
section
/-! SUPPORT. What a command computes, element by element: a cell of MATMUL (43_matmul_driver.md R187) and a byte of PACK
(44_packing_stage.md R206), the whole result of a launch, and where its bytes lie (20_memory.md R81, R83). -/

namespace Sys2Proof.Machine

/-! ### One output element -/

/-- The bytes of output element `e` as a function of the operands and of memory. -/
def elementCells (m : Memory) (op : Launch) (e : Nat × Nat) : List Host.Cell :=
  match op with
  | .dot _ => []
  | .matmul a => storedCells (a.outAddr e.1 e.2).toNat 4 (dotValue m (a.cell e.1 e.2)).toNat
  | .pack a =>
    storedCells (a.outAddr e.1 e.2).toNat 1
      (BitVec.ofNat 8 (composeByte a.bits
        ((List.range (subsPerByte a.bits)).map fun s => packCode m a e.1 (e.2 * subsPerByte a.bits + s)))).toNat

/-- Every access of output element `e` is admitted. -/
def elementAdmitted (p : Params) (op : Launch) (e : Nat × Nat) : Bool :=
  match op with
  | .dot _ => true
  | .matmul a => (a.cell e.1 e.2).readable p && admitted p (a.outAddr e.1 e.2) 4
  | .pack a =>
    (List.range (subsPerByte a.bits)).all
        (fun s => admitted p (a.a.addr 4 e.1 (e.2 * subsPerByte a.bits + s)) 4) &&
      admitted p (a.outAddr e.1 e.2) 1

/-- The output elements of a launch, row-major ascending. -/
def Launch.elements (op : Launch) : List (Nat × Nat) :=
  match op with
  | .dot _ => []
  | .matmul a => (List.range a.n).flatMap fun i => (List.range a.m).map fun j => (i, j)
  | .pack a => (List.range a.n).flatMap fun i => (List.range a.kb).map fun t => (i, t)

theorem cellStore_eq (p : Params) (m : Memory) (a : MatmulArgs) (i j : Nat) :
    cellStore p m a i j =
      if elementAdmitted p (.matmul a) (i, j) then .ok (elementCells m (.matmul a) (i, j)) else .error .memory := by
  rw [cellStore, dot_eq]
  cases h1 : (a.cell i j).readable p
  · rw [show elementAdmitted p (.matmul a) (i, j) = false by simp [elementAdmitted, h1]]; rfl
  · rw [if_pos rfl, except_ok_bind, memWriteF32]
    cases h2 : admitted p (a.outAddr i j) 4
    · rw [memWrite_error h2, show elementAdmitted p (.matmul a) (i, j) = false by simp [elementAdmitted, h2]]; rfl
    · rw [memWrite_ok h2, show elementAdmitted p (.matmul a) (i, j) = true by simp [elementAdmitted, h1, h2]]; rfl

theorem quantizeAt_eq (p : Params) (m : Memory) (a : PackArgs) (i l : Nat) :
    quantizeAt p m a i l = if admitted p (a.a.addr 4 i l) 4 then .ok (packCode m a i l) else .error .memory := by
  cases h : admitted p (a.a.addr 4 i l) 4
  · rw [quantizeAt, memReadF32_error h]; rfl
  · rw [quantizeAt, memReadF32_ok h]; rfl

theorem packStore_eq (p : Params) (m : Memory) (a : PackArgs) (i t : Nat) :
    packStore p m a i t =
      if elementAdmitted p (.pack a) (i, t) then .ok (elementCells m (.pack a) (i, t)) else .error .memory := by
  have hm := mapM_guarded (e := AbortCode.memory) (l := List.range (subsPerByte a.bits))
    (f := fun s => quantizeAt p m a i (t * subsPerByte a.bits + s))
    (P := fun s => admitted p (a.a.addr 4 i (t * subsPerByte a.bits + s)) 4) fun s _ =>
      quantizeAt_eq p m a i (t * subsPerByte a.bits + s)
  rw [packStore, packedByte, hm]
  cases h1 : (List.range (subsPerByte a.bits)).all fun s => admitted p (a.a.addr 4 i (t * subsPerByte a.bits + s)) 4
  · rw [show elementAdmitted p (.pack a) (i, t) = false by rw [elementAdmitted, h1, Bool.false_and]]; rfl
  · rw [if_pos rfl, except_ok_bind]
    show memWriteU8 p (a.outAddr i t) _ = _
    rw [memWriteU8]
    cases h2 : admitted p (a.outAddr i t) 1
    · rw [memWrite_error h2, show elementAdmitted p (.pack a) (i, t) = false by simp [elementAdmitted, h2]]; rfl
    · rw [memWrite_ok h2, show elementAdmitted p (.pack a) (i, t) = true by rw [elementAdmitted, h1, h2]; rfl]; rfl

/-! ### The whole result -/

theorem outputStores_eq (p : Params) (m : Memory) (op : Launch) :
    outputStores p m op = op.elements.map fun e =>
      if elementAdmitted p op e then .ok (elementCells m op e) else .error .memory := by
  cases op with
  | dot d => rfl
  | matmul a => simp only [outputStores, Launch.elements, cellStore_eq, List.map_flatMap, List.map_map]; rfl
  | pack a => simp only [outputStores, Launch.elements, packStore_eq, List.map_flatMap, List.map_map]; rfl

theorem collectStores_guarded {α : Type} (P : α → Bool) (f : α → List Host.Cell) (l : List α) :
    collectStores (l.map fun e => if P e then .ok (f e) else .error .memory) =
      if l.all P then .ok (l.flatMap f) else .error .memory := by
  induction l with
  | nil => rfl
  | cons a l ih =>
    rw [List.map_cons, List.all_cons, List.flatMap_cons]
    cases hp : P a
    · rfl
    · simp only [if_true, collectStores, ih, Bool.true_and]
      cases l.all P <;> rfl

theorem elements_all_admitted (p : Params) (op : Launch) (h : ∀ d, op ≠ .dot d) :
    op.elements.all (elementAdmitted p op) = op.admissible p := by
  cases op with
  | dot d => exact absurd rfl (h d)
  | matmul a =>
    simp only [Launch.elements, Launch.admissible, MatmulArgs.admissible, List.all_flatMap, List.all_map]; rfl
  | pack a => simp only [Launch.elements, Launch.admissible, PackArgs.admissible, List.all_flatMap, List.all_map]; rfl

/-- The value a DOT computes, `+0.0` for a command that stores its result. -/
def launchValue (m : Memory) : Launch → F32
  | .dot d => dotValue m d
  | .matmul _ => plusZero
  | .pack _ => plusZero

/-- The bytes a launch stores. -/
def launchCells (m : Memory) (op : Launch) : List Host.Cell := op.elements.flatMap (elementCells m op)

/-- A launch computes its result where every access is admitted, else it aborts (45_command_protocol.md R223). -/
theorem commandResult_eq (p : Params) (m : Memory) (op : Launch) :
    commandResult p m op = if op.admissible p then .ok (launchValue m op, launchCells m op) else .error .memory := by
  cases op with
  | dot d =>
    rw [commandResult, dot_eq, Launch.admissible]
    cases d.readable p <;> rfl
  | matmul a =>
    simp only [commandResult, outputStores_eq, collectStores_guarded,
      elements_all_admitted p (.matmul a) (fun _ h => nomatch h)]
    cases (Launch.matmul a).admissible p <;> rfl
  | pack a =>
    simp only [commandResult, outputStores_eq, collectStores_guarded,
      elements_all_admitted p (.pack a) (fun _ h => nomatch h)]
    cases (Launch.pack a).admissible p <;> rfl

/-- What an aborted launch would have written: the bytes of its admitted elements (60_exceptions.md R243). -/
theorem wouldWrite_eq (p : Params) (m : Memory) (op : Launch) :
    wouldWrite p m op = op.elements.flatMap fun e => if elementAdmitted p op e then elementCells m op e else [] := by
  simp only [wouldWrite, outputStores_eq, List.flatMap_map]
  congr 1
  funext e
  cases elementAdmitted p op e <;> rfl

/-- A command that passed its checks and has no plan for its busy phase (45_command_protocol.md R223). -/
theorem launch_eq {op : Launch} {s : State} (h : s.turns = []) :
    launch op s =
      if op.admissible s.par then
        retire op (launchValue s.mem op) op.aliased (s.storeCells (launchCells s.mem op))
      else abortRun op s.mem op.aliased .memory s := by
  simp only [launch, h, complete, commandResult_eq]
  cases op.admissible s.par <;> rfl

/-! ### Where the bytes lie -/

theorem mem_elements_matmul {a : MatmulArgs} {i j : Nat} :
    (i, j) ∈ (Launch.matmul a).elements ↔ i < a.n ∧ j < a.m := by
  simp [Launch.elements]

theorem mem_elements_pack {a : PackArgs} {i t : Nat} : (i, t) ∈ (Launch.pack a).elements ↔ i < a.n ∧ t < a.kb := by
  simp [Launch.elements]

/-- A row-major index is below the number of cells. -/
theorem rowMajor_lt {i j n m : Nat} (hi : i < n) (hj : j < m) : i * m + j < n * m :=
  calc i * m + j < i * m + m := Nat.add_lt_add_left hj _
    _ = (i + 1) * m := (Nat.succ_mul i m).symm
    _ ≤ n * m := Nat.mul_le_mul_right _ hi

/-- Row-major indices of distinct cells differ. -/
theorem rowMajor_inj {i j i' j' m : Nat} (hj : j < m) (hj' : j' < m) (h : i * m + j = i' * m + j') :
    i = i' ∧ j = j' := by
  have hm : 0 < m := by omega
  have h1 : (i * m + j) / m = i := by rw [Nat.mul_comm, Nat.mul_add_div hm, Nat.div_eq_of_lt hj, Nat.add_zero]
  have h2 : (i' * m + j') / m = i' := by rw [Nat.mul_comm, Nat.mul_add_div hm, Nat.div_eq_of_lt hj', Nat.add_zero]
  have hi : i = i' := by rw [← h1, ← h2, h]
  subst hi
  exact ⟨rfl, by omega⟩

theorem inOutput_iff {op : Launch} {x : Int} :
    op.inOutput x = true ↔ op.outRegion.1 ≤ x ∧ x < op.outRegion.1 + op.outRegion.2 := by
  rw [Launch.inOutput, Bool.and_eq_true, decide_eq_true_eq, decide_eq_true_eq]

/-- A stored byte of an admitted element lies in the write footprint (20_memory.md R83). -/
theorem elementCells_inOutput {p : Params} {m : Memory} {op : Launch} {e : Nat × Nat} (he : e ∈ op.elements)
    (h : elementAdmitted p op e = true) {c : Host.Cell} (hc : c ∈ elementCells m op e) : op.inOutput c.1 = true := by
  obtain ⟨i, j⟩ := e
  cases op with
  | dot d => simp [elementCells] at hc
  | matmul a =>
    have hij := mem_elements_matmul.1 he
    simp only [elementAdmitted, Bool.and_eq_true] at h
    have hb := admitted_bounds h.2
    have hcb := storedCells_addr hc
    have hlt := rowMajor_lt hij.1 hij.2
    have hx : ((a.outAddr i j).toNat : Int) = a.outAddr i j := Int.toNat_of_nonneg hb.1
    rw [inOutput_iff]
    dsimp only [Launch.outRegion] at *
    have ho : a.outAddr i j = a.out + 4 * ((i * a.m + j : Nat) : Int) := by simp [MatmulArgs.outAddr]
    have hn : ((4 * a.n * a.m : Nat) : Int) = 4 * ((a.n * a.m : Nat) : Int) := by simp [Int.mul_assoc]
    omega
  | pack a =>
    have hij := mem_elements_pack.1 he
    simp only [elementAdmitted, Bool.and_eq_true] at h
    have hb := admitted_bounds h.2
    have hcb := storedCells_addr hc
    have hlt := rowMajor_lt hij.1 hij.2
    have hx : ((a.outAddr i j).toNat : Int) = a.outAddr i j := Int.toNat_of_nonneg hb.1
    rw [inOutput_iff]
    dsimp only [Launch.outRegion] at *
    have ho : a.outAddr i j = a.out + ((i * a.kb + j : Nat) : Int) := by simp [PackArgs.outAddr]
    omega

/-- Bytes of distinct admitted elements have distinct addresses. -/
theorem elementCells_disjoint {p : Params} {m m' : Memory} {op : Launch} {e e' : Nat × Nat} (he : e ∈ op.elements)
    (he' : e' ∈ op.elements) (h : elementAdmitted p op e = true) (h' : elementAdmitted p op e' = true) (hne : e ≠ e')
    {c c' : Host.Cell} (hc : c ∈ elementCells m op e) (hc' : c' ∈ elementCells m' op e') : c.1 ≠ c'.1 := by
  obtain ⟨i, j⟩ := e
  obtain ⟨i', j'⟩ := e'
  cases op with
  | dot d => simp [elementCells] at hc
  | matmul a =>
    have hij := mem_elements_matmul.1 he
    have hij' := mem_elements_matmul.1 he'
    simp only [elementAdmitted, Bool.and_eq_true] at h h'
    have hb := admitted_bounds h.2
    have hb' := admitted_bounds h'.2
    have hcb := storedCells_addr hc
    have hcb' := storedCells_addr hc'
    have hx : ((a.outAddr i j).toNat : Int) = a.outAddr i j := Int.toNat_of_nonneg hb.1
    have hx' : ((a.outAddr i' j').toNat : Int) = a.outAddr i' j' := Int.toNat_of_nonneg hb'.1
    have ho : a.outAddr i j = a.out + 4 * ((i * a.m + j : Nat) : Int) := by simp [MatmulArgs.outAddr]
    have ho' : a.outAddr i' j' = a.out + 4 * ((i' * a.m + j' : Nat) : Int) := by simp [MatmulArgs.outAddr]
    dsimp only at *
    intro heq
    have : i * a.m + j = i' * a.m + j' := by omega
    exact hne (by rw [(rowMajor_inj hij.2 hij'.2 this).1, (rowMajor_inj hij.2 hij'.2 this).2])
  | pack a =>
    have hij := mem_elements_pack.1 he
    have hij' := mem_elements_pack.1 he'
    simp only [elementAdmitted, Bool.and_eq_true] at h h'
    have hb := admitted_bounds h.2
    have hb' := admitted_bounds h'.2
    have hcb := storedCells_addr hc
    have hcb' := storedCells_addr hc'
    have hx : ((a.outAddr i j).toNat : Int) = a.outAddr i j := Int.toNat_of_nonneg hb.1
    have hx' : ((a.outAddr i' j').toNat : Int) = a.outAddr i' j' := Int.toNat_of_nonneg hb'.1
    have ho : a.outAddr i j = a.out + ((i * a.kb + j : Nat) : Int) := by simp [PackArgs.outAddr]
    have ho' : a.outAddr i' j' = a.out + ((i' * a.kb + j' : Nat) : Int) := by simp [PackArgs.outAddr]
    dsimp only at *
    intro heq
    have : i * a.kb + j = i' * a.kb + j' := by omega
    exact hne (by rw [(rowMajor_inj hij.2 hij'.2 this).1, (rowMajor_inj hij.2 hij'.2 this).2])

/-- Bytes that are those of a value assemble to it. -/
theorem bytesAt_of_bytes {m : Memory} {a n v : Nat}
    (h : ∀ b < n, Memory.read m (a + b) = BitVec.ofNat 8 (v / 2 ^ (8 * b))) : bytesAt m a n = v % 2 ^ (8 * n) := by
  induction n with
  | zero => simp [bytesAt, Nat.mod_one]
  | succ n ih =>
    have hp : 2 ^ (8 * (n + 1)) = 2 ^ (8 * n) * 256 := by rw [Nat.mul_add, Nat.pow_add]
    rw [bytesAt, ih fun b hb => h b (by omega), h n (Nat.lt_succ_self n), hp, Nat.mod_mul, BitVec.toNat_ofNat,
      Nat.mul_comm (_ % 256)]

/-- The byte of a stored value at an address. -/
theorem mem_storedCells {a n v : Nat} {c : Host.Cell} :
    c ∈ storedCells a n v ↔ ∃ b < n, c = (a + b, BitVec.ofNat 8 (v / 2 ^ (8 * b))) := by
  simp only [storedCells, List.mem_map, List.mem_range]
  exact ⟨fun ⟨b, hb, h⟩ => ⟨b, hb, h.symm⟩, fun ⟨b, hb, h⟩ => ⟨b, hb, h.symm⟩⟩

/-- One address of a stored value has one byte. -/
theorem storedCells_unique {a n v : Nat} {c d : Host.Cell} (hc : c ∈ storedCells a n v) (hd : d ∈ storedCells a n v)
    (h : c.1 = d.1) : c = d := by
  obtain ⟨b, -, rfl⟩ := mem_storedCells.1 hc
  obtain ⟨b', -, rfl⟩ := mem_storedCells.1 hd
  have : b = b' := by simpa using h
  rw [this]

/-- One address of an output element has one byte. -/
theorem elementCells_unique {m : Memory} {op : Launch} {e : Nat × Nat} {c d : Host.Cell}
    (hc : c ∈ elementCells m op e) (hd : d ∈ elementCells m op e) (h : c.1 = d.1) : c = d := by
  cases op with
  | dot _ => simp [elementCells] at hc
  | matmul a => exact storedCells_unique hc hd h
  | pack a => exact storedCells_unique hc hd h

/-- After the stores of a set of admitted elements a byte of one of them reads as that element gives it. -/
theorem read_elements {p : Params} {m m0 : Memory} {op : Launch} {es : List (Nat × Nat)} (hm : Memory.wf m = true)
    (hes : ∀ e ∈ es, e ∈ op.elements ∧ elementAdmitted p op e = true) {e : Nat × Nat} (he : e ∈ es) {c : Host.Cell}
    (hc : c ∈ elementCells m0 op e) : Memory.read (Memory.writeAll m (es.flatMap (elementCells m0 op))) c.1 = c.2 := by
  have hmem := Memory.read_writeAll_mem (m := m) hm (List.mem_flatMap.2 ⟨e, he, hc⟩)
  obtain ⟨e', he', hc'⟩ := List.mem_flatMap.1 hmem
  have hee : e = e' := by
    refine Decidable.byContradiction fun hne => ?_
    exact elementCells_disjoint (hes e he).1 (hes e' he').1 (hes e he).2 (hes e' he').2 hne hc hc' rfl
  subst hee
  exact (congrArg Prod.snd (elementCells_unique hc hc' rfl)).symm

/-- After a completed launch a byte of an output element reads as that element gives it (43_matmul_driver.md R188). -/
theorem read_launchCells {p : Params} {m : Memory} {op : Launch} (hm : Memory.wf m = true)
    (ha : op.admissible p = true) {e : Nat × Nat} (he : e ∈ op.elements) {c : Host.Cell}
    (hc : c ∈ elementCells m op e) : Memory.read (Memory.writeAll m (launchCells m op)) c.1 = c.2 := by
  refine read_elements (p := p) hm (fun e he => ⟨he, ?_⟩) he hc
  have hd : ∀ d, op ≠ .dot d := by rintro d rfl; simp [Launch.elements] at he
  rw [← elements_all_admitted p op hd, List.all_eq_true] at ha
  exact ha e he

end Sys2Proof.Machine
end

