-- ==== Sys2Proof/Laws/State.lean ====
section
/-! SUPPORT. One lemma per field per update of State, each true by rfl, so that no proof unfolds a record update. -/

namespace Sys2Proof.Machine

/-! ### `State.accept` -/

section
variable (s : State) (opc : Byte)
@[simp] theorem State.accept_par : (State.accept opc s).par = s.par := rfl
@[simp] theorem State.accept_bits : (State.accept opc s).bits = s.bits := rfl
@[simp] theorem State.accept_scale : (State.accept opc s).scale = s.scale := rfl
@[simp] theorem State.accept_zeroPoint : (State.accept opc s).zeroPoint = s.zeroPoint := rfl
@[simp] theorem State.accept_a : (State.accept opc s).a = s.a := rfl
@[simp] theorem State.accept_b : (State.accept opc s).b = s.b := rfl
@[simp] theorem State.accept_outBase : (State.accept opc s).outBase = s.outBase := rfl
@[simp] theorem State.accept_outDtype : (State.accept opc s).outDtype = s.outDtype := rfl
@[simp] theorem State.accept_outSize0 : (State.accept opc s).outSize0 = s.outSize0 := rfl
@[simp] theorem State.accept_outSize1 : (State.accept opc s).outSize1 = s.outSize1 := rfl
@[simp] theorem State.accept_dAptr : (State.accept opc s).dAptr = s.dAptr := rfl
@[simp] theorem State.accept_dBptr : (State.accept opc s).dBptr = s.dBptr := rfl
@[simp] theorem State.accept_dLength : (State.accept opc s).dLength = s.dLength := rfl
@[simp] theorem State.accept_dRowStride : (State.accept opc s).dRowStride = s.dRowStride := rfl
@[simp] theorem State.accept_dColStride : (State.accept opc s).dColStride = s.dColStride := rfl
@[simp] theorem State.accept_dResult : (State.accept opc s).dResult = s.dResult := rfl
@[simp] theorem State.accept_xByte : (State.accept opc s).xByte = s.xByte := rfl
@[simp] theorem State.accept_xSub : (State.accept opc s).xSub = s.xSub := rfl
@[simp] theorem State.accept_xCode : (State.accept opc s).xCode = s.xCode := rfl
@[simp] theorem State.accept_lastop : (State.accept opc s).lastop = opc := rfl
@[simp] theorem State.accept_engine : (State.accept opc s).engine = s.engine := rfl
@[simp] theorem State.accept_mem : (State.accept opc s).mem = s.mem := rfl
@[simp] theorem State.accept_host : (State.accept opc s).host = s.host := rfl
@[simp] theorem State.accept_reads : (State.accept opc s).reads = s.reads := rfl
@[simp] theorem State.accept_turns : (State.accept opc s).turns = s.turns := rfl
@[simp] theorem State.accept_cuts : (State.accept opc s).cuts = s.cuts := rfl
@[simp] theorem State.accept_fresh : (State.accept opc s).fresh = s.fresh := rfl
end

/-! ### `State.setOut` -/

section
variable (s : State) (d : Byte) (m n : Word64)
@[simp] theorem State.setOut_par : (State.setOut d m n s).par = s.par := rfl
@[simp] theorem State.setOut_bits : (State.setOut d m n s).bits = s.bits := rfl
@[simp] theorem State.setOut_scale : (State.setOut d m n s).scale = s.scale := rfl
@[simp] theorem State.setOut_zeroPoint : (State.setOut d m n s).zeroPoint = s.zeroPoint := rfl
@[simp] theorem State.setOut_a : (State.setOut d m n s).a = s.a := rfl
@[simp] theorem State.setOut_b : (State.setOut d m n s).b = s.b := rfl
@[simp] theorem State.setOut_outBase : (State.setOut d m n s).outBase = s.outBase := rfl
@[simp] theorem State.setOut_outDtype : (State.setOut d m n s).outDtype = d := rfl
@[simp] theorem State.setOut_outSize0 : (State.setOut d m n s).outSize0 = m := rfl
@[simp] theorem State.setOut_outSize1 : (State.setOut d m n s).outSize1 = n := rfl
@[simp] theorem State.setOut_dAptr : (State.setOut d m n s).dAptr = s.dAptr := rfl
@[simp] theorem State.setOut_dBptr : (State.setOut d m n s).dBptr = s.dBptr := rfl
@[simp] theorem State.setOut_dLength : (State.setOut d m n s).dLength = s.dLength := rfl
@[simp] theorem State.setOut_dRowStride : (State.setOut d m n s).dRowStride = s.dRowStride := rfl
@[simp] theorem State.setOut_dColStride : (State.setOut d m n s).dColStride = s.dColStride := rfl
@[simp] theorem State.setOut_dResult : (State.setOut d m n s).dResult = s.dResult := rfl
@[simp] theorem State.setOut_xByte : (State.setOut d m n s).xByte = s.xByte := rfl
@[simp] theorem State.setOut_xSub : (State.setOut d m n s).xSub = s.xSub := rfl
@[simp] theorem State.setOut_xCode : (State.setOut d m n s).xCode = s.xCode := rfl
@[simp] theorem State.setOut_lastop : (State.setOut d m n s).lastop = s.lastop := rfl
@[simp] theorem State.setOut_engine : (State.setOut d m n s).engine = s.engine := rfl
@[simp] theorem State.setOut_mem : (State.setOut d m n s).mem = s.mem := rfl
@[simp] theorem State.setOut_host : (State.setOut d m n s).host = s.host := rfl
@[simp] theorem State.setOut_reads : (State.setOut d m n s).reads = s.reads := rfl
@[simp] theorem State.setOut_turns : (State.setOut d m n s).turns = s.turns := rfl
@[simp] theorem State.setOut_cuts : (State.setOut d m n s).cuts = s.cuts := rfl
@[simp] theorem State.setOut_fresh : (State.setOut d m n s).fresh = s.fresh := rfl
end

/-! ### `State.clearOut` -/

section
variable (s : State)
@[simp] theorem State.clearOut_par : (State.clearOut s).par = s.par := rfl
@[simp] theorem State.clearOut_bits : (State.clearOut s).bits = s.bits := rfl
@[simp] theorem State.clearOut_scale : (State.clearOut s).scale = s.scale := rfl
@[simp] theorem State.clearOut_zeroPoint : (State.clearOut s).zeroPoint = s.zeroPoint := rfl
@[simp] theorem State.clearOut_a : (State.clearOut s).a = s.a := rfl
@[simp] theorem State.clearOut_b : (State.clearOut s).b = s.b := rfl
@[simp] theorem State.clearOut_outBase : (State.clearOut s).outBase = s.outBase := rfl
@[simp] theorem State.clearOut_outDtype : (State.clearOut s).outDtype = 0#8 := rfl
@[simp] theorem State.clearOut_outSize0 : (State.clearOut s).outSize0 = 0#64 := rfl
@[simp] theorem State.clearOut_outSize1 : (State.clearOut s).outSize1 = 0#64 := rfl
@[simp] theorem State.clearOut_dAptr : (State.clearOut s).dAptr = s.dAptr := rfl
@[simp] theorem State.clearOut_dBptr : (State.clearOut s).dBptr = s.dBptr := rfl
@[simp] theorem State.clearOut_dLength : (State.clearOut s).dLength = s.dLength := rfl
@[simp] theorem State.clearOut_dRowStride : (State.clearOut s).dRowStride = s.dRowStride := rfl
@[simp] theorem State.clearOut_dColStride : (State.clearOut s).dColStride = s.dColStride := rfl
@[simp] theorem State.clearOut_dResult : (State.clearOut s).dResult = s.dResult := rfl
@[simp] theorem State.clearOut_xByte : (State.clearOut s).xByte = s.xByte := rfl
@[simp] theorem State.clearOut_xSub : (State.clearOut s).xSub = s.xSub := rfl
@[simp] theorem State.clearOut_xCode : (State.clearOut s).xCode = s.xCode := rfl
@[simp] theorem State.clearOut_lastop : (State.clearOut s).lastop = s.lastop := rfl
@[simp] theorem State.clearOut_engine : (State.clearOut s).engine = s.engine := rfl
@[simp] theorem State.clearOut_mem : (State.clearOut s).mem = s.mem := rfl
@[simp] theorem State.clearOut_host : (State.clearOut s).host = s.host := rfl
@[simp] theorem State.clearOut_reads : (State.clearOut s).reads = s.reads := rfl
@[simp] theorem State.clearOut_turns : (State.clearOut s).turns = s.turns := rfl
@[simp] theorem State.clearOut_cuts : (State.clearOut s).cuts = s.cuts := rfl
@[simp] theorem State.clearOut_fresh : (State.clearOut s).fresh = s.fresh := rfl
end

/-! ### `State.setCode` -/

section
variable (s : State) (c : Byte)
@[simp] theorem State.setCode_par : (State.setCode c s).par = s.par := rfl
@[simp] theorem State.setCode_bits : (State.setCode c s).bits = s.bits := rfl
@[simp] theorem State.setCode_scale : (State.setCode c s).scale = s.scale := rfl
@[simp] theorem State.setCode_zeroPoint : (State.setCode c s).zeroPoint = s.zeroPoint := rfl
@[simp] theorem State.setCode_a : (State.setCode c s).a = s.a := rfl
@[simp] theorem State.setCode_b : (State.setCode c s).b = s.b := rfl
@[simp] theorem State.setCode_outBase : (State.setCode c s).outBase = s.outBase := rfl
@[simp] theorem State.setCode_outDtype : (State.setCode c s).outDtype = s.outDtype := rfl
@[simp] theorem State.setCode_outSize0 : (State.setCode c s).outSize0 = s.outSize0 := rfl
@[simp] theorem State.setCode_outSize1 : (State.setCode c s).outSize1 = s.outSize1 := rfl
@[simp] theorem State.setCode_dAptr : (State.setCode c s).dAptr = s.dAptr := rfl
@[simp] theorem State.setCode_dBptr : (State.setCode c s).dBptr = s.dBptr := rfl
@[simp] theorem State.setCode_dLength : (State.setCode c s).dLength = s.dLength := rfl
@[simp] theorem State.setCode_dRowStride : (State.setCode c s).dRowStride = s.dRowStride := rfl
@[simp] theorem State.setCode_dColStride : (State.setCode c s).dColStride = s.dColStride := rfl
@[simp] theorem State.setCode_dResult : (State.setCode c s).dResult = s.dResult := rfl
@[simp] theorem State.setCode_xByte : (State.setCode c s).xByte = s.xByte := rfl
@[simp] theorem State.setCode_xSub : (State.setCode c s).xSub = s.xSub := rfl
@[simp] theorem State.setCode_xCode : (State.setCode c s).xCode = c := rfl
@[simp] theorem State.setCode_lastop : (State.setCode c s).lastop = s.lastop := rfl
@[simp] theorem State.setCode_engine : (State.setCode c s).engine = s.engine := rfl
@[simp] theorem State.setCode_mem : (State.setCode c s).mem = s.mem := rfl
@[simp] theorem State.setCode_host : (State.setCode c s).host = s.host := rfl
@[simp] theorem State.setCode_reads : (State.setCode c s).reads = s.reads := rfl
@[simp] theorem State.setCode_turns : (State.setCode c s).turns = s.turns := rfl
@[simp] theorem State.setCode_cuts : (State.setCode c s).cuts = s.cuts := rfl
@[simp] theorem State.setCode_fresh : (State.setCode c s).fresh = s.fresh := rfl
end

/-! ### `State.setResult` -/

section
variable (s : State) (v : F32)
@[simp] theorem State.setResult_par : (State.setResult v s).par = s.par := rfl
@[simp] theorem State.setResult_bits : (State.setResult v s).bits = s.bits := rfl
@[simp] theorem State.setResult_scale : (State.setResult v s).scale = s.scale := rfl
@[simp] theorem State.setResult_zeroPoint : (State.setResult v s).zeroPoint = s.zeroPoint := rfl
@[simp] theorem State.setResult_a : (State.setResult v s).a = s.a := rfl
@[simp] theorem State.setResult_b : (State.setResult v s).b = s.b := rfl
@[simp] theorem State.setResult_outBase : (State.setResult v s).outBase = s.outBase := rfl
@[simp] theorem State.setResult_outDtype : (State.setResult v s).outDtype = s.outDtype := rfl
@[simp] theorem State.setResult_outSize0 : (State.setResult v s).outSize0 = s.outSize0 := rfl
@[simp] theorem State.setResult_outSize1 : (State.setResult v s).outSize1 = s.outSize1 := rfl
@[simp] theorem State.setResult_dAptr : (State.setResult v s).dAptr = s.dAptr := rfl
@[simp] theorem State.setResult_dBptr : (State.setResult v s).dBptr = s.dBptr := rfl
@[simp] theorem State.setResult_dLength : (State.setResult v s).dLength = s.dLength := rfl
@[simp] theorem State.setResult_dRowStride : (State.setResult v s).dRowStride = s.dRowStride := rfl
@[simp] theorem State.setResult_dColStride : (State.setResult v s).dColStride = s.dColStride := rfl
@[simp] theorem State.setResult_dResult : (State.setResult v s).dResult = v := rfl
@[simp] theorem State.setResult_xByte : (State.setResult v s).xByte = s.xByte := rfl
@[simp] theorem State.setResult_xSub : (State.setResult v s).xSub = s.xSub := rfl
@[simp] theorem State.setResult_xCode : (State.setResult v s).xCode = s.xCode := rfl
@[simp] theorem State.setResult_lastop : (State.setResult v s).lastop = s.lastop := rfl
@[simp] theorem State.setResult_engine : (State.setResult v s).engine = s.engine := rfl
@[simp] theorem State.setResult_mem : (State.setResult v s).mem = s.mem := rfl
@[simp] theorem State.setResult_host : (State.setResult v s).host = s.host := rfl
@[simp] theorem State.setResult_reads : (State.setResult v s).reads = s.reads := rfl
@[simp] theorem State.setResult_turns : (State.setResult v s).turns = s.turns := rfl
@[simp] theorem State.setResult_cuts : (State.setResult v s).cuts = s.cuts := rfl
@[simp] theorem State.setResult_fresh : (State.setResult v s).fresh = s.fresh := rfl
end

/-! ### `State.setEngine` -/

section
variable (s : State) (e : Engine)
@[simp] theorem State.setEngine_par : (State.setEngine e s).par = s.par := rfl
@[simp] theorem State.setEngine_bits : (State.setEngine e s).bits = s.bits := rfl
@[simp] theorem State.setEngine_scale : (State.setEngine e s).scale = s.scale := rfl
@[simp] theorem State.setEngine_zeroPoint : (State.setEngine e s).zeroPoint = s.zeroPoint := rfl
@[simp] theorem State.setEngine_a : (State.setEngine e s).a = s.a := rfl
@[simp] theorem State.setEngine_b : (State.setEngine e s).b = s.b := rfl
@[simp] theorem State.setEngine_outBase : (State.setEngine e s).outBase = s.outBase := rfl
@[simp] theorem State.setEngine_outDtype : (State.setEngine e s).outDtype = s.outDtype := rfl
@[simp] theorem State.setEngine_outSize0 : (State.setEngine e s).outSize0 = s.outSize0 := rfl
@[simp] theorem State.setEngine_outSize1 : (State.setEngine e s).outSize1 = s.outSize1 := rfl
@[simp] theorem State.setEngine_dAptr : (State.setEngine e s).dAptr = s.dAptr := rfl
@[simp] theorem State.setEngine_dBptr : (State.setEngine e s).dBptr = s.dBptr := rfl
@[simp] theorem State.setEngine_dLength : (State.setEngine e s).dLength = s.dLength := rfl
@[simp] theorem State.setEngine_dRowStride : (State.setEngine e s).dRowStride = s.dRowStride := rfl
@[simp] theorem State.setEngine_dColStride : (State.setEngine e s).dColStride = s.dColStride := rfl
@[simp] theorem State.setEngine_dResult : (State.setEngine e s).dResult = s.dResult := rfl
@[simp] theorem State.setEngine_xByte : (State.setEngine e s).xByte = s.xByte := rfl
@[simp] theorem State.setEngine_xSub : (State.setEngine e s).xSub = s.xSub := rfl
@[simp] theorem State.setEngine_xCode : (State.setEngine e s).xCode = s.xCode := rfl
@[simp] theorem State.setEngine_lastop : (State.setEngine e s).lastop = s.lastop := rfl
@[simp] theorem State.setEngine_engine : (State.setEngine e s).engine = e := rfl
@[simp] theorem State.setEngine_mem : (State.setEngine e s).mem = s.mem := rfl
@[simp] theorem State.setEngine_host : (State.setEngine e s).host = s.host := rfl
@[simp] theorem State.setEngine_reads : (State.setEngine e s).reads = s.reads := rfl
@[simp] theorem State.setEngine_turns : (State.setEngine e s).turns = s.turns := rfl
@[simp] theorem State.setEngine_cuts : (State.setEngine e s).cuts = s.cuts := rfl
@[simp] theorem State.setEngine_fresh : (State.setEngine e s).fresh = s.fresh := rfl
end

/-! ### `State.raiseError` -/

section
variable (s : State) (e : PreError)
@[simp] theorem State.raiseError_par : (State.raiseError e s).par = s.par := rfl
@[simp] theorem State.raiseError_bits : (State.raiseError e s).bits = s.bits := rfl
@[simp] theorem State.raiseError_scale : (State.raiseError e s).scale = s.scale := rfl
@[simp] theorem State.raiseError_zeroPoint : (State.raiseError e s).zeroPoint = s.zeroPoint := rfl
@[simp] theorem State.raiseError_a : (State.raiseError e s).a = s.a := rfl
@[simp] theorem State.raiseError_b : (State.raiseError e s).b = s.b := rfl
@[simp] theorem State.raiseError_outBase : (State.raiseError e s).outBase = s.outBase := rfl
@[simp] theorem State.raiseError_outDtype : (State.raiseError e s).outDtype = s.outDtype := rfl
@[simp] theorem State.raiseError_outSize0 : (State.raiseError e s).outSize0 = s.outSize0 := rfl
@[simp] theorem State.raiseError_outSize1 : (State.raiseError e s).outSize1 = s.outSize1 := rfl
@[simp] theorem State.raiseError_dAptr : (State.raiseError e s).dAptr = s.dAptr := rfl
@[simp] theorem State.raiseError_dBptr : (State.raiseError e s).dBptr = s.dBptr := rfl
@[simp] theorem State.raiseError_dLength : (State.raiseError e s).dLength = s.dLength := rfl
@[simp] theorem State.raiseError_dRowStride : (State.raiseError e s).dRowStride = s.dRowStride := rfl
@[simp] theorem State.raiseError_dColStride : (State.raiseError e s).dColStride = s.dColStride := rfl
@[simp] theorem State.raiseError_dResult : (State.raiseError e s).dResult = s.dResult := rfl
@[simp] theorem State.raiseError_xByte : (State.raiseError e s).xByte = s.xByte := rfl
@[simp] theorem State.raiseError_xSub : (State.raiseError e s).xSub = s.xSub := rfl
@[simp] theorem State.raiseError_xCode : (State.raiseError e s).xCode = s.xCode := rfl
@[simp] theorem State.raiseError_lastop : (State.raiseError e s).lastop = s.lastop := rfl
@[simp] theorem State.raiseError_engine : (State.raiseError e s).engine = .error e := rfl
@[simp] theorem State.raiseError_mem : (State.raiseError e s).mem = s.mem := rfl
@[simp] theorem State.raiseError_host : (State.raiseError e s).host = s.host := rfl
@[simp] theorem State.raiseError_reads : (State.raiseError e s).reads = s.reads := rfl
@[simp] theorem State.raiseError_turns : (State.raiseError e s).turns = s.turns := rfl
@[simp] theorem State.raiseError_cuts : (State.raiseError e s).cuts = s.cuts := rfl
@[simp] theorem State.raiseError_fresh : (State.raiseError e s).fresh = s.fresh := rfl
end

/-! ### `State.storeCells` -/

section
variable (s : State) (cs : List Host.Cell)
@[simp] theorem State.storeCells_par : (State.storeCells cs s).par = s.par := rfl
@[simp] theorem State.storeCells_bits : (State.storeCells cs s).bits = s.bits := rfl
@[simp] theorem State.storeCells_scale : (State.storeCells cs s).scale = s.scale := rfl
@[simp] theorem State.storeCells_zeroPoint : (State.storeCells cs s).zeroPoint = s.zeroPoint := rfl
@[simp] theorem State.storeCells_a : (State.storeCells cs s).a = s.a := rfl
@[simp] theorem State.storeCells_b : (State.storeCells cs s).b = s.b := rfl
@[simp] theorem State.storeCells_outBase : (State.storeCells cs s).outBase = s.outBase := rfl
@[simp] theorem State.storeCells_outDtype : (State.storeCells cs s).outDtype = s.outDtype := rfl
@[simp] theorem State.storeCells_outSize0 : (State.storeCells cs s).outSize0 = s.outSize0 := rfl
@[simp] theorem State.storeCells_outSize1 : (State.storeCells cs s).outSize1 = s.outSize1 := rfl
@[simp] theorem State.storeCells_dAptr : (State.storeCells cs s).dAptr = s.dAptr := rfl
@[simp] theorem State.storeCells_dBptr : (State.storeCells cs s).dBptr = s.dBptr := rfl
@[simp] theorem State.storeCells_dLength : (State.storeCells cs s).dLength = s.dLength := rfl
@[simp] theorem State.storeCells_dRowStride : (State.storeCells cs s).dRowStride = s.dRowStride := rfl
@[simp] theorem State.storeCells_dColStride : (State.storeCells cs s).dColStride = s.dColStride := rfl
@[simp] theorem State.storeCells_dResult : (State.storeCells cs s).dResult = s.dResult := rfl
@[simp] theorem State.storeCells_xByte : (State.storeCells cs s).xByte = s.xByte := rfl
@[simp] theorem State.storeCells_xSub : (State.storeCells cs s).xSub = s.xSub := rfl
@[simp] theorem State.storeCells_xCode : (State.storeCells cs s).xCode = s.xCode := rfl
@[simp] theorem State.storeCells_lastop : (State.storeCells cs s).lastop = s.lastop := rfl
@[simp] theorem State.storeCells_engine : (State.storeCells cs s).engine = s.engine := rfl
@[simp] theorem State.storeCells_mem : (State.storeCells cs s).mem = Memory.writeAll s.mem cs := rfl
@[simp] theorem State.storeCells_host : (State.storeCells cs s).host = s.host := rfl
@[simp] theorem State.storeCells_reads : (State.storeCells cs s).reads = s.reads := rfl
@[simp] theorem State.storeCells_turns : (State.storeCells cs s).turns = s.turns := rfl
@[simp] theorem State.storeCells_cuts : (State.storeCells cs s).cuts = s.cuts := rfl
@[simp] theorem State.storeCells_fresh : (State.storeCells cs s).fresh = s.fresh := rfl
end

/-! ### `State.scramble` -/

section
variable (s : State) (r : List Int)
@[simp] theorem State.scramble_par : (State.scramble r s).par = s.par := rfl
@[simp] theorem State.scramble_bits : (State.scramble r s).bits = s.bits := rfl
@[simp] theorem State.scramble_scale : (State.scramble r s).scale = s.scale := rfl
@[simp] theorem State.scramble_zeroPoint : (State.scramble r s).zeroPoint = s.zeroPoint := rfl
@[simp] theorem State.scramble_a : (State.scramble r s).a = s.a := rfl
@[simp] theorem State.scramble_b : (State.scramble r s).b = s.b := rfl
@[simp] theorem State.scramble_outBase : (State.scramble r s).outBase = s.outBase := rfl
@[simp] theorem State.scramble_outDtype : (State.scramble r s).outDtype = s.outDtype := rfl
@[simp] theorem State.scramble_outSize0 : (State.scramble r s).outSize0 = s.outSize0 := rfl
@[simp] theorem State.scramble_outSize1 : (State.scramble r s).outSize1 = s.outSize1 := rfl
@[simp] theorem State.scramble_dAptr : (State.scramble r s).dAptr = s.dAptr := rfl
@[simp] theorem State.scramble_dBptr : (State.scramble r s).dBptr = s.dBptr := rfl
@[simp] theorem State.scramble_dLength : (State.scramble r s).dLength = s.dLength := rfl
@[simp] theorem State.scramble_dRowStride : (State.scramble r s).dRowStride = s.dRowStride := rfl
@[simp] theorem State.scramble_dColStride : (State.scramble r s).dColStride = s.dColStride := rfl
@[simp] theorem State.scramble_dResult : (State.scramble r s).dResult = s.dResult := rfl
@[simp] theorem State.scramble_xByte : (State.scramble r s).xByte = s.xByte := rfl
@[simp] theorem State.scramble_xSub : (State.scramble r s).xSub = s.xSub := rfl
@[simp] theorem State.scramble_xCode : (State.scramble r s).xCode = s.xCode := rfl
@[simp] theorem State.scramble_lastop : (State.scramble r s).lastop = s.lastop := rfl
@[simp] theorem State.scramble_engine : (State.scramble r s).engine = s.engine := rfl
@[simp] theorem State.scramble_mem : (State.scramble r s).mem = Memory.writeAll s.mem (freeCells s.par s.fresh r) := rfl
@[simp] theorem State.scramble_host : (State.scramble r s).host = s.host := rfl
@[simp] theorem State.scramble_reads : (State.scramble r s).reads = s.reads := rfl
@[simp] theorem State.scramble_turns : (State.scramble r s).turns = s.turns := rfl
@[simp] theorem State.scramble_cuts : (State.scramble r s).cuts = s.cuts := rfl
@[simp] theorem State.scramble_fresh : (State.scramble r s).fresh = s.fresh + r.length := rfl
end

/-! ### `State.logRead` -/

section
variable (s : State) (r : Nat)
@[simp] theorem State.logRead_par : (State.logRead r s).par = s.par := rfl
@[simp] theorem State.logRead_bits : (State.logRead r s).bits = s.bits := rfl
@[simp] theorem State.logRead_scale : (State.logRead r s).scale = s.scale := rfl
@[simp] theorem State.logRead_zeroPoint : (State.logRead r s).zeroPoint = s.zeroPoint := rfl
@[simp] theorem State.logRead_a : (State.logRead r s).a = s.a := rfl
@[simp] theorem State.logRead_b : (State.logRead r s).b = s.b := rfl
@[simp] theorem State.logRead_outBase : (State.logRead r s).outBase = s.outBase := rfl
@[simp] theorem State.logRead_outDtype : (State.logRead r s).outDtype = s.outDtype := rfl
@[simp] theorem State.logRead_outSize0 : (State.logRead r s).outSize0 = s.outSize0 := rfl
@[simp] theorem State.logRead_outSize1 : (State.logRead r s).outSize1 = s.outSize1 := rfl
@[simp] theorem State.logRead_dAptr : (State.logRead r s).dAptr = s.dAptr := rfl
@[simp] theorem State.logRead_dBptr : (State.logRead r s).dBptr = s.dBptr := rfl
@[simp] theorem State.logRead_dLength : (State.logRead r s).dLength = s.dLength := rfl
@[simp] theorem State.logRead_dRowStride : (State.logRead r s).dRowStride = s.dRowStride := rfl
@[simp] theorem State.logRead_dColStride : (State.logRead r s).dColStride = s.dColStride := rfl
@[simp] theorem State.logRead_dResult : (State.logRead r s).dResult = s.dResult := rfl
@[simp] theorem State.logRead_xByte : (State.logRead r s).xByte = s.xByte := rfl
@[simp] theorem State.logRead_xSub : (State.logRead r s).xSub = s.xSub := rfl
@[simp] theorem State.logRead_xCode : (State.logRead r s).xCode = s.xCode := rfl
@[simp] theorem State.logRead_lastop : (State.logRead r s).lastop = s.lastop := rfl
@[simp] theorem State.logRead_engine : (State.logRead r s).engine = s.engine := rfl
@[simp] theorem State.logRead_mem : (State.logRead r s).mem = s.mem := rfl
@[simp] theorem State.logRead_host : (State.logRead r s).host = s.host := rfl
@[simp] theorem State.logRead_reads : (State.logRead r s).reads = s.reads ++ [(r, s.hostRead r)] := rfl
@[simp] theorem State.logRead_turns : (State.logRead r s).turns = s.turns := rfl
@[simp] theorem State.logRead_cuts : (State.logRead r s).cuts = s.cuts := rfl
@[simp] theorem State.logRead_fresh : (State.logRead r s).fresh = s.fresh := rfl
end

/-! ### `State.toReset` -/

section
variable (s : State)
@[simp] theorem State.toReset_par : s.toReset.par = s.par := rfl
@[simp] theorem State.toReset_bits : s.toReset.bits = 0#32 := rfl
@[simp] theorem State.toReset_scale : s.toReset.scale = 0#32 := rfl
@[simp] theorem State.toReset_zeroPoint : s.toReset.zeroPoint = 0#32 := rfl
@[simp] theorem State.toReset_a : s.toReset.a = Desc.reset := rfl
@[simp] theorem State.toReset_b : s.toReset.b = Desc.reset := rfl
@[simp] theorem State.toReset_outBase : s.toReset.outBase = 0#64 := rfl
@[simp] theorem State.toReset_outDtype : s.toReset.outDtype = 0#8 := rfl
@[simp] theorem State.toReset_outSize0 : s.toReset.outSize0 = 0#64 := rfl
@[simp] theorem State.toReset_outSize1 : s.toReset.outSize1 = 0#64 := rfl
@[simp] theorem State.toReset_dAptr : s.toReset.dAptr = 0#64 := rfl
@[simp] theorem State.toReset_dBptr : s.toReset.dBptr = 0#64 := rfl
@[simp] theorem State.toReset_dLength : s.toReset.dLength = 0#64 := rfl
@[simp] theorem State.toReset_dRowStride : s.toReset.dRowStride = 0#64 := rfl
@[simp] theorem State.toReset_dColStride : s.toReset.dColStride = 0#64 := rfl
@[simp] theorem State.toReset_dResult : s.toReset.dResult = 0#32 := rfl
@[simp] theorem State.toReset_xByte : s.toReset.xByte = 0#8 := rfl
@[simp] theorem State.toReset_xSub : s.toReset.xSub = 0#32 := rfl
@[simp] theorem State.toReset_xCode : s.toReset.xCode = 0#8 := rfl
@[simp] theorem State.toReset_lastop : s.toReset.lastop = 0#8 := rfl
@[simp] theorem State.toReset_engine : s.toReset.engine = .idle := rfl
@[simp] theorem State.toReset_mem : s.toReset.mem = s.mem := rfl
@[simp] theorem State.toReset_host : s.toReset.host = s.host := rfl
@[simp] theorem State.toReset_reads : s.toReset.reads = s.reads := rfl
@[simp] theorem State.toReset_turns : s.toReset.turns = s.turns := rfl
@[simp] theorem State.toReset_cuts : s.toReset.cuts = s.cuts := rfl
@[simp] theorem State.toReset_fresh : s.toReset.fresh = s.fresh := rfl
end

/-! ### `State.abandon`: only memory and the counter of free values change -/

section
variable (m0 : Memory) (t : Bool) (r : List Int) (w : List Host.Cell) (s : State)
@[simp] theorem State.abandon_par : (State.abandon m0 t r w s).par = s.par := by unfold State.abandon; split <;> rfl
@[simp] theorem State.abandon_bits : (State.abandon m0 t r w s).bits = s.bits := by unfold State.abandon; split <;> rfl
@[simp] theorem State.abandon_scale : (State.abandon m0 t r w s).scale = s.scale := by unfold State.abandon; split <;> rfl
@[simp] theorem State.abandon_zeroPoint : (State.abandon m0 t r w s).zeroPoint = s.zeroPoint := by unfold State.abandon; split <;> rfl
@[simp] theorem State.abandon_a : (State.abandon m0 t r w s).a = s.a := by unfold State.abandon; split <;> rfl
@[simp] theorem State.abandon_b : (State.abandon m0 t r w s).b = s.b := by unfold State.abandon; split <;> rfl
@[simp] theorem State.abandon_outBase : (State.abandon m0 t r w s).outBase = s.outBase := by unfold State.abandon; split <;> rfl
@[simp] theorem State.abandon_outDtype : (State.abandon m0 t r w s).outDtype = s.outDtype := by unfold State.abandon; split <;> rfl
@[simp] theorem State.abandon_outSize0 : (State.abandon m0 t r w s).outSize0 = s.outSize0 := by unfold State.abandon; split <;> rfl
@[simp] theorem State.abandon_outSize1 : (State.abandon m0 t r w s).outSize1 = s.outSize1 := by unfold State.abandon; split <;> rfl
@[simp] theorem State.abandon_dAptr : (State.abandon m0 t r w s).dAptr = s.dAptr := by unfold State.abandon; split <;> rfl
@[simp] theorem State.abandon_dBptr : (State.abandon m0 t r w s).dBptr = s.dBptr := by unfold State.abandon; split <;> rfl
@[simp] theorem State.abandon_dLength : (State.abandon m0 t r w s).dLength = s.dLength := by unfold State.abandon; split <;> rfl
@[simp] theorem State.abandon_dRowStride : (State.abandon m0 t r w s).dRowStride = s.dRowStride := by unfold State.abandon; split <;> rfl
@[simp] theorem State.abandon_dColStride : (State.abandon m0 t r w s).dColStride = s.dColStride := by unfold State.abandon; split <;> rfl
@[simp] theorem State.abandon_dResult : (State.abandon m0 t r w s).dResult = s.dResult := by unfold State.abandon; split <;> rfl
@[simp] theorem State.abandon_xByte : (State.abandon m0 t r w s).xByte = s.xByte := by unfold State.abandon; split <;> rfl
@[simp] theorem State.abandon_xSub : (State.abandon m0 t r w s).xSub = s.xSub := by unfold State.abandon; split <;> rfl
@[simp] theorem State.abandon_xCode : (State.abandon m0 t r w s).xCode = s.xCode := by unfold State.abandon; split <;> rfl
@[simp] theorem State.abandon_lastop : (State.abandon m0 t r w s).lastop = s.lastop := by unfold State.abandon; split <;> rfl
@[simp] theorem State.abandon_engine : (State.abandon m0 t r w s).engine = s.engine := by unfold State.abandon; split <;> rfl
@[simp] theorem State.abandon_host : (State.abandon m0 t r w s).host = s.host := by unfold State.abandon; split <;> rfl
@[simp] theorem State.abandon_reads : (State.abandon m0 t r w s).reads = s.reads := by unfold State.abandon; split <;> rfl
@[simp] theorem State.abandon_turns : (State.abandon m0 t r w s).turns = s.turns := by unfold State.abandon; split <;> rfl
@[simp] theorem State.abandon_cuts : (State.abandon m0 t r w s).cuts = s.cuts := by unfold State.abandon; split <;> rfl
end

end Sys2Proof.Machine
end

