-- ==== Sys2Proof/Laws/Step.lean ====
section
/-! SUPPORT. What a step does, by who moves: the host's next action outside a busy phase, the plan's agent inside one
(45_command_protocol.md R219, R220); and the register numbers. -/

namespace Sys2Proof.Machine

/-! ### Who moves -/

/-- A machine that is ready is not busy. -/
theorem State.ready.notBusy {s : State} (h : s.ready) : s.engine.isBusy = false := by
  unfold State.ready at h
  cases he : s.engine <;> simp_all [Engine.isBusy, Engine.locked]

/-- A busy engine holds a run. -/
theorem Engine.isBusy_iff {e : Engine} : e.isBusy = true ↔ ∃ r, e = .busy r := by
  cases e <;> simp [Engine.isBusy]

/-- The host's next action, with the rest left to do. -/
theorem hostTurn_cons {s : State} {a : HostAction} {rest : List HostAction} (h : s.host = a :: rest) :
    hostTurn s = hostAct a { s with host := rest } := by
  rw [hostTurn, h]

/-- Outside a busy phase the host moves. -/
theorem fetch_notBusy {s : State} (h : s.engine.isBusy = false) : fetch s = hostTurn s := by
  unfold fetch
  cases he : s.engine with
  | busy r => rw [he] at h; cases h
  | idle => rfl
  | done => rfl
  | error e => rfl
  | abort c => rfl

/-- In a busy phase the agent at the head of the plan moves. -/
theorem fetch_busy_cons {s : State} {r : Run} {t : Turn} {ts : List Turn} (h : s.engine = .busy r) (ht : s.turns = t :: ts) :
    fetch s = busyTurn r t { s with turns := ts } := by
  rw [fetch, h, ht]

/-- In a busy phase whose plan is over the default agent moves. -/
theorem fetch_busy_nil {s : State} {r : Run} (h : s.engine = .busy r) (ht : s.turns = []) :
    fetch s = busyTurn r r.defaultTurn s := by
  rw [fetch, h, ht]

/-- An action of the host outside a busy phase, as a step. -/
theorem step_host {s : State} {a : HostAction} {rest : List HostAction} (h : s.engine.isBusy = false)
    (hh : s.host = a :: rest) :
    step s = match hostAct a { s with host := rest } with
      | .run i s' => exec i s'
      | .moved s' => .next s' := by
  rw [step, fetch_notBusy h, hostTurn_cons hh] <;> rfl

/-- An action of the host inside a busy phase, as a step. -/
theorem step_host_busy {s : State} {r : Run} {ts : List Turn} {a : HostAction} {rest : List HostAction}
    (h : s.engine = .busy r) (ht : s.turns = .host :: ts) (hh : s.host = a :: rest) :
    step s = match hostAct a { s with host := rest, turns := ts } with
      | .run i s' => exec i s'
      | .moved s' => .next s' := by
  rw [step, fetch_busy_cons h ht, busyTurn, hostTurn_cons (s := { s with turns := ts }) hh] <;> rfl

/-! ### Commands -/

/-- A write to `CMD` on a ready engine issues the word written (45_command_protocol.md R217). -/
theorem hostWrite_cmd {s : State} (h : s.ready) (w : Word64) : hostWrite 1 w s = issueCommand w s := by
  have h' : s.engine.locked = false := h
  rw [hostWrite, h', show Reg.ofNumber 1 = some .cmd by decide]
  rfl

/-- Every host write is ignored while the engine is locked (45_command_protocol.md R219). -/
theorem hostWrite_locked {s : State} (h : s.engine.locked = true) (r : Nat) (v : Word64) : hostWrite r v s = .moved s := by
  rw [hostWrite, h]
  rfl

/-- The value placed for a table row is issued by the next step (log entry 1). -/
theorem State.unlocked_ready (s : State) : s.unlocked.ready := by
  unfold State.ready State.unlocked
  cases h : s.engine.locked
  · exact h
  · rfl

/-- `BITS` as the checks read it (60_exceptions.md R231). -/
theorem legalBits_iff (b : Word32) : legalBits b.toNat = true ↔ b = 4#32 ∨ b = 8#32 := by
  simp [legalBits, ← BitVec.toNat_inj]

/-- `BITS` neither 4 nor 8 fails the check (60_exceptions.md R231). -/
theorem legalBits_false {b : Word32} (h4 : b ≠ 4#32) (h8 : b ≠ 8#32) : legalBits b.toNat = false :=
  Bool.eq_false_iff.2 fun h => ((legalBits_iff b).1 h).elim h4 h8

/-- The strategy `State.chooses` names is the one selected (42_dot_product.md R172). -/
theorem selectStrategy_of_chooses {s : State} {st : Strategy} (h : s.chooses st) :
    legalBits s.bits.toNat = true ∧ selectStrategy s.bits.toNat s.par.vecCap = .ok st ∧
      subsPerByte s.bits.toNat = st.per := by
  rcases h with ⟨h, rfl⟩ | ⟨h, rfl⟩
  · rw [h]; exact ⟨rfl, rfl, rfl⟩
  · rw [h]; cases s.par.vecCap <;> exact ⟨rfl, rfl, rfl⟩

/-! ### Register numbers -/

/-- A register's number names it (10_state.md R21). -/
@[simp] theorem Reg.ofNumber_number (r : Reg) : Reg.ofNumber r.number = some r := by cases r <;> decide

/-- A register named by a number has that number (10_state.md R21). -/
theorem Reg.number_of_ofNumber {n : Nat} {r : Reg} (h : Reg.ofNumber n = some r) : r.number = n := by
  have := List.find?_some h
  simpa using this

end Sys2Proof.Machine
end

