-- ==== Sys2Proof/Laws/Commands.lean ====
section
/-! SUPPORT. A command whose checks pass is its launch (42_dot_product.md R175, 43_matmul_driver.md R180, R184;
44_packing_stage.md R200, R203), and which of the two forms of the busy phase a launch takes. -/

namespace Sys2Proof.Machine

/-- DOT with a legal `BITS` is the launch of its operands (42_dot_product.md R175). -/
theorem exec_dot_launch {s : State} {st : Strategy} (h : s.chooses st) :
    exec .dot s = .next (launch (.dot (s.dotArgs st)) (s.accept 0x02#8)) := by
  obtain ⟨h1, h2, -⟩ := selectStrategy_of_chooses h
  simp only [exec, execDot]
  rw [State.accept_bits, h1, if_pos rfl, State.accept_par, h2]
  rfl

/-- MATMUL whose checks pass is the launch of its operands (43_matmul_driver.md R180, R184). -/
theorem exec_matmul_launch {s : State} {st : Strategy} (h : s.matmulPasses st) :
    exec .matmul s = .next (launch (.matmul (s.matmulArgs st)) (s.accept 0x03#8).clearOut) := by
  obtain ⟨ha, hb, hc, hk⟩ := h
  obtain ⟨h1, h2, h3⟩ := selectStrategy_of_chooses hc
  have hcheck : matmulCheck (s.accept 0x03#8).clearOut = .ok s.bits.toNat := by
    simp [matmulCheck, ha, hb, h1, h3, hk]
  simp only [exec, execMatmul]
  rw [hcheck]
  simp only [State.clearOut_par, State.accept_par, h2]
  rfl

/-- PACK whose checks pass is the launch of its operands (44_packing_stage.md R200, R203). -/
theorem exec_pack_launch {s : State} (h : s.packPasses) :
    exec .pack s = .next (launch (.pack (s.packArgs s.bits.toNat)) (s.accept 0x04#8).clearOut) := by
  obtain ⟨hp, ha, hb, hk⟩ := h
  have hcheck : packCheck (s.accept 0x04#8).clearOut = .ok s.bits.toNat := by
    simp [packCheck, ha, (legalBits_iff _).2 hb, subsPerByte, hk]
  simp only [exec, execPack, hp, if_true]
  rw [hcheck]
  rfl

/-- With a plan a launch becomes busy (45_command_protocol.md R217). -/
theorem launch_planned {op : Launch} {s : State} (h : s.turns ≠ []) : launch op s = beginRun op s := by
  unfold launch
  split
  · contradiction
  · rfl

/-- The two forms of a launch (45_command_protocol.md R220, R223). -/
theorem launch_cases (op : Launch) (s : State) :
    (s.turns = [] ∧ launch op s = complete op s) ∨ (s.turns ≠ [] ∧ launch op s = beginRun op s) := by
  cases h : s.turns with
  | nil => exact .inl ⟨rfl, by rw [launch, h]⟩
  | cons t ts => exact .inr ⟨List.cons_ne_nil _ _, launch_planned (by rw [h]; exact List.cons_ne_nil _ _)⟩

/-- The check of MATMUL passes only as `State.matmulPasses` says (43_matmul_driver.md R181). -/
theorem matmulPasses_of_check {s : State} {b : Nat} (h : matmulCheck (s.accept 0x03#8).clearOut = .ok b) :
    ∃ st, s.matmulPasses st := by
  unfold matmulCheck at h
  simp only [State.clearOut_a, State.clearOut_b, State.clearOut_bits, State.accept_a, State.accept_b,
    State.accept_bits] at h
  by_cases h1 : s.a.dtype = tagU8
  · by_cases h2 : s.b.dtype = tagF32
    · by_cases h3 : legalBits s.bits.toNat = true
      · by_cases h4 : s.a.size1.toNat * subsPerByte s.bits.toNat = s.b.size0.toNat
        · rcases (legalBits_iff _).1 h3 with hb | hb
          · exact ⟨.s4, h1, h2, .inl ⟨hb, rfl⟩, by rw [← h4, hb]; rfl⟩
          · refine ⟨_, h1, h2, .inr ⟨hb, rfl⟩, ?_⟩
            rw [← h4, hb]
            cases s.par.vecCap <;> rfl
        · simp [h1, h2, h3, h4] at h
      · simp [h1, h2, h3] at h
    · simp [h1, h2] at h
  · simp [h1] at h

/-- The check of PACK passes only as `State.packPasses` says (44_packing_stage.md R201). -/
theorem packPasses_of_check {s : State} {b : Nat} (hp : s.par.packPresent = true)
    (h : packCheck (s.accept 0x04#8).clearOut = .ok b) : s.packPasses := by
  unfold packCheck at h
  simp only [State.clearOut_a, State.clearOut_bits, State.accept_a, State.accept_bits] at h
  by_cases h1 : s.a.dtype = tagF32
  · by_cases h2 : legalBits s.bits.toNat = true
    · by_cases h3 : s.a.size1.toNat % subsPerByte s.bits.toNat = 0
      · exact ⟨hp, h1, (legalBits_iff _).1 h2, h3⟩
      · simp [h1, h2, h3] at h
    · simp [h1, h2] at h
  · simp [h1] at h

/-- Everything an accepted command can do: an error at once, EXTRACT's result, or a launch that has a legal width. -/
theorem exec_cases (i : Instr) (s : State) :
    (∃ e, exec i s = .next ((s.accept (opcode i)).raiseError e) ∨
      exec i s = .next ((s.accept (opcode i)).clearOut.raiseError e)) ∨
    (∃ c, exec i s = .next (((s.accept (opcode i)).setCode c).setEngine .done)) ∨
    (∃ op : Launch, op.opcode = opcode i ∧ op.legal = true ∧
      ((∃ d, op = .dot d) ∧ exec i s = .next (launch op (s.accept (opcode i))) ∨
        (∀ d, op ≠ .dot d) ∧ exec i s = .next (launch op (s.accept (opcode i)).clearOut))) := by
  cases i with
  | extract =>
    simp only [exec, execExtract]
    split
    · exact .inr (.inl ⟨_, rfl⟩)
    · exact .inl ⟨.configuration, .inl rfl⟩
  | dot =>
    cases hb : legalBits s.bits.toNat
    · refine .inl ⟨.configuration, .inl ?_⟩
      simp only [exec, execDot, State.accept_bits, hb]
      rfl
    · refine .inr (.inr ?_)
      rcases (legalBits_iff _).1 hb with h | h
      · exact ⟨.dot (s.dotArgs .s4), rfl, rfl, .inl ⟨⟨_, rfl⟩, exec_dot_launch (.inl ⟨h, rfl⟩)⟩⟩
      · exact ⟨.dot (s.dotArgs _), rfl, rfl, .inl ⟨⟨_, rfl⟩, exec_dot_launch (.inr ⟨h, rfl⟩)⟩⟩
  | matmul =>
    cases hc : matmulCheck (s.accept 0x03#8).clearOut with
    | error e =>
      refine .inl ⟨e, .inr ?_⟩
      simp only [exec, execMatmul, hc]
      rfl
    | ok b =>
      obtain ⟨st, hst⟩ := matmulPasses_of_check hc
      exact .inr (.inr ⟨.matmul (s.matmulArgs st), rfl, rfl, .inr ⟨(fun _ h => nomatch h), exec_matmul_launch hst⟩⟩)
  | pack =>
    cases hp : s.par.packPresent
    · refine .inl ⟨.illegalCommand, .inl ?_⟩
      simp only [exec, execPack, hp]
      rfl
    · cases hc : packCheck (s.accept 0x04#8).clearOut with
      | error e =>
        refine .inl ⟨e, .inr ?_⟩
        simp only [exec, execPack, hp, if_true, hc]
        rfl
      | ok b =>
        have hpass := packPasses_of_check hp hc
        refine .inr (.inr ⟨.pack (s.packArgs s.bits.toNat), rfl, ?_, .inr ⟨(fun _ h => nomatch h), exec_pack_launch hpass⟩⟩)
        exact (legalBits_iff _).2 hpass.2.2.1

end Sys2Proof.Machine
end

