-- ==== Sys2Proof/Laws/Float.lean ====
section
/-! SUPPORT. Rounding to binary32 (41_accumulator_dequant.md R141): the magnitude of a pattern, the nearest integer, the
nearest pattern, and the operations on values that need no rounding. -/

namespace Sys2Proof.Machine

/-! ### Patterns -/

/-- The magnitude of the finite pattern whose bits 30:0 are `p`, in units of `2^-149` (30_encoding.md R118). -/
def patternMag (p : Nat) : Nat := if p / 2 ^ 23 = 0 then p % 2 ^ 23 else (2 ^ 23 + p % 2 ^ 23) * 2 ^ (p / 2 ^ 23 - 1)

/-- The magnitude of a value is that of its bits 30:0. -/
theorem fmag_eq (x : F32) : fmag x = patternMag (x.toNat % 2 ^ 31) := by
  have h1 : x.toNat / 2 ^ 23 % 2 ^ 8 = x.toNat % 2 ^ 31 / 2 ^ 23 := by omega
  have h2 : x.toNat % 2 ^ 23 = x.toNat % 2 ^ 31 % 2 ^ 23 := by omega
  simp only [fmag, fexp, ffrac, patternMag, h1, h2]

/-- The sign of a value is bit 31. -/
theorem fsign_eq (x : F32) : fsign x = decide (2 ^ 31 ≤ x.toNat) := by
  simp [fsign, BitVec.msb_eq_decide]

/-- A value is its sign and its bits 30:0. -/
theorem withSign_fsign (x : F32) : withSign (fsign x) (x.toNat % 2 ^ 31) = x := by
  apply BitVec.eq_of_toNat_eq
  have := x.isLt
  rw [fsign_eq, withSign, BitVec.toNat_ofNat]
  by_cases h : 2 ^ 31 ≤ x.toNat <;> simp only [h, decide_true, decide_false, if_true] <;> simp <;> omega

/-- The number of a pattern with a sign. -/
theorem withSign_toNat {s : Bool} {p : Nat} (h : p < 2 ^ 31) :
    (withSign s p).toNat = (if s then 2 ^ 31 else 0) + p := by
  rw [withSign, BitVec.toNat_ofNat]
  cases s <;> simp <;> omega

theorem withSign_mod {s : Bool} {p : Nat} (h : p < 2 ^ 31) : (withSign s p).toNat % 2 ^ 31 = p := by
  rw [withSign_toNat h]
  cases s <;> simp <;> omega

theorem fsign_withSign {s : Bool} {p : Nat} (h : p < 2 ^ 31) : fsign (withSign s p) = s := by
  rw [fsign_eq, withSign_toNat h]
  cases s <;> simp <;> omega

theorem fmag_withSign {s : Bool} {p : Nat} (h : p < 2 ^ 31) : fmag (withSign s p) = patternMag p := by
  rw [fmag_eq, withSign_mod h]

/-- A NaN by its bits 30:0. -/
theorem isNaN_iff (x : F32) : isNaN x = true ↔ infPattern < x.toNat % 2 ^ 31 := by
  have := x.isLt
  simp only [isNaN, fexp, ffrac, infPattern, Bool.and_eq_true, beq_iff_eq, bne_iff_ne, ne_eq]
  omega

/-- An infinity by its bits 30:0. -/
theorem isInf_iff (x : F32) : isInf x = true ↔ x.toNat % 2 ^ 31 = infPattern := by
  have := x.isLt
  simp only [isInf, fexp, ffrac, infPattern, Bool.and_eq_true, beq_iff_eq]
  omega

/-- A zero by its bits 30:0. -/
theorem isZero_iff (x : F32) : isZero x = true ↔ x.toNat % 2 ^ 31 = 0 := by
  have := x.isLt
  simp only [isZero, fexp, ffrac, Bool.and_eq_true, beq_iff_eq]
  omega

/-- A pattern that is neither a NaN nor an infinity is below infinity's. -/
theorem finite_lt {x : F32} (hn : isNaN x = false) (hi : isInf x = false) : x.toNat % 2 ^ 31 < infPattern := by
  have h1 : ¬ infPattern < x.toNat % 2 ^ 31 := fun h => by rw [(isNaN_iff x).2 h] at hn; cases hn
  have h2 : ¬ x.toNat % 2 ^ 31 = infPattern := fun h => by rw [(isInf_iff x).2 h] at hi; cases hi
  omega

/-- The sign flip (41_accumulator_dequant.md R144). -/
theorem fneg_withSign {s : Bool} {p : Nat} (h : p < 2 ^ 31) : fneg (withSign s p) = withSign (!s) p := by
  have key : ∀ y : F32, y.toNat < 2 ^ 31 → y ^^^ 0x80000000#32 = y + 0x80000000#32 := by
    intro y hy
    rw [BitVec.add_eq_or_of_and_eq_zero]
    · apply BitVec.eq_of_getLsbD_eq
      intro i hi
      simp only [BitVec.getLsbD_xor, BitVec.getLsbD_or]
      by_cases h31 : i = 31
      · subst h31
        have : y.getLsbD 31 = false := Nat.testBit_lt_two_pow hy
        rw [this]
        decide
      · have : (0x80000000#32).getLsbD i = false := by
          rw [show (0x80000000#32) = BitVec.twoPow 32 31 by decide, BitVec.getLsbD_twoPow]
          simp; omega
        simp [this]
    · apply BitVec.eq_of_getLsbD_eq
      intro i hi
      simp only [BitVec.getLsbD_and, BitVec.getLsbD_zero]
      by_cases h31 : i = 31
      · subst h31
        have : y.getLsbD 31 = false := Nat.testBit_lt_two_pow hy
        rw [this]
        decide
      · have : (0x80000000#32).getLsbD i = false := by
          rw [show (0x80000000#32) = BitVec.twoPow 32 31 by decide, BitVec.getLsbD_twoPow]
          simp; omega
        simp [this]
  have hp : (withSign false p).toNat = p := by rw [withSign_toNat h]; simp
  have hf : fneg (withSign false p) = withSign true p := by
    rw [fneg, key _ (by rw [hp]; exact h)]
    apply BitVec.eq_of_toNat_eq
    rw [BitVec.toNat_add, hp, withSign_toNat h]
    simp; omega
  cases s
  · exact hf
  · rw [← hf, fneg, fneg, BitVec.xor_assoc, BitVec.xor_self, BitVec.xor_zero]
    rfl

/-- The sign flip of any value. -/
theorem fneg_eq (x : F32) : fneg x = withSign (!fsign x) (x.toNat % 2 ^ 31) := by
  conv => lhs; rw [← withSign_fsign x]
  exact fneg_withSign (Nat.mod_lt _ (by decide))

/-! ### The nearest integer -/

/-- `roundEven` is at least as near as any integer, and even on a tie (R141). -/
theorem roundEven_nearest {n d : Nat} (hd : 0 < d) (k : Nat) :
    ((roundEven n d * d : Nat) - n : Int).natAbs ≤ ((k * d : Nat) - n : Int).natAbs ∧
      (k ≠ roundEven n d →
        ((roundEven n d * d : Nat) - n : Int).natAbs = ((k * d : Nat) - n : Int).natAbs → roundEven n d % 2 = 0) := by
  have hn : n / d * d + n % d = n := Nat.div_add_mod' n d
  have hr := Nat.mod_lt n hd
  have hs : (n / d + 1) * d = n / d * d + d := Nat.succ_mul _ _
  have hlow : k < n / d → k * d + d ≤ n / d * d := fun h => by
    have := Nat.mul_le_mul_right d (Nat.succ_le_of_lt h)
    rwa [Nat.succ_mul] at this
  have hhigh : n / d + 1 < k → n / d * d + d + d ≤ k * d := fun h => by
    have := Nat.mul_le_mul_right d (Nat.succ_le_of_lt h)
    rwa [Nat.succ_mul, hs] at this
  have hcases : k < n / d ∨ k = n / d ∨ k = n / d + 1 ∨ n / d + 1 < k := by omega
  unfold roundEven
  have h0 : n / d % 2 = 0 ∨ n / d % 2 = 1 := by omega
  split
  · rcases hcases with h | h | h | h
    · have := hlow h; omega
    · subst h; omega
    · subst h; omega
    · have := hhigh h; omega
  · split
    · rcases hcases with h | h | h | h
      · have := hlow h; omega
      · subst h; omega
      · subst h; omega
      · have := hhigh h; omega
    · rcases h0 with h0 | h0 <;> rw [h0]
      · rw [Nat.add_zero]
        rcases hcases with h | h | h | h
        · have := hlow h; omega
        · subst h; omega
        · subst h; omega
        · have := hhigh h; omega
      · rcases hcases with h | h | h | h
        · have := hlow h; omega
        · subst h; omega
        · subst h; omega
        · have := hhigh h; omega

/-- An exact quotient rounds to itself. -/
theorem roundEven_mul {k d : Nat} (hd : 0 < d) : roundEven (k * d) d = k := by
  rw [roundEven, Nat.mul_mod_left, Nat.mul_div_cancel _ hd]
  simp [hd]

/-- The nearest integer is the integer part or the next. -/
theorem roundEven_bounds (n d : Nat) : n / d ≤ roundEven n d ∧ roundEven n d ≤ n / d + 1 := by
  unfold roundEven
  split
  · omega
  · split <;> omega

/-! ### The nearest pattern -/

/-- Finite patterns grow with their numbers. -/
theorem patternMag_succ (p : Nat) : patternMag p < patternMag (p + 1) := by
  unfold patternMag
  by_cases hF : p % 2 ^ 23 = 2 ^ 23 - 1
  · have h1 : (p + 1) / 2 ^ 23 = p / 2 ^ 23 + 1 := by omega
    have h2 : (p + 1) % 2 ^ 23 = 0 := by omega
    rw [h1, h2, hF, if_neg (Nat.succ_ne_zero _), Nat.add_sub_cancel]
    by_cases hE : p / 2 ^ 23 = 0
    · rw [if_pos hE, hE]; decide
    · rw [if_neg hE]
      have : 2 ^ (p / 2 ^ 23) = 2 ^ (p / 2 ^ 23 - 1) * 2 := by rw [← Nat.pow_succ]; congr 1; omega
      rw [this]
      have := Nat.two_pow_pos (p / 2 ^ 23 - 1)
      generalize 2 ^ (p / 2 ^ 23 - 1) = w at *
      omega
  · have h1 : (p + 1) / 2 ^ 23 = p / 2 ^ 23 := by omega
    have h2 : (p + 1) % 2 ^ 23 = p % 2 ^ 23 + 1 := by omega
    rw [h1, h2]
    by_cases hE : p / 2 ^ 23 = 0
    · rw [if_pos hE, if_pos hE]; omega
    · rw [if_neg hE, if_neg hE]
      exact Nat.mul_lt_mul_of_pos_right (by omega) (Nat.two_pow_pos _)

/-- Finite patterns are in the order of their numbers. -/
theorem patternMag_lt {p q : Nat} (h : p < q) : patternMag p < patternMag q := by
  induction q with
  | zero => omega
  | succ q ih =>
    rcases Nat.lt_succ_iff_lt_or_eq.1 h with h | h
    · exact Nat.lt_trans (ih h) (patternMag_succ q)
    · rw [h]; exact patternMag_succ q

/-- Distinct patterns have distinct magnitudes. -/
theorem patternMag_inj {p q : Nat} (h : patternMag p = patternMag q) : p = q := by
  rcases Nat.lt_trichotomy p q with hlt | he | hgt
  · have := patternMag_lt hlt; omega
  · exact he
  · have := patternMag_lt hgt; omega

/-- The pattern of a significand on the grid of spacing `2^e`. -/
theorem patternMag_grid {e r : Nat} (h1 : e = 0 ∨ 2 ^ 23 ≤ r) (h2 : r ≤ 2 ^ 24) : patternMag (e * 2 ^ 23 + r) = r * 2 ^ e := by
  unfold patternMag
  by_cases hr : r < 2 ^ 23
  · have he : e = 0 := h1.resolve_right (by omega)
    subst he
    rw [if_pos (by omega)]
    omega
  · by_cases hr2 : r < 2 ^ 24
    · have a1 : (e * 2 ^ 23 + r) / 2 ^ 23 = e + 1 := by omega
      have a2 : (e * 2 ^ 23 + r) % 2 ^ 23 = r - 2 ^ 23 := by omega
      rw [a1, a2, if_neg (Nat.succ_ne_zero _), Nat.add_sub_cancel, Nat.add_sub_cancel' (by omega)]
    · have hr3 : r = 2 ^ 24 := by omega
      subst hr3
      have a1 : (e * 2 ^ 23 + 2 ^ 24) / 2 ^ 23 = e + 2 := by omega
      have a2 : (e * 2 ^ 23 + 2 ^ 24) % 2 ^ 23 = 0 := by omega
      rw [a1, a2, if_neg (by omega), Nat.add_zero, show e + 2 - 1 = e + 1 from rfl, Nat.pow_succ]
      omega

/-- The spacing: 0 below `2^24` units, else the quotient has 24 bits above it. -/
theorem spacing_spec (n d : Nat) :
    (spacing n d = 0 ∧ n / d < 2 ^ 24) ∨
      (0 < spacing n d ∧ 2 ^ 23 * 2 ^ spacing n d ≤ n / d ∧ n / d < 2 ^ 24 * 2 ^ spacing n d) := by
  unfold spacing
  rcases Nat.eq_zero_or_pos (n / d) with h0 | h0
  · left; rw [h0]; decide
  have hlo := Nat.log2_self_le (Nat.ne_of_gt h0)
  have hhi := @Nat.lt_log2_self (n / d)
  by_cases h : Nat.log2 (n / d) ≤ 23
  · left
    refine ⟨by omega, Nat.lt_of_lt_of_le hhi ?_⟩
    exact Nat.pow_le_pow_right (by decide) (by omega)
  · right
    refine ⟨by omega, ?_, ?_⟩
    · rw [← Nat.pow_add]; rwa [show 23 + (Nat.log2 (n / d) - 23) = Nat.log2 (n / d) by omega]
    · rw [← Nat.pow_add]; rwa [show 24 + (Nat.log2 (n / d) - 23) = Nat.log2 (n / d) + 1 by omega]

/-- The significand of the rounded value. -/
theorem roundEven_grid {n d : Nat} :
    (spacing n d = 0 ∨ 2 ^ 23 ≤ roundEven n (d * 2 ^ spacing n d)) ∧ roundEven n (d * 2 ^ spacing n d) ≤ 2 ^ 24 := by
  have hb := roundEven_bounds n (d * 2 ^ spacing n d)
  have hp := Nat.two_pow_pos (spacing n d)
  rw [← Nat.div_div_eq_div_mul] at hb
  rcases spacing_spec n d with ⟨h, h1⟩ | ⟨h, h1, h2⟩
  · rw [h] at hb ⊢
    rw [Nat.pow_zero, Nat.div_one] at hb
    rw [Nat.pow_zero] at *
    omega
  · have a1 := (Nat.le_div_iff_mul_le hp).2 h1
    have a2 := (Nat.div_lt_iff_lt_mul hp).2 h2
    omega

/-- The magnitude of the rounded pattern before it is cut off at infinity (R141). -/
theorem patternMag_round (n d : Nat) :
    patternMag (spacing n d * 2 ^ 23 + roundEven n (d * 2 ^ spacing n d)) =
      roundEven n (d * 2 ^ spacing n d) * 2 ^ spacing n d := patternMag_grid roundEven_grid.1 roundEven_grid.2

/-- The rounded pattern is at least as near as any, and even on a tie (R141). -/
theorem patternMag_nearest {n d : Nat} (hd : 0 < d) (p : Nat) :
    ((patternMag (spacing n d * 2 ^ 23 + roundEven n (d * 2 ^ spacing n d)) * d : Nat) - n : Int).natAbs ≤
        ((patternMag p * d : Nat) - n : Int).natAbs ∧
      (p ≠ spacing n d * 2 ^ 23 + roundEven n (d * 2 ^ spacing n d) →
        ((patternMag (spacing n d * 2 ^ 23 + roundEven n (d * 2 ^ spacing n d)) * d : Nat) - n : Int).natAbs =
            ((patternMag p * d : Nat) - n : Int).natAbs → roundEven n (d * 2 ^ spacing n d) % 2 = 0) := by
  have hp := Nat.two_pow_pos (spacing n d)
  have hdp : 0 < d * 2 ^ spacing n d := Nat.mul_pos hd hp
  have hmag := patternMag_round n d
  have hre : roundEven n (d * 2 ^ spacing n d) * 2 ^ spacing n d * d =
      roundEven n (d * 2 ^ spacing n d) * (d * 2 ^ spacing n d) := by rw [Nat.mul_assoc, Nat.mul_comm (2 ^ _)]
  have hgrid : ∀ k, patternMag p = k * 2 ^ spacing n d →
      ((patternMag (spacing n d * 2 ^ 23 + roundEven n (d * 2 ^ spacing n d)) * d : Nat) - n : Int).natAbs ≤
        ((patternMag p * d : Nat) - n : Int).natAbs ∧
      (p ≠ spacing n d * 2 ^ 23 + roundEven n (d * 2 ^ spacing n d) →
        ((patternMag (spacing n d * 2 ^ 23 + roundEven n (d * 2 ^ spacing n d)) * d : Nat) - n : Int).natAbs =
            ((patternMag p * d : Nat) - n : Int).natAbs → roundEven n (d * 2 ^ spacing n d) % 2 = 0) := by
    intro k hk
    obtain ⟨h1, h2⟩ := roundEven_nearest (n := n) hdp k
    have hk' : k * 2 ^ spacing n d * d = k * (d * 2 ^ spacing n d) := by rw [Nat.mul_assoc, Nat.mul_comm (2 ^ _)]
    rw [hk, hmag, hre, hk']
    refine ⟨h1, fun hne heq => h2 (fun he => hne ?_) heq⟩
    exact patternMag_inj (by rw [hk, hmag, he])
  by_cases hE : spacing n d ≤ p / 2 ^ 23 - 1 ∨ spacing n d = 0
  · by_cases h0 : p / 2 ^ 23 = 0
    · have hs : spacing n d = 0 := by omega
      refine hgrid (p % 2 ^ 23) ?_
      rw [patternMag, if_pos h0, hs, Nat.pow_zero, Nat.mul_one]
    · refine hgrid ((2 ^ 23 + p % 2 ^ 23) * 2 ^ (p / 2 ^ 23 - 1 - spacing n d)) ?_
      rw [patternMag, if_neg h0, Nat.mul_assoc, ← Nat.pow_add]
      congr 2
      omega
  · rcases spacing_spec n d with ⟨h, h1⟩ | ⟨h, h1, h2⟩
    · omega
    have hsmall : patternMag p < 2 ^ 23 * 2 ^ spacing n d := by
      have hpp := patternMag_grid (e := spacing n d) (r := 2 ^ 23) (.inr (Nat.le_refl _)) (by decide)
      rw [← hpp]
      exact patternMag_lt (by omega)
    obtain ⟨h3, -⟩ := roundEven_nearest (n := n) hdp (2 ^ 23)
    rw [hmag, hre]
    have hn : 2 ^ 23 * (d * 2 ^ spacing n d) ≤ n := by
      rw [Nat.mul_comm d, ← Nat.mul_assoc]
      exact (Nat.le_div_iff_mul_le hd).1 h1
    have hlt : patternMag p * d < 2 ^ 23 * (d * 2 ^ spacing n d) := by
      rw [Nat.mul_comm d, ← Nat.mul_assoc]
      exact Nat.mul_lt_mul_of_pos_right hsmall hd
    omega

/-- Rounding reaches the even number above an odd one from the midpoint on (R141). -/
theorem roundEven_reaches {n d k : Nat} (hd : 0 < d) (hk : k % 2 = 1) (hq : n / d ≤ k) :
    k + 1 ≤ roundEven n d ↔ (2 * k + 1) * d ≤ 2 * n := by
  have hn : n / d * d + n % d = n := Nat.div_add_mod' n d
  have hr := Nat.mod_lt n hd
  have hs : (2 * k + 1) * d = 2 * (k * d) + d := by rw [Nat.succ_mul, Nat.mul_assoc]
  have hle : n / d < k → n / d * d + d ≤ k * d := fun h => by
    have := Nat.mul_le_mul_right d (Nat.succ_le_of_lt h)
    rwa [Nat.succ_mul] at this
  unfold roundEven
  rw [hs]
  by_cases h : n / d = k
  · rw [h] at hn ⊢
    split
    · omega
    · split <;> omega
  · have := hle (by omega)
    split
    · omega
    · split <;> omega

/-- Rounding reaches infinity exactly from the midpoint above the largest finite value on (R141). -/
theorem round_overflows {n d : Nat} (hd : 0 < d) :
    infPattern ≤ spacing n d * 2 ^ 23 + roundEven n (d * 2 ^ spacing n d) ↔ (2 ^ 25 - 1) * 2 ^ 252 * d ≤ n := by
  have hg := @roundEven_grid n d
  rcases Nat.lt_trichotomy (spacing n d) 253 with h | h | h
  · constructor
    · intro hx
      simp only [infPattern] at hx
      omega
    · intro hx
      exfalso
      have hq : (2 ^ 25 - 1) * 2 ^ 252 ≤ n / d := (Nat.le_div_iff_mul_le hd).2 hx
      have h2 : n / d < 2 ^ 24 * 2 ^ 252 := by
        rcases spacing_spec n d with ⟨h0, h1⟩ | ⟨h0, -, h1⟩
        · exact Nat.lt_of_lt_of_le h1 (Nat.le_mul_of_pos_right _ (Nat.two_pow_pos _))
        · exact Nat.lt_of_lt_of_le h1 (Nat.mul_le_mul_left _ (Nat.pow_le_pow_right (by decide) (by omega)))
      have h3 : (2:Nat) ^ 24 * 2 ^ 252 ≤ (2 ^ 25 - 1) * 2 ^ 252 := Nat.mul_le_mul_right _ (by decide)
      exact Nat.lt_irrefl _ (Nat.lt_of_lt_of_le h2 (Nat.le_trans h3 hq))
  · rw [h] at hg ⊢
    have hD : 0 < d * 2 ^ 253 := Nat.mul_pos hd (Nat.two_pow_pos _)
    have heq : (2 ^ 25 - 1) * 2 ^ 252 * d * 2 = (2 ^ 25 - 1) * (d * 2 ^ 253) := by
      rw [show (2:Nat) ^ 253 = 2 ^ 252 * 2 by decide]
      generalize (2:Nat) ^ 252 = w
      rw [Nat.mul_assoc, Nat.mul_assoc, Nat.mul_comm d (w * 2), Nat.mul_assoc, Nat.mul_comm d 2]
    have hx : infPattern ≤ 253 * 2 ^ 23 + roundEven n (d * 2 ^ 253) ↔ 2 ^ 24 ≤ roundEven n (d * 2 ^ 253) := by
      simp only [infPattern]; omega
    rw [hx]
    have hq24 : n / (d * 2 ^ 253) < 2 ^ 24 := by
      rw [← Nat.div_div_eq_div_mul]
      rcases spacing_spec n d with ⟨h0, h1⟩ | ⟨h0, -, h1⟩
      · omega
      · rw [h] at h1; exact (Nat.div_lt_iff_lt_mul (Nat.two_pow_pos _)).2 h1
    have hreach := roundEven_reaches (n := n) (k := 2 ^ 24 - 1) hD (by decide) (Nat.le_of_lt_succ hq24)
    rw [show 2 ^ 24 - 1 + 1 = 2 ^ 24 by decide, show 2 * (2 ^ 24 - 1) + 1 = 2 ^ 25 - 1 by decide] at hreach
    rw [hreach]
    omega
  · constructor
    · intro _
      rcases spacing_spec n d with ⟨h0, h1⟩ | ⟨h0, h1, -⟩
      · omega
      · refine (Nat.le_div_iff_mul_le hd).1 (Nat.le_trans ?_ h1)
        refine Nat.le_trans (show _ ≤ 2 ^ 23 * 2 ^ 254 by decide) ?_
        exact Nat.mul_le_mul_left _ (Nat.pow_le_pow_right (by decide) h)
    · intro _
      simp only [infPattern]
      omega

/-! ### Exact values -/

/-- A rounded pattern is at most infinity's. -/
theorem roundPattern_le (n d : Nat) : roundPattern n d ≤ infPattern := Nat.min_le_right _ _

theorem roundPattern_lt (n d : Nat) : roundPattern n d < 2 ^ 31 :=
  Nat.lt_of_le_of_lt (roundPattern_le n d) (by decide)

/-- A real that is a binary32 value rounds to it (R141). -/
theorem roundPattern_exact {n d p : Nat} (hd : 0 < d) (hp : p ≤ infPattern) (h : patternMag p * d = n) :
    roundPattern n d = p := by
  obtain ⟨h1, -⟩ := patternMag_nearest (n := n) hd p
  rw [h] at h1
  have h2 : patternMag (spacing n d * 2 ^ 23 + roundEven n (d * 2 ^ spacing n d)) * d = patternMag p * d := by omega
  rw [roundPattern, patternMag_inj (Nat.eq_of_mul_eq_mul_right hd h2), Nat.min_eq_left hp]

/-- A value that is not a NaN and not zero is the rounding of its own magnitude (R141). -/
theorem roundF32_exact {s : Bool} {n d : Nat} {x : F32} (hd : 0 < d) (hn : isNaN x = false) (h : fmag x * d = n)
    (hs : fsign x = s) : roundF32 s n d = x := by
  have hp : x.toNat % 2 ^ 31 ≤ infPattern := Nat.le_of_not_lt fun hx => by rw [(isNaN_iff x).2 hx] at hn; cases hn
  rw [roundF32, roundPattern_exact hd hp (by rw [← fmag_eq, h]), ← hs, withSign_fsign]

/-- The sign of a rounded value (R141). -/
theorem fsign_roundF32 (s : Bool) (n d : Nat) : fsign (roundF32 s n d) = s := fsign_withSign (roundPattern_lt n d)

/-- A rounded value is no NaN (R141). -/
theorem isNaN_roundF32 (s : Bool) (n d : Nat) : isNaN (roundF32 s n d) = false := by
  rw [Bool.eq_false_iff]
  intro h
  rw [isNaN_iff, roundF32, withSign_mod (roundPattern_lt n d)] at h
  have := roundPattern_le n d
  omega

/-- A zero has magnitude 0, and nothing else has. -/
theorem fmag_eq_zero (x : F32) : fmag x = 0 ↔ isZero x = true := by
  rw [isZero_iff, fmag_eq]
  exact ⟨fun h => patternMag_inj (h.trans (by decide)), fun h => by rw [h]; decide⟩

/-- An integer up to `2^24` is a binary32 value (41_accumulator_dequant.md R147). -/
theorem integer_pattern {r : Nat} (h : r ≤ 2 ^ 24) : ∃ p, p < infPattern ∧ patternMag p = r * 2 ^ 149 := by
  rcases Nat.eq_zero_or_pos r with rfl | h0
  · exact ⟨0, by decide, by decide⟩
  by_cases h24 : r = 2 ^ 24
  · subst h24
    exact ⟨149 * 2 ^ 23 + 2 ^ 24, by decide, patternMag_grid (.inr (by decide)) (Nat.le_refl _)⟩
  have hl := Nat.log2_self_le (Nat.ne_of_gt h0)
  have hh := @Nat.lt_log2_self r
  have hk : Nat.log2 r ≤ 23 := by
    refine Nat.le_of_not_lt fun hx => ?_
    have := Nat.pow_le_pow_right (n := 2) (by decide) hx
    omega
  have e1 : 2 ^ 23 ≤ r * 2 ^ (23 - Nat.log2 r) := by
    calc 2 ^ 23 = 2 ^ (Nat.log2 r) * 2 ^ (23 - Nat.log2 r) := by rw [← Nat.pow_add]; congr 1; omega
      _ ≤ _ := Nat.mul_le_mul_right _ hl
  have e2 : r * 2 ^ (23 - Nat.log2 r) ≤ 2 ^ 24 := by
    calc r * 2 ^ (23 - Nat.log2 r) ≤ 2 ^ (Nat.log2 r + 1) * 2 ^ (23 - Nat.log2 r) := Nat.mul_le_mul_right _ (Nat.le_of_lt hh)
      _ = 2 ^ 24 := by rw [← Nat.pow_add]; congr 1; omega
  refine ⟨(149 - (23 - Nat.log2 r)) * 2 ^ 23 + r * 2 ^ (23 - Nat.log2 r), ?_, ?_⟩
  · simp only [infPattern]; omega
  · rw [patternMag_grid (.inr e1) e2, Nat.mul_assoc, ← Nat.pow_add]; congr 2; omega

/-! ### The sign flip -/

theorem fneg_mod (x : F32) : (fneg x).toNat % 2 ^ 31 = x.toNat % 2 ^ 31 := by
  rw [fneg_eq, withSign_mod (Nat.mod_lt _ (by decide))]

@[simp] theorem fmag_fneg (x : F32) : fmag (fneg x) = fmag x := by rw [fmag_eq, fmag_eq, fneg_mod]

@[simp] theorem isNaN_fneg (x : F32) : isNaN (fneg x) = isNaN x := by
  rw [Bool.eq_iff_iff, isNaN_iff, isNaN_iff, fneg_mod]

@[simp] theorem isInf_fneg (x : F32) : isInf (fneg x) = isInf x := by
  rw [Bool.eq_iff_iff, isInf_iff, isInf_iff, fneg_mod]

@[simp] theorem isZero_fneg (x : F32) : isZero (fneg x) = isZero x := by
  rw [Bool.eq_iff_iff, isZero_iff, isZero_iff, fneg_mod]

@[simp] theorem fsign_fneg (x : F32) : fsign (fneg x) = !fsign x := by
  rw [fneg_eq, fsign_withSign (Nat.mod_lt _ (by decide))]

@[simp] theorem fval_fneg (x : F32) : fval (fneg x) = -fval x := by
  rw [fval, fval, fmag_fneg, fsign_fneg]
  cases fsign x <;> simp

/-- The two zeros (30_encoding.md R118). -/
theorem isZero_cases {x : F32} (h : isZero x = true) : x = 0x00000000#32 ∨ x = 0x80000000#32 := by
  rw [isZero_iff] at h
  have := x.isLt
  have : x.toNat = 0 ∨ x.toNat = 2 ^ 31 := by omega
  exact this.imp (fun h => BitVec.eq_of_toNat_eq h) fun h => BitVec.eq_of_toNat_eq h

/-- The magnitude and sign of a signed value. -/
theorem fval_natAbs (x : F32) : (fval x).natAbs = fmag x := by
  unfold fval
  split <;> omega

theorem fval_neg {x : F32} (h : isZero x = false) : decide (fval x < 0) = fsign x := by
  have hm : fmag x ≠ 0 := fun hz => by rw [(fmag_eq_zero x).1 hz] at h; cases h
  unfold fval
  cases fsign x <;> simp <;> omega

theorem fval_ne_zero {x : F32} (h : isZero x = false) : fval x ≠ 0 := fun hv => by
  have hm : fmag x = 0 := by rw [← fval_natAbs, hv]; rfl
  rw [(fmag_eq_zero x).1 hm] at h
  cases h

end Sys2Proof.Machine
end

