-- ==== Sys2Proof/Laws/PerInstr.lean ====
section
/-! SUPPORT. Statements made per command: the fields of its encoding (30_encoding.md R100, R101). -/

namespace Sys2Proof.Laws.Encoding

/-- The encoding of a command has zero in both reserved fields, its opcode in `OPC`, and the opcode map gives the
command back (30_encoding.md R100, R101); the command is legal on every instance, PACK where the Packing Stage is present (R101, R102). -/
def Statement (i : Instr) : Prop :=
  fieldRsv1 (encode i) = 0#32 ∧ fieldRsv0 (encode i) = 0#24 ∧ fieldOpc (encode i) = opcode i ∧
    decodeOpc (opcode i) = .ok i ∧ ∀ p : Params, i.wellFormed p = (i != .pack || p.packPresent)

theorem extract : Statement .extract := ⟨rfl, rfl, rfl, rfl, fun _ => rfl⟩

theorem dot : Statement .dot := ⟨rfl, rfl, rfl, rfl, fun _ => rfl⟩

theorem matmul : Statement .matmul := ⟨rfl, rfl, rfl, rfl, fun _ => rfl⟩

theorem pack : Statement .pack := ⟨rfl, rfl, rfl, rfl, fun _ => rfl⟩

end Sys2Proof.Laws.Encoding
end

