-- ==== Sys2Proof/Laws/Run.lean ====
section
/-! SUPPORT. The busy phase: what the ends of a run change (45_command_protocol.md R221, 60_exceptions.md R243), what a
worker's step does (10_state.md R53), and how a partition covers the rows (43_matmul_driver.md R186). -/

namespace Sys2Proof.Machine

/-! ### Free values and stopped commands -/

/-- The write footprint, byte by byte, is the output region (20_memory.md R83). -/
theorem mem_writeFootprint {op : Launch} {x : Int} : x ∈ op.writeFootprint ↔ op.inOutput x = true := by
  rw [inOutput_iff, Launch.writeFootprint, List.mem_map]
  constructor
  · rintro ⟨k, hk, rfl⟩
    have := List.mem_range.1 hk
    omega
  · intro h
    exact ⟨(x - op.outRegion.1).toNat, List.mem_range.2 (by omega), by omega⟩

/-- Free bytes go to addresses of the region. -/
theorem freeCells_addr {p : Params} {fresh : Nat} {region : List Int} {c : Host.Cell}
    (h : c ∈ freeCells p fresh region) : (c.1 : Int) ∈ region := by
  simp only [freeCells, List.mem_map] at h
  obtain ⟨y, hy, rfl⟩ := h
  have hy := List.mem_filter.1 (List.fst_mem_of_mem_zipIdx hy)
  have := (admitted_bounds hy.2).1
  rw [show ((y.1.toNat : Nat) : Int) = y.1 by omega]
  exact hy.1

/-- Scrambling changes memory and the draw counter alone. -/
theorem State.scramble_eq (region : List Int) (s : State) :
    s.scramble region = { s with mem := (s.scramble region).mem, fresh := (s.scramble region).fresh } := rfl

/-- Scrambling keeps the canonical form. -/
theorem State.scramble_wf {region : List Int} {s : State} (h : Memory.wf s.mem = true) :
    Memory.wf (s.scramble region).mem = true := Memory.wf_writeAll _ h

/-- Scrambling leaves every byte outside the region. -/
theorem State.scramble_read {region : List Int} {s : State} {x : Nat} (h : (x : Int) ∉ region) :
    Memory.read (s.scramble region).mem x = Memory.read s.mem x :=
  Memory.read_writeAll_other fun _ hc hx => h (hx ▸ freeCells_addr hc)

/-- An either-or cell goes to an address the command would have written, with the old byte or the new one. -/
theorem mem_eitherCells {mem0 : Memory} {fresh : Nat} {would : List Host.Cell} {c : Host.Cell}
    (h : c ∈ eitherCells mem0 fresh would) :
    ∃ d ∈ would, d.1 = c.1 ∧ (c.2 = d.2 ∨ c.2 = Memory.read mem0 c.1) := by
  simp only [eitherCells, List.mem_map] at h
  obtain ⟨y, hy, rfl⟩ := h
  refine ⟨y.1, List.fst_mem_of_mem_zipIdx hy, rfl, ?_⟩
  dsimp only
  split
  · exact .inl rfl
  · exact .inr rfl

/-- A stopped command changes memory and the draw counter alone (60_exceptions.md R241). -/
theorem State.abandon_eq (mem0 : Memory) (t : Bool) (region : List Int) (would : List Host.Cell) (s : State) :
    s.abandon mem0 t region would =
      { s with mem := (s.abandon mem0 t region would).mem, fresh := (s.abandon mem0 t region would).fresh } := by
  cases t <;> rfl

/-- A stopped command keeps the canonical form. -/
theorem State.abandon_wf {mem0 : Memory} {t : Bool} {region : List Int} {would : List Host.Cell} {s : State}
    (h : Memory.wf s.mem = true) : Memory.wf (s.abandon mem0 t region would).mem = true := by
  cases t
  · exact Memory.wf_writeAll _ h
  · exact State.scramble_wf h

/-- Every byte a stopped command would have written lies in its output region. -/
theorem wouldWrite_inOutput {p : Params} {m : Memory} {op : Launch} {c : Host.Cell} (h : c ∈ wouldWrite p m op) :
    op.inOutput c.1 = true := by
  rw [wouldWrite_eq, List.mem_flatMap] at h
  obtain ⟨e, he, hc⟩ := h
  cases ha : elementAdmitted p op e
  · simp [ha] at hc
  · rw [ha, if_pos rfl] at hc
    exact elementCells_inOutput he ha hc

/-- A byte put back goes to an address of the region, with its value from before. -/
theorem mem_beforeCells {mem0 : Memory} {region : List Int} {c : Host.Cell} :
    c ∈ beforeCells mem0 region ↔ (c.1 : Int) ∈ region ∧ c.2 = Memory.read mem0 c.1 := by
  simp only [beforeCells, List.mem_map, List.mem_filter, decide_eq_true_eq]
  constructor
  · rintro ⟨a, ⟨ha, h0⟩, rfl⟩
    exact ⟨by rwa [show ((a.toNat : Nat) : Int) = a by omega], rfl⟩
  · rintro ⟨h, hb⟩
    exact ⟨c.1, ⟨h, by omega⟩, Prod.ext (by simp) hb.symm⟩

/-- What a stopped command leaves of its output region, no host duty broken: each byte is the one from before, or one the
completed command would have written there (60_exceptions.md R243). -/
theorem State.abandon_output {mem0 : Memory} {region : List Int} {would : List Host.Cell} {s : State} {x : Nat}
    (hm : Memory.wf s.mem = true) (hx : (x : Int) ∈ region) :
    Memory.read (s.abandon mem0 false region would).mem x = Memory.read mem0 x ∨
      (x, Memory.read (s.abandon mem0 false region would).mem x) ∈ would := by
  have h := Memory.read_writeAll_mem (cs := beforeCells mem0 region ++ eitherCells mem0 s.fresh would) hm
    (c := (x, Memory.read mem0 x)) (List.mem_append_left _ (mem_beforeCells.2 ⟨hx, rfl⟩))
  rcases List.mem_append.1 h with h | h
  · exact .inl (mem_beforeCells.1 h).2
  · obtain ⟨d, hd, ha, hv | hv⟩ := mem_eitherCells h
    · exact .inr ((Prod.ext ha hv.symm : d = (x, _)) ▸ hd)
    · exact .inl hv

/-- A stopped command leaves every byte outside its output region (60_exceptions.md R243). -/
theorem State.abandon_read {p : Params} {m mem0 : Memory} {t : Bool} {op : Launch} {s : State} {x : Nat}
    (h : op.inOutput x = false) :
    Memory.read (s.abandon mem0 t op.writeFootprint (wouldWrite p m op)).mem x = Memory.read s.mem x := by
  cases t
  · refine Memory.read_writeAll_other fun c hc hx => ?_
    have : op.inOutput x = true := by
      rcases List.mem_append.1 hc with hc | hc
      · exact hx ▸ mem_writeFootprint.1 (mem_beforeCells.1 hc).1
      · obtain ⟨d, hd, hdc, -⟩ := mem_eitherCells hc
        exact hx ▸ hdc ▸ wouldWrite_inOutput hd
    rw [h] at this
    cases this
  · refine State.scramble_read fun hx => ?_
    rw [mem_writeFootprint.1 hx] at h
    cases h

/-! ### The end of a run -/

/-- Retiring ends `DONE`; besides the result registers, memory and the draw counter nothing changes. -/
theorem retire_eq (op : Launch) (v : F32) (t : Bool) (s : State) :
    retire op v t s = { s with
      dResult := (retire op v t s).dResult, outDtype := (retire op v t s).outDtype,
      outSize0 := (retire op v t s).outSize0, outSize1 := (retire op v t s).outSize1,
      engine := .done, mem := (retire op v t s).mem, fresh := (retire op v t s).fresh } := by
  have h : ∀ region, ∃ m f, s.scramble region = { s with mem := m, fresh := f } :=
    fun region => ⟨_, _, State.scramble_eq region s⟩
  cases t
  · cases op <;> rfl
  · cases op with
    | dot d => rfl
    | matmul a =>
      obtain ⟨m, f, hs⟩ := h (Launch.matmul a).writeFootprint
      simp only [retire, if_true, hs]
      rfl
    | pack a =>
      obtain ⟨m, f, hs⟩ := h (Launch.pack a).writeFootprint
      simp only [retire, if_true, hs]
      rfl

/-- Retiring keeps the canonical form. -/
theorem retire_wf {op : Launch} {v : F32} {t : Bool} {s : State} (h : Memory.wf s.mem = true) :
    Memory.wf (retire op v t s).mem = true := by
  cases t
  · cases op <;> exact h
  · cases op
    · exact h
    · exact State.scramble_wf h
    · exact State.scramble_wf h

/-- Retiring leaves every byte outside the output region. -/
theorem retire_read {op : Launch} {v : F32} {t : Bool} {s : State} {x : Nat} (h : op.inOutput x = false) :
    Memory.read (retire op v t s).mem x = Memory.read s.mem x := by
  have hx : (x : Int) ∉ op.writeFootprint := fun hx => by rw [mem_writeFootprint.1 hx] at h; cases h
  cases t
  · cases op <;> rfl
  · cases op
    · rfl
    · exact State.scramble_read hx
    · exact State.scramble_read hx

/-- Retiring an untainted run leaves memory. -/
theorem retire_mem (op : Launch) (v : F32) (s : State) : (retire op v false s).mem = s.mem := by cases op <;> rfl

/-- An abort ends `ABORT`; besides memory and the draw counter nothing changes (60_exceptions.md R241). -/
theorem abortRun_eq (op : Launch) (mem0 : Memory) (t : Bool) (c : AbortCode) (s : State) :
    abortRun op mem0 t c s = { s with
      engine := .abort c, mem := (abortRun op mem0 t c s).mem, fresh := (abortRun op mem0 t c s).fresh } := by
  cases t <;> rfl

/-- An abort keeps the canonical form. -/
theorem abortRun_wf {op : Launch} {mem0 : Memory} {t : Bool} {c : AbortCode} {s : State} (h : Memory.wf s.mem = true) :
    Memory.wf (abortRun op mem0 t c s).mem = true := State.abandon_wf h

/-- An abort leaves every byte outside the output region (60_exceptions.md R243). -/
theorem abortRun_read {op : Launch} {mem0 : Memory} {t : Bool} {c : AbortCode} {s : State} {x : Nat}
    (h : op.inOutput x = false) : Memory.read (abortRun op mem0 t c s).mem x = Memory.read s.mem x :=
  State.abandon_read h

/-- The bytes of a completed launch whose accesses are admitted lie in its output region. -/
theorem launchCells_inOutput {p : Params} {m : Memory} {op : Launch} (ha : op.admissible p = true) {c : Host.Cell}
    (h : c ∈ launchCells m op) : op.inOutput c.1 = true := by
  obtain ⟨e, he, hc⟩ := List.mem_flatMap.1 h
  have hd : ∀ d, op ≠ .dot d := by rintro d rfl; simp [elementCells] at hc
  rw [← elements_all_admitted p op hd, List.all_eq_true] at ha
  exact elementCells_inOutput he (ha e he) hc

/-- A launch without a plan ends `DONE` or `ABORT`, and changes besides the result registers memory and the draw counter
alone (45_command_protocol.md R223). -/
theorem complete_cases (op : Launch) (s : State) :
    (op.admissible s.par = true ∧
      complete op s = retire op (launchValue s.mem op) op.aliased (s.storeCells (launchCells s.mem op))) ∨
    (op.admissible s.par = false ∧ complete op s = abortRun op s.mem op.aliased .memory s) := by
  rw [complete, commandResult_eq]
  cases h : op.admissible s.par
  · exact .inr ⟨rfl, rfl⟩
  · exact .inl ⟨rfl, rfl⟩

/-- A launch without a plan keeps the canonical form. -/
theorem complete_wf {op : Launch} {s : State} (h : Memory.wf s.mem = true) : Memory.wf (complete op s).mem = true := by
  rcases complete_cases op s with ⟨-, he⟩ | ⟨-, he⟩ <;> rw [he]
  · exact retire_wf (Memory.wf_writeAll _ h)
  · exact abortRun_wf h

/-- A launch without a plan leaves every byte outside its output region (20_memory.md R77). -/
theorem complete_read {op : Launch} {s : State} {x : Nat} (h : op.inOutput x = false) :
    Memory.read (complete op s).mem x = Memory.read s.mem x := by
  rcases complete_cases op s with ⟨ha, he⟩ | ⟨-, he⟩ <;> rw [he]
  · rw [retire_read h]
    refine Memory.read_writeAll_other fun c hc hx => ?_
    rw [← hx, launchCells_inOutput ha hc] at h
    cases h
  · exact abortRun_read h

/-! ### A worker's step -/

/-- One element consumed. -/
theorem Worker.consumeElement_eq (p : Params) (m : Memory) (d : DotArgs) (w : Worker) :
    w.consumeElement p m d =
      if d.elementOk p w.l then .ok { w with l := w.l + 1, acc := fadd w.acc (productAt m d w.l) }
      else .error .memory := by
  rw [Worker.consumeElement, elementMac_eq]
  cases d.elementOk p w.l <;> rfl

/-- One block consumed. -/
theorem Worker.consumeBlock_eq (p : Params) (m : Memory) {d : DotArgs} (h : d.strategy = .v8) (w : Worker) :
    w.consumeBlock p m d =
      if (List.range Config.block).all fun k => d.elementOk p (Config.block * (w.l / Config.block) + k) then
        .ok { w with
          l := w.l + Config.block
          acc := fadd w.acc (reduce16
            ((List.range Config.block).map fun k => productAt m d (Config.block * (w.l / Config.block) + k)))
          lanes := (List.range Config.block).map fun k => productAt m d (Config.block * (w.l / Config.block) + k) }
      else .error .memory := by
  rw [Worker.consumeBlock, blockLanes_eq h]
  cases (List.range Config.block).all fun k => d.elementOk p (Config.block * (w.l / Config.block) + k) <;> rfl

/-- With one sub-value per byte the logical elements are the bytes. -/
theorem DotArgs.logical_v8 {d : DotArgs} (h : d.strategy = .v8) : d.logical = d.length := by
  simp [DotArgs.logical, h, Strategy.per, Strategy.bits, subsPerByte]

/-- What a step inside a dot product does: one element, or one full block of Strategy V (10_state.md R53). -/
theorem Worker.consume_cases (p : Params) (m : Memory) (d : DotArgs) (w : Worker)
    (hok : elementIndexOk d w.l = true) :
    (w.consume p m d = w.consumeElement p m d ∧ (d.strategy = .v8 → Config.block * d.blocks ≤ w.l)) ∨
    (w.consume p m d = w.consumeBlock p m d ∧ d.strategy = .v8 ∧ w.l + Config.block ≤ Config.block * d.blocks ∧
      Config.block * (w.l / Config.block) = w.l) := by
  unfold Worker.consume
  split
  · rename_i h; exact .inl ⟨rfl, fun hv => by rw [h] at hv; cases hv⟩
  · rename_i h; exact .inl ⟨rfl, fun hv => by rw [h] at hv; cases hv⟩
  · rename_i h
    split
    · rename_i hlt
      refine .inr ⟨rfl, h, ?_⟩
      simp only [elementIndexOk, h, bne_self_eq_false, Bool.false_or, Bool.and_eq_true, Bool.or_eq_true,
        decide_eq_true_eq, beq_iff_eq] at hok
      simp only [Config.block] at *
      omega
    · exact .inl ⟨rfl, fun _ => by omega⟩

/-- A step inside a dot product moves to a later element of it, changes the accumulator and the lanes, and nothing else
(10_state.md R53). -/
theorem Worker.consume_ok {p : Params} {m : Memory} {d : DotArgs} {w w' : Worker} (hl : w.l < d.logical)
    (hok : elementIndexOk d w.l = true) (h : w.consume p m d = .ok w') :
    w.l < w'.l ∧ w'.l ≤ d.logical ∧ elementIndexOk d w'.l = true ∧ w'.i = w.i ∧ w'.j = w.j ∧ w'.lo = w.lo ∧
      w'.hi = w.hi ∧ (w'.lanes = w.lanes ∨ w'.lanes.length = Config.block) := by
  rcases Worker.consume_cases p m d w hok with ⟨he, hv⟩ | ⟨he, hv, hb, hlb⟩
  · rw [he, Worker.consumeElement_eq] at h
    cases ha : d.elementOk p w.l <;> rw [ha] at h
    · cases h
    · cases h
      refine ⟨Nat.lt_succ_self _, hl, ?_, rfl, rfl, rfl, rfl, .inl rfl⟩
      simp only [elementIndexOk, Bool.and_eq_true, Bool.or_eq_true, decide_eq_true_eq]
      refine ⟨hl, ?_⟩
      by_cases hs : d.strategy = .v8
      · exact .inl (.inr (Nat.le_succ_of_le (hv hs)))
      · exact .inl (.inl (by simpa using hs))
  · rw [he, Worker.consumeBlock_eq p m hv] at h
    have hle := d.blocks_le
    rw [DotArgs.logical_v8 hv] at *
    split at h
    · cases h
      refine ⟨by simp [Config.block], by simp only; omega, ?_, rfl, rfl, rfl, rfl, .inr (by simp [Config.block])⟩
      simp only [elementIndexOk, DotArgs.logical_v8 hv, Bool.and_eq_true, Bool.or_eq_true, decide_eq_true_eq, beq_iff_eq]
      refine ⟨by omega, .inr ?_⟩
      simp only [Config.block] at *
      omega
    · cases h

/-- A step inside a dot product that aborts aborts for memory. -/
theorem Worker.consume_error {p : Params} {m : Memory} {d : DotArgs} {w : Worker} {c : AbortCode}
    (h : w.consume p m d = .error c) : c = .memory := by
  have helem : ∀ {c}, w.consumeElement p m d = .error c → c = .memory := fun h => by
    rw [Worker.consumeElement_eq] at h
    split at h <;> cases h
    rfl
  unfold Worker.consume at h
  split at h
  · exact helem h
  · exact helem h
  · rename_i hv
    split at h
    · rw [Worker.consumeBlock_eq p m hv] at h
      split at h <;> cases h
      rfl
    · exact helem h

/-- A worker that has stored a cell moves to the next with a cleared accumulator, in its own range (10_state.md R53). -/
theorem Worker.nextCell_eq (cols : Nat) (w : Worker) :
    w.nextCell cols =
      { w with
        i := if w.j + 1 < cols then w.i else w.i + 1, j := if w.j + 1 < cols then w.j + 1 else 0, l := 0,
        acc := accClr } := by
  unfold Worker.nextCell
  split <;> rfl

/-- The first element is in order. -/
theorem elementIndexOk_zero (d : DotArgs) : elementIndexOk d 0 = true := by
  simp [elementIndexOk]

/-- A MATMUL worker's step at the end of a sum: the cell stored, or an abort (43_matmul_driver.md R187). -/
theorem Worker.advance_matmul_store {p : Params} {m : Memory} {a : MatmulArgs} {w : Worker}
    (h : (a.cell w.i w.j).logical ≤ w.l) :
    w.advance p m (.matmul a) =
      if admitted p (a.outAddr w.i w.j) 4 then
        .ok (w.nextCell a.m, storedCells (a.outAddr w.i w.j).toNat 4 (fmul w.acc a.scale).toNat)
      else .error .memory := by
  simp only [Worker.advance, if_neg (Nat.not_lt.2 h), memWriteF32]
  cases ha : admitted p (a.outAddr w.i w.j) 4
  · rw [memWrite_error ha]; rfl
  · rw [memWrite_ok ha]; rfl

/-- A MATMUL worker's step inside a sum (43_matmul_driver.md R187). -/
theorem Worker.advance_matmul_sum {p : Params} {m : Memory} {a : MatmulArgs} {w : Worker}
    (h : w.l < (a.cell w.i w.j).logical) :
    w.advance p m (.matmul a) = (w.consume p m (a.cell w.i w.j)).map fun w' => (w', []) := by
  simp only [Worker.advance, if_pos h]
  cases w.consume p m (a.cell w.i w.j) <;> rfl

/-- A DOT worker's step (42_dot_product.md R175). -/
theorem Worker.advance_dot (p : Params) (m : Memory) (d : DotArgs) (w : Worker) :
    w.advance p m (.dot d) = (w.consume p m d).map fun w' => (w', []) := by
  simp only [Worker.advance]
  cases w.consume p m d <;> rfl

/-- A PACK worker's step: one packed byte, or an abort (44_packing_stage.md R206). -/
theorem Worker.advance_pack (p : Params) (m : Memory) (a : PackArgs) (w : Worker) :
    w.advance p m (.pack a) =
      if elementAdmitted p (.pack a) (w.i, w.j) then .ok (w.nextCell a.kb, elementCells m (.pack a) (w.i, w.j))
      else .error .memory := by
  simp only [Worker.advance, packStore_eq]
  cases elementAdmitted p (.pack a) (w.i, w.j) <;> rfl

/-- The row and column of a worker that is not finished are in the output (10_state.md R52). -/
theorem Worker.unfinished_matmul {a : MatmulArgs} {w : Worker} (hw : w.wellPlaced (.matmul a) = true)
    (hf : w.finished (.matmul a) = false) : w.lo ≤ w.i ∧ w.i < w.hi ∧ w.j < a.m ∧
      elementIndexOk (a.cell w.i w.j) w.l = true := by
  simp only [Worker.wellPlaced, Worker.finished, Bool.and_eq_true, Bool.or_eq_true, decide_eq_true_eq, beq_iff_eq,
    Bool.or_eq_false_iff, decide_eq_false_iff_not, Nat.not_le, beq_eq_false_iff_ne] at hw hf
  exact ⟨hw.2.1.1.1, hf.1, hw.2.1.2.resolve_left hf.2, hw.2.2⟩

/-- The row and column of a worker that is not finished are in the output (10_state.md R52). -/
theorem Worker.unfinished_pack {a : PackArgs} {w : Worker} (hw : w.wellPlaced (.pack a) = true)
    (hf : w.finished (.pack a) = false) : w.lo ≤ w.i ∧ w.i < w.hi ∧ w.j < a.kb := by
  simp only [Worker.wellPlaced, Worker.finished, Bool.and_eq_true, Bool.or_eq_true, decide_eq_true_eq, beq_iff_eq,
    Bool.or_eq_false_iff, decide_eq_false_iff_not, Nat.not_le, beq_eq_false_iff_ne] at hw hf
  exact ⟨hw.2.1.1, hf.1, hw.2.2.resolve_left hf.2⟩

/-- The element index of a DOT worker that is not finished. -/
theorem Worker.unfinished_dot {d : DotArgs} {w : Worker} (hw : w.wellPlaced (.dot d) = true)
    (hf : w.finished (.dot d) = false) : w.l < d.logical ∧ elementIndexOk d w.l = true := by
  simp only [Worker.wellPlaced, Worker.finished, Bool.and_eq_true, decide_eq_false_iff_not, Nat.not_le] at hw hf
  exact ⟨hf, hw.2⟩

/-- A step of a worker keeps it well placed in its own range (10_state.md R52, R53). -/
theorem Worker.advance_wellPlaced {p : Params} {m : Memory} {op : Launch} {w w' : Worker} {cells : List Host.Cell}
    (hw : w.wellPlaced op = true) (hf : w.finished op = false) (h : w.advance p m op = .ok (w', cells)) :
    w'.wellPlaced op = true ∧ w'.lo = w.lo ∧ w'.hi = w.hi := by
  have hlanes : (w.lanes.length == 0 || w.lanes.length == Config.block) = true := by
    simp only [Worker.wellPlaced, Bool.and_eq_true] at hw
    exact hw.1
  cases op with
  | dot d =>
    obtain ⟨hl, hok⟩ := Worker.unfinished_dot hw hf
    rw [Worker.advance_dot] at h
    cases hc : w.consume p m d with
    | error c => rw [hc] at h; cases h
    | ok w'' =>
      rw [hc] at h
      cases h
      obtain ⟨-, -, ho, -, -, hlo, hhi, hlan⟩ := Worker.consume_ok hl hok hc
      refine ⟨?_, hlo, hhi⟩
      simp only [Worker.wellPlaced, ho, Bool.and_true]
      rcases hlan with e | e <;> rw [e]
      · exact hlanes
      · rfl
  | matmul a =>
    obtain ⟨hlo, hhi, hj, hok⟩ := Worker.unfinished_matmul hw hf
    by_cases hl : w.l < (a.cell w.i w.j).logical
    · rw [Worker.advance_matmul_sum hl] at h
      cases hc : w.consume p m (a.cell w.i w.j) with
      | error c => rw [hc] at h; cases h
      | ok w'' =>
        rw [hc] at h
        cases h
        obtain ⟨-, -, ho, hi', hj', hlo', hhi', hlan⟩ := Worker.consume_ok hl hok hc
        refine ⟨?_, hlo', hhi'⟩
        simp only [Worker.wellPlaced, hi', hj', hlo', hhi', ho, Bool.and_true, Bool.and_eq_true, Bool.or_eq_true,
          decide_eq_true_eq]
        refine ⟨?_, ⟨hlo, Nat.le_of_lt hhi⟩, .inr hj⟩
        rcases hlan with e | e <;> rw [e]
        · simpa using hlanes
        · exact .inr rfl
    · rw [Worker.advance_matmul_store (Nat.not_lt.1 hl)] at h
      split at h
      · cases h
        rw [Worker.nextCell_eq]
        refine ⟨?_, rfl, rfl⟩
        simp only [Worker.wellPlaced, elementIndexOk_zero, Bool.and_true, Bool.and_eq_true, Bool.or_eq_true,
          decide_eq_true_eq]
        refine ⟨by simpa using hlanes, ⟨?_, ?_⟩, .inr ?_⟩ <;> split <;> omega
      · cases h
  | pack a =>
    obtain ⟨hlo, hhi, hj⟩ := Worker.unfinished_pack hw hf
    rw [Worker.advance_pack] at h
    split at h
    · cases h
      rw [Worker.nextCell_eq]
      refine ⟨?_, rfl, rfl⟩
      simp only [Worker.wellPlaced, Bool.and_eq_true, Bool.or_eq_true, decide_eq_true_eq]
      refine ⟨by simpa using hlanes, ⟨?_, ?_⟩, .inr ?_⟩ <;> split <;> omega
    · cases h

/-- A worker's step that aborts aborts for memory (60_exceptions.md R240, R241). -/
theorem Worker.advance_error {p : Params} {m : Memory} {op : Launch} {w : Worker} {c : AbortCode}
    (h : w.advance p m op = .error c) : c = .memory := by
  have hmap : ∀ {x : Except AbortCode Worker} {c : AbortCode},
      (x.map fun w' => (w', ([] : List Host.Cell))) = .error c → x = .error c := fun {x c} h => by
    cases x <;> cases h
    rfl
  cases op with
  | dot d =>
    rw [Worker.advance_dot] at h
    exact Worker.consume_error (hmap h)
  | matmul a =>
    by_cases hl : w.l < (a.cell w.i w.j).logical
    · rw [Worker.advance_matmul_sum hl] at h
      exact Worker.consume_error (hmap h)
    · rw [Worker.advance_matmul_store (Nat.not_lt.1 hl)] at h
      split at h <;> cases h
      rfl
  | pack a =>
    rw [Worker.advance_pack] at h
    split at h <;> cases h
    rfl

/-- A worker's step stores only in the output region (20_memory.md R77, 43_matmul_driver.md R187). -/
theorem Worker.advance_inOutput {p : Params} {m : Memory} {op : Launch} {w w' : Worker} {cells : List Host.Cell}
    (hw : w.wellPlaced op = true) (hf : w.finished op = false) (hn : w.hi ≤ op.rows)
    (h : w.advance p m op = .ok (w', cells)) : ∀ c ∈ cells, op.inOutput c.1 = true := by
  cases op with
  | dot d =>
    rw [Worker.advance_dot] at h
    cases hc : w.consume p m d with
    | error c => rw [hc] at h; cases h
    | ok w'' =>
      rw [hc] at h
      cases h
      intro c hc
      cases hc
  | matmul a =>
    obtain ⟨-, hhi, hj, -⟩ := Worker.unfinished_matmul hw hf
    by_cases hl : w.l < (a.cell w.i w.j).logical
    · rw [Worker.advance_matmul_sum hl] at h
      cases hc : w.consume p m (a.cell w.i w.j) with
      | error c => rw [hc] at h; cases h
      | ok w'' =>
        rw [hc] at h
        cases h
        intro c hc
        cases hc
    · rw [Worker.advance_matmul_store (Nat.not_lt.1 hl)] at h
      split at h
      · rename_i ha
        cases h
        intro c hc
        have hb := admitted_bounds ha
        have hcb := storedCells_addr hc
        have hlt := rowMajor_lt (Nat.lt_of_lt_of_le hhi hn) hj
        have ho : a.outAddr w.i w.j = a.out + 4 * ((w.i * a.m + w.j : Nat) : Int) := by simp [MatmulArgs.outAddr]
        rw [inOutput_iff]
        dsimp only [Launch.outRegion, Launch.rows] at *
        have hmul : ((4 * a.n * a.m : Nat) : Int) = 4 * ((a.n * a.m : Nat) : Int) := by simp [Int.mul_assoc]
        omega
      · cases h
  | pack a =>
    obtain ⟨-, hhi, hj⟩ := Worker.unfinished_pack hw hf
    rw [Worker.advance_pack] at h
    split at h
    · rename_i ha
      cases h
      exact fun c hc => elementCells_inOutput (mem_elements_pack.2 ⟨Nat.lt_of_lt_of_le hhi hn, hj⟩) ha hc
    · cases h

/-! ### Ranges -/

/-- The ranges of a chain lie between its ends. -/
theorem chained_bounds {lo n : Nat} {rs : List (Nat × Nat)} (h : chained lo n rs = true) :
    lo ≤ n ∧ ∀ r ∈ rs, lo ≤ r.1 ∧ r.1 ≤ r.2 ∧ r.2 ≤ n := by
  induction rs generalizing lo with
  | nil =>
    simp only [chained, beq_iff_eq] at h
    exact ⟨Nat.le_of_eq h, fun r hr => nomatch hr⟩
  | cons r rs ih =>
    simp only [chained, Bool.and_eq_true, beq_iff_eq, decide_eq_true_eq] at h
    have hi := ih h.2
    refine ⟨by omega, fun q hq => ?_⟩
    rcases List.mem_cons.1 hq with rfl | hq
    · omega
    · have := hi.2 q hq
      omega

/-- Every row of a chain lies in one of its ranges. -/
theorem chained_covers {lo n : Nat} {rs : List (Nat × Nat)} (h : chained lo n rs = true) {i : Nat} (hlo : lo ≤ i)
    (hn : i < n) : ∃ r ∈ rs, r.1 ≤ i ∧ i < r.2 := by
  induction rs generalizing lo with
  | nil => simp only [chained, beq_iff_eq] at h; omega
  | cons r rs ih =>
    simp only [chained, Bool.and_eq_true, beq_iff_eq, decide_eq_true_eq] at h
    by_cases hi : i < r.2
    · exact ⟨r, List.mem_cons_self, by omega, hi⟩
    · obtain ⟨q, hq, h1⟩ := ih h.2 (by omega)
      exact ⟨q, List.mem_cons_of_mem _ hq, h1⟩

/-- The ranges from cut points are a chain. -/
theorem chained_rangesFrom {lo n : Nat} (cuts : List Nat) (h : lo ≤ n) : chained lo n (rangesFrom lo n cuts) = true := by
  induction cuts generalizing lo with
  | nil => simp [rangesFrom, chained, h]
  | cons c cuts ih =>
    simp only [rangesFrom, chained, beq_self_eq_true, Bool.true_and, Bool.and_eq_true, decide_eq_true_eq]
    exact ⟨by omega, ih (by omega)⟩

/-- A partition is a chain over the rows (43_matmul_driver.md R186). -/
theorem chained_partitionRows (workers n : Nat) (cuts : List Nat) :
    chained 0 n (partitionRows workers n cuts) = true := chained_rangesFrom _ (Nat.zero_le n)

/-- The workers of a run that begins are well placed and cover the rows (10_state.md R41, R53). -/
theorem startWorkers_ok (workers : Nat) (cuts : List Nat) (op : Launch) :
    (startWorkers workers cuts op).all (Worker.wellPlaced op) = true ∧
      chained 0 op.rows ((startWorkers workers cuts op).map fun w => (w.lo, w.hi)) = true := by
  cases op with
  | dot d =>
    refine ⟨?_, rfl⟩
    simp only [startWorkers, List.all_cons, List.all_nil, Bool.and_true]
    exact elementIndexOk_zero d
  | matmul a =>
    have hc := chained_partitionRows workers a.n cuts
    refine ⟨?_, ?_⟩
    · rw [List.all_eq_true]
      intro w hw
      obtain ⟨r, hr, rfl⟩ := List.mem_map.1 hw
      have hb := (chained_bounds hc).2 r hr
      simp only [Worker.wellPlaced, Worker.start, List.length_nil, beq_self_eq_true, Bool.true_or, Bool.true_and,
        elementIndexOk_zero, Bool.and_true, Bool.and_eq_true, Bool.or_eq_true, beq_iff_eq]
      exact ⟨⟨decide_eq_true (Nat.le_refl _), decide_eq_true hb.2.1⟩,
        (Nat.eq_zero_or_pos a.m).imp id fun h => decide_eq_true h⟩
    · simp only [startWorkers, List.map_map, Function.comp_def, Worker.start, Launch.rows]
      simpa using hc
  | pack a =>
    refine ⟨?_, ?_⟩
    · simp only [startWorkers, List.all_cons, List.all_nil, Bool.and_true, Worker.wellPlaced, Worker.start,
        List.length_nil, beq_self_eq_true, Bool.true_or, Bool.true_and, Bool.and_eq_true, Bool.or_eq_true,
        decide_eq_true_eq, beq_iff_eq]
      omega
    · simp [startWorkers, Worker.start, chained, Launch.rows]

/-- A run keeps its order when one worker is replaced by one well placed in the same range. -/
theorem Run.ok_set {r : Run} {w : Nat} {wk wk' : Worker} (h : r.ok = true) (hw : r.workers[w]? = some wk)
    (hp : wk'.wellPlaced r.op = true) (hlo : wk'.lo = wk.lo) (hhi : wk'.hi = wk.hi) :
    Run.ok { r with workers := r.workers.set w wk' } = true := by
  simp only [Run.ok, Bool.and_eq_true] at h ⊢
  refine ⟨⟨h.1.1, ?_⟩, ?_⟩
  · rw [List.all_eq_true] at *
    intro x hx
    rcases List.mem_or_eq_of_mem_set hx with hx | rfl
    · exact h.1.2 x hx
    · exact hp
  · have : (r.workers.set w wk').map (fun x => (x.lo, x.hi)) = r.workers.map fun x => (x.lo, x.hi) := by
      rw [List.map_set, hlo, hhi]
      have hlt : w < r.workers.length := (List.getElem?_eq_some_iff.1 hw).1
      have hget := (List.getElem?_eq_some_iff.1 hw).2
      apply List.ext_getElem? 
      intro k
      rw [List.getElem?_set]
      split
      · rename_i hk
        subst hk
        simp [hlt, ← hget]
      · rfl
    rw [this]
    exact h.2

/-- The workers of a run in order, one by one. -/
theorem Run.ok_worker {r : Run} {w : Nat} {wk : Worker} (h : r.ok = true) (hw : r.workers[w]? = some wk) :
    wk.wellPlaced r.op = true ∧ wk.hi ≤ r.op.rows := by
  simp only [Run.ok, Bool.and_eq_true, List.all_eq_true] at h
  have hm : wk ∈ r.workers := List.mem_of_getElem? hw
  exact ⟨h.1.2 wk hm, ((chained_bounds h.2).2 _ (List.mem_map_of_mem hm)).2.2⟩

end Sys2Proof.Machine
end

