-- ==== Sys2Proof/Laws/Schedule.lean ====
section
/-! SUPPORT. A busy phase against the one transition of 45_command_protocol.md R223: the partial sum a worker holds
(41_accumulator_dequant.md R151), what a worker has done (10_state.md R53), and how much it has left. -/

namespace Sys2Proof.Machine

/-! ### Partial sums -/

/-- The sum of the first `l` elements of a dot product in its strategy's order (42_dot_product.md R164, R169). -/
def partialSum (m : Memory) (d : DotArgs) (l : Nat) : F32 :=
  match d.strategy with
  | .s4 => ascendingSum m d accClr 0 l
  | .s8 => ascendingSum m d accClr 0 l
  | .v8 =>
    if l < Config.block * d.blocks then blockSum m d (l / Config.block)
    else ascendingSum m d (blockSum m d d.blocks) (Config.block * d.blocks) (l - Config.block * d.blocks)

theorem ascendingSum_succ (m : Memory) (d : DotArgs) (acc : F32) (start count : Nat) :
    ascendingSum m d acc start (count + 1) = fadd (ascendingSum m d acc start count) (productAt m d (start + count)) := by
  rw [ascendingSum, List.range_succ, List.foldl_append]
  rfl

theorem blockSum_succ (m : Memory) (d : DotArgs) (count : Nat) :
    blockSum m d (count + 1) = fadd (blockSum m d count)
      (reduce16 ((List.range Config.block).map fun k => productAt m d (Config.block * count + k))) := by
  rw [blockSum, List.range_succ, List.foldl_append]
  rfl

/-- Nothing summed is `ACC.CLR`. -/
theorem partialSum_zero (m : Memory) (d : DotArgs) : partialSum m d 0 = accClr := by
  unfold partialSum
  split
  · rfl
  · rfl
  · split
    · rw [Nat.zero_div]; rfl
    · rename_i h
      have hb : d.blocks = 0 := by simp only [Config.block] at h; omega
      rw [hb]
      rfl

/-- One element more. -/
theorem partialSum_element {m : Memory} {d : DotArgs} {l : Nat}
    (hv : d.strategy = .v8 → Config.block * d.blocks ≤ l) :
    partialSum m d (l + 1) = fadd (partialSum m d l) (productAt m d l) := by
  unfold partialSum
  split
  · rw [ascendingSum_succ, Nat.zero_add]
  · rw [ascendingSum_succ, Nat.zero_add]
  · rename_i h
    have hl := hv h
    rw [if_neg (by omega), if_neg (by omega), show l + 1 - Config.block * d.blocks = l - Config.block * d.blocks + 1 by omega,
      ascendingSum_succ, Nat.add_sub_cancel' hl]

/-- One block more. -/
theorem partialSum_block {m : Memory} {d : DotArgs} {l : Nat} (hv : d.strategy = .v8)
    (hl : Config.block * (l / Config.block) = l) (hb : l + Config.block ≤ Config.block * d.blocks) :
    partialSum m d (l + Config.block) = fadd (partialSum m d l)
      (reduce16 ((List.range Config.block).map fun k => productAt m d (Config.block * (l / Config.block) + k))) := by
  have hdiv : (l + Config.block) / Config.block = l / Config.block + 1 := Nat.add_div_right _ (by decide)
  unfold partialSum
  rw [hv]
  simp only
  rw [if_pos (show l < Config.block * d.blocks by simp only [Config.block] at *; omega), ← blockSum_succ]
  split
  · rw [hdiv]
  · have : d.blocks = l / Config.block + 1 := by simp only [Config.block] at *; omega
    rw [← this, show l + Config.block - Config.block * d.blocks = 0 by omega]
    rfl

/-- Everything summed is the sum of the dot product. -/
theorem partialSum_logical (m : Memory) (d : DotArgs) : partialSum m d d.logical = dotSum m d := by
  unfold partialSum dotSum
  cases h : d.strategy
  · rfl
  · rfl
  · have := d.blocks_le
    simp only
    rw [DotArgs.logical_v8 h, if_neg (by omega)]

/-- A dot product is readable exactly when every element is. -/
theorem readable_iff {p : Params} {d : DotArgs} : d.readable p = true ↔ ∀ l < d.logical, d.elementOk p l = true := by
  simp only [DotArgs.readable, DotArgs.elementOk, Bool.and_eq_true, List.all_eq_true, List.mem_range]
  constructor
  · intro h l hl
    exact ⟨h.1 _ ((Nat.div_lt_iff_lt_mul d.strategy.per_pos).2 hl), h.2 l hl⟩
  · intro h
    refine ⟨fun t ht => ?_, fun l hl => (h l hl).2⟩
    have := (h (t * d.strategy.per) (Nat.mul_lt_mul_of_pos_right ht d.strategy.per_pos)).1
    rwa [Nat.mul_div_cancel _ d.strategy.per_pos] at this

/-! ### A worker's sum -/

/-- A worker's accumulator is the partial sum, in memory `m`, of the elements it has consumed, all of them admitted. -/
def Worker.holdsSum (p : Params) (m : Memory) (d : DotArgs) (w : Worker) : Prop :=
  w.acc = partialSum m d w.l ∧ ∀ l < w.l, d.elementOk p l = true

/-- A worker at the start of a cell holds its empty sum. -/
theorem Worker.holdsSum_zero {p : Params} {m : Memory} {d : DotArgs} {w : Worker} (hl : w.l = 0) (ha : w.acc = accClr) :
    w.holdsSum p m d := by
  refine ⟨?_, fun l h => by omega⟩
  rw [hl, ha, partialSum_zero]

/-- A step inside a dot product keeps the worker's sum, where the memory read agrees with `m0` (43_matmul_driver.md R188). -/
theorem Worker.consume_holdsSum {p : Params} {m m0 : Memory} {d : DotArgs} {w w' : Worker} (hl : w.l < d.logical)
    (hok : elementIndexOk d w.l = true) (hs : w.holdsSum p m0 d)
    (hm : ∀ l < d.logical, d.elementOk p l = true → productAt m d l = productAt m0 d l)
    (h : w.consume p m d = .ok w') : w'.holdsSum p m0 d := by
  rcases Worker.consume_cases p m d w hok with ⟨he, hv⟩ | ⟨he, hv, hb, hlb⟩
  · rw [he, Worker.consumeElement_eq] at h
    split at h
    · rename_i ha
      cases h
      refine ⟨?_, fun l h => ?_⟩
      · simp only
        rw [partialSum_element hv, hs.1, hm _ hl ha]
      · rcases Nat.lt_succ_iff_lt_or_eq.1 h with h | h
        · exact hs.2 l h
        · rw [h]; exact ha
    · cases h
  · rw [he, Worker.consumeBlock_eq p m hv] at h
    split at h
    · rename_i ha
      cases h
      rw [hlb] at ha ⊢
      rw [List.all_eq_true] at ha
      have hle := d.blocks_le
      have hlog := DotArgs.logical_v8 hv
      have hprod : ((List.range Config.block).map fun k => productAt m d (w.l + k)) =
          (List.range Config.block).map fun k => productAt m0 d (w.l + k) :=
        List.map_congr_left fun k hk => hm _ (by have := List.mem_range.1 hk; omega) (ha k hk)
      refine ⟨?_, fun l h => ?_⟩
      · simp only
        rw [partialSum_block hv hlb hb, hs.1, hprod, hlb]
      · by_cases h1 : l < w.l
        · exact hs.2 l h1
        · have := ha (l - w.l) (List.mem_range.2 (by simp only at h; omega))
          rwa [show w.l + (l - w.l) = l by omega] at this
    · cases h

/-- A step inside a dot product aborts only on an element that is not admitted. -/
theorem Worker.consume_not_readable {p : Params} {m : Memory} {d : DotArgs} {w : Worker} {c : AbortCode}
    (hl : w.l < d.logical) (hok : elementIndexOk d w.l = true) (h : w.consume p m d = .error c) :
    d.readable p = false := by
  rw [Bool.eq_false_iff]
  intro hr
  rw [readable_iff] at hr
  rcases Worker.consume_cases p m d w hok with ⟨he, -⟩ | ⟨he, hv, hb, hlb⟩
  · rw [he, Worker.consumeElement_eq, hr _ hl] at h
    cases h
  · have hle := d.blocks_le
    have hlog := DotArgs.logical_v8 hv
    rw [he, Worker.consumeBlock_eq p m hv, if_pos] at h
    · cases h
    · rw [List.all_eq_true]
      intro k hk
      have := List.mem_range.1 hk
      exact hr _ (by omega)

/-! ### Inputs that the output does not touch -/

/-- A byte the command reads is outside its output region (host duty H2 kept; 70_reset_and_hazards.md R270). -/
theorem not_inOutput_of_read {op : Launch} (h : op.aliased = false) {x : Int} (hx : x ∈ op.readFootprint) :
    op.inOutput x = false := by
  rw [Launch.aliased, Bool.and_eq_false_iff] at h
  rcases h with h | h
  · rw [Bool.eq_false_iff]
    intro hi
    rw [inOutput_iff] at hi
    have := of_decide_eq_false h
    omega
  · rw [List.any_eq_false] at h
    simpa using h x hx

/-- The bytes of an element of a MATMUL's dot product are in its read footprint (20_memory.md R83). -/
theorem matmul_reads {a : MatmulArgs} {i j l : Nat} (hi : i < a.n) (hj : j < a.m) (hl : l < (a.cell i j).logical)
    {x : Int} (hx : (a.cell i j).reads l x) : x ∈ (Launch.matmul a).readFootprint := by
  have hne : ¬ (a.n = 0 ∨ a.m = 0) := by omega
  simp only [Launch.readFootprint, MatmulArgs.readFootprint, if_neg hne, List.mem_append, List.mem_flatMap, List.mem_map,
    List.mem_range]
  have hlog : (a.cell i j).logical = a.a.size1 * a.strategy.per := rfl
  rcases hx with rfl | ⟨b, hb, rfl⟩
  · refine .inl ⟨i, hi, l / a.strategy.per, (Nat.div_lt_iff_lt_mul a.strategy.per_pos).2 (hlog ▸ hl), ?_⟩
    show a.a.addr 1 i _ = a.a.base + i * a.a.stride0 + _ * a.a.stride1
    rw [View.addr, Int.one_mul, Int.add_assoc]
    rfl
  · refine .inr ⟨l, hlog ▸ hl, j, hj, ?_⟩
    refine List.mem_map.2 ⟨b, List.mem_range.2 hb, ?_⟩
    have : a.b.addr 4 l j = (a.cell i j).denseAddr l := by
      show a.b.base + 4 * (l * a.b.stride0 + j * a.b.stride1) = a.b.base + 4 * j * a.b.stride1 + 4 * l * a.b.stride0
      rw [Int.mul_add, Int.mul_assoc, Int.mul_assoc]
      omega
    rw [this]

/-- A product is the same in a memory that differs only in the output region (43_matmul_driver.md R188). -/
theorem matmul_product_congr {p : Params} {m m0 : Memory} {a : MatmulArgs} (h : (Launch.matmul a).aliased = false)
    (hm : ∀ x : Nat, (Launch.matmul a).inOutput x = false → Memory.read m x = Memory.read m0 x) {i j : Nat} (hi : i < a.n)
    (hj : j < a.m) {l : Nat} (hl : l < (a.cell i j).logical) (ha : (a.cell i j).elementOk p l = true) :
    productAt m (a.cell i j) l = productAt m0 (a.cell i j) l := by
  simp only [DotArgs.elementOk, Bool.and_eq_true] at ha
  have h1 := (admitted_bounds ha.1).1
  have h2 := (admitted_bounds ha.2).1
  refine productAt_congr h2 fun x hx => hm _ ?_
  have h0 : 0 ≤ x := by
    rcases hx with rfl | ⟨b, hb, rfl⟩
    · exact h1
    · omega
  rw [Int.toNat_of_nonneg h0]
  exact not_inOutput_of_read h (matmul_reads hi hj hl hx)

/-- A packed byte is the same from a memory that differs only in the output region (44_packing_stage.md R207). -/
theorem pack_cells_congr {p : Params} {m m0 : Memory} {a : PackArgs} (h : (Launch.pack a).aliased = false)
    (hm : ∀ x : Nat, (Launch.pack a).inOutput x = false → Memory.read m x = Memory.read m0 x) {i t : Nat} (hi : i < a.n)
    (ht : t < a.kb) (ha : elementAdmitted p (.pack a) (i, t) = true) :
    elementCells m (.pack a) (i, t) = elementCells m0 (.pack a) (i, t) := by
  simp only [elementAdmitted, Bool.and_eq_true, List.all_eq_true, List.mem_range] at ha
  have hcode : ∀ s < subsPerByte a.bits, packCode m a i (t * subsPerByte a.bits + s) =
      packCode m0 a i (t * subsPerByte a.bits + s) := by
    intro s hs
    have h0 := (admitted_bounds (ha.1 s hs)).1
    have : packInput m a i (t * subsPerByte a.bits + s) = packInput m0 a i (t * subsPerByte a.bits + s) := by
      refine congrArg _ (bytesAt_congr fun b hb => hm _ ?_)
      refine not_inOutput_of_read h ?_
      simp only [Launch.readFootprint, PackArgs.readFootprint, List.mem_flatMap, List.mem_range]
      refine ⟨i, hi, t * subsPerByte a.bits + s, ?_, ?_⟩
      · calc t * subsPerByte a.bits + s < t * subsPerByte a.bits + subsPerByte a.bits := Nat.add_lt_add_left hs _
          _ = (t + 1) * subsPerByte a.bits := (Nat.succ_mul _ _).symm
          _ ≤ a.kb * subsPerByte a.bits := Nat.mul_le_mul_right _ ht
      · refine List.mem_map.2 ⟨b, List.mem_range.2 hb, ?_⟩
        omega
    rw [packCode, packCode, this]
  simp only [elementCells]
  rw [List.map_congr_left fun s hs => hcode s (List.mem_range.1 hs)]

/-! ### How much is left -/

/-- A bound on the steps a worker has left (10_state.md R53). -/
def Worker.left (op : Launch) (w : Worker) : Nat :=
  match op with
  | .dot d => d.logical - w.l
  | .matmul a =>
    (w.hi - w.i) * ((a.m + 1) * (a.a.size1 * a.strategy.per + 2)) + (a.m - w.j) * (a.a.size1 * a.strategy.per + 2) +
      (a.a.size1 * a.strategy.per + 1 - w.l)
  | .pack a => (w.hi - w.i) * (a.kb + 1) + (a.kb - w.j)

/-- A step inside a dot product consumes an element. -/
theorem Worker.consume_l {p : Params} {m : Memory} {d : DotArgs} {w w' : Worker} (h : w.consume p m d = .ok w') :
    w.l < w'.l ∧ w'.i = w.i ∧ w'.j = w.j ∧ w'.hi = w.hi := by
  have helem : ∀ {w'}, w.consumeElement p m d = .ok w' → w.l < w'.l ∧ w'.i = w.i ∧ w'.j = w.j ∧ w'.hi = w.hi := fun h => by
    rw [Worker.consumeElement_eq] at h
    split at h <;> cases h
    exact ⟨Nat.lt_succ_self _, rfl, rfl, rfl⟩
  unfold Worker.consume at h
  split at h
  · exact helem h
  · exact helem h
  · rename_i hv
    split at h
    · rw [Worker.consumeBlock_eq p m hv] at h
      split at h <;> cases h
      exact ⟨by simp [Config.block], rfl, rfl, rfl⟩
    · exact helem h

/-- A step of an unfinished worker leaves less to do, at whatever position it is. -/
theorem Worker.advance_left {p : Params} {m : Memory} {op : Launch} {w w' : Worker} {cells : List Host.Cell}
    (hf : w.finished op = false) (h : w.advance p m op = .ok (w', cells)) : w'.left op < w.left op := by
  cases op with
  | dot d =>
    simp only [Worker.finished, decide_eq_false_iff_not, Nat.not_le] at hf
    rw [Worker.advance_dot] at h
    cases hc : w.consume p m d with
    | error c => rw [hc] at h; cases h
    | ok w'' =>
      rw [hc] at h
      cases h
      have := (Worker.consume_l hc).1
      simp only [Worker.left]
      omega
  | matmul a =>
    simp only [Worker.finished, Bool.or_eq_false_iff, decide_eq_false_iff_not, Nat.not_le, beq_eq_false_iff_ne] at hf
    by_cases hl : w.l < (a.cell w.i w.j).logical
    · rw [Worker.advance_matmul_sum hl] at h
      cases hc : w.consume p m (a.cell w.i w.j) with
      | error c => rw [hc] at h; cases h
      | ok w'' =>
        rw [hc] at h
        cases h
        obtain ⟨h1, h2, h3, h4⟩ := Worker.consume_l hc
        have hlog : (a.cell w.i w.j).logical = a.a.size1 * a.strategy.per := rfl
        simp only [Worker.left, h2, h3, h4]
        omega
    · rw [Worker.advance_matmul_store (Nat.not_lt.1 hl)] at h
      split at h
      · cases h
        rw [Worker.nextCell_eq]
        simp only [Worker.left]
        generalize a.a.size1 * a.strategy.per = K
        split
        · have e : a.m - w.j = a.m - (w.j + 1) + 1 := by omega
          rw [e, Nat.succ_mul (a.m - (w.j + 1))]
          omega
        · have e : w.hi - w.i = w.hi - (w.i + 1) + 1 := by omega
          rw [e, Nat.succ_mul (w.hi - (w.i + 1)), Nat.succ_mul a.m, Nat.sub_zero]
          omega
      · cases h
  | pack a =>
    simp only [Worker.finished, Bool.or_eq_false_iff, decide_eq_false_iff_not, Nat.not_le, beq_eq_false_iff_ne] at hf
    rw [Worker.advance_pack] at h
    split at h
    · cases h
      rw [Worker.nextCell_eq]
      simp only [Worker.left]
      split
      · omega
      · have e : w.hi - w.i = w.hi - (w.i + 1) + 1 := by omega
        rw [e, Nat.succ_mul]
        omega
    · cases h

/-- What a run has left is what its workers have left. -/
def Run.left (r : Run) : Nat := (r.workers.map (Worker.left r.op)).sum

/-- Less left for one worker is less left for the run. -/
theorem Run.left_set {r : Run} {w : Nat} {wk wk' : Worker} (hw : r.workers[w]? = some wk)
    (h : wk'.left r.op < wk.left r.op) : Run.left { r with workers := r.workers.set w wk' } < r.left := by
  have key : ∀ (l : List Worker) (k : Nat), l[k]? = some wk →
      ((l.set k wk').map (Worker.left r.op)).sum < (l.map (Worker.left r.op)).sum := by
    intro l
    induction l with
    | nil => intro k hk; cases hk
    | cons a l ih =>
      intro k hk
      cases k with
      | zero =>
        rw [List.getElem?_cons_zero] at hk
        cases hk
        simp only [List.set_cons_zero, List.map_cons, List.sum_cons]
        omega
      | succ k =>
        rw [List.getElem?_cons_succ] at hk
        simp only [List.set_cons_succ, List.map_cons, List.sum_cons]
        have := ih k hk
        omega
  exact key r.workers w hw

end Sys2Proof.Machine
end

