-- ==== Sys2Proof/Machine/Program.lean ====
section
/-! DEFINITION. The textual lines of host programs (30_encoding.md R120 to R122) as lists of host actions, and the bus
form of an access (R120, 00_scope.md R8 `QME_BASE`). -/

namespace Sys2Proof.Machine

/-- `WR <reg>, <value>` (R120). -/
def wr (r : Reg) (v : Word64) : List HostAction := [.write r.number v]

/-- `RD <reg>` (R120). -/
def rd (r : Reg) : List HostAction := [.read r.number]

/-- The line of a command: `WR CMD, <its value>` (R120). -/
def commandLine (i : Instr) : List HostAction := wr .cmd (encode i)

/-- `WAIT` (R121). -/
def waitLine : List HostAction := [.wait]

/-- The binary32 pattern of a literal of sign `neg` and magnitude `num / den`, "rounded to nearest even if not exact"
(R121); a literal 0 is the zero of its sign. -/
def f32Literal (neg : Bool) (num den : Nat) : F32 :=
  if num = 0 then signedZero neg else roundF32 neg (num * oneUnits) den

/-- `WRF <reg>, <float>` (R121). -/
def wrf (r : Reg) (v : F32) : List HostAction := wr r (v.setWidth 64)

/-- `DESC A, base, dtype, size0, size1, stride0, stride1` (R121). -/
def descA (d : Desc) : List HostAction :=
  wr .aBase d.base ++ wr .aDtype (d.dtype.setWidth 64) ++ wr .aSize0 d.size0 ++ wr .aSize1 d.size1 ++
    wr .aStride0 d.stride0 ++ wr .aStride1 d.stride1

/-- `DESC B, ...` (R121). -/
def descB (d : Desc) : List HostAction :=
  wr .bBase d.base ++ wr .bDtype (d.dtype.setWidth 64) ++ wr .bSize0 d.size0 ++ wr .bSize1 d.size1 ++
    wr .bStride0 d.stride0 ++ wr .bStride1 d.stride1

/-- `QPARAMS bits, scale, zero_point` (R121). -/
def qparams (bits : Word64) (scale zp : F32) : List HostAction :=
  wr .bits bits ++ wrf .scale scale ++ wrf .zeroPoint zp

/-- One call of `matmul_quant` (R122). -/
def matmulQuant (a b : Desc) (bits : Word64) (scale zp : F32) (out : Word64) : List HostAction :=
  descA a ++ descB b ++ qparams bits scale zp ++ wr .outBase out ++ commandLine .matmul ++ waitLine

/-- One call of `quantize_and_pack` (R122). -/
def quantizeAndPack (a : Desc) (bits : Word64) (scale zp : F32) (out : Word64) : List HostAction :=
  descA a ++ qparams bits scale zp ++ wr .outBase out ++ commandLine .pack ++ waitLine

/-- The bus address of register `r`: `QME_BASE + 8 * r` (00_scope.md R8). -/
def busAddress (p : Params) (r : Nat) : Nat := p.qmeBase + 8 * r

/-- The register number a 64-bit bus access at an address reaches, if the platform routes it to QME (R120). -/
def busNumber (p : Params) (addr : Nat) : Option Nat :=
  if p.qmeBase ≤ addr ∧ (addr - p.qmeBase) % 8 = 0 then some ((addr - p.qmeBase) / 8) else none

/-- A 64-bit store on the host's bus as a host action (R120). -/
def busStore (p : Params) (addr : Nat) (v : Word64) : Option HostAction :=
  (busNumber p addr).map fun r => .write r v

/-- A 64-bit load on the host's bus as a host action (R120). -/
def busLoad (p : Params) (addr : Nat) : Option HostAction :=
  (busNumber p addr).map fun r => .read r

end Sys2Proof.Machine
end

