-- ==== Sys2Proof/Tests/Slice0.lean ====
section
/-! SUPPORT. Tests of the definitions, expected results taken from spec/95_test_vectors.md and the rules cited; and, for each
statement with hypotheses, a witness that meets them. -/

namespace Sys2Proof.Tests

open Sys2Proof.Machine

/-! ### Small states -/

/-- An instance without the wide-vector unit, with PACK, two workers and all of memory mapped. -/
def par : Params :=
  { vecCap := false, packPresent := true, nworkers := 2, qmeBase := 0x1000, memmap := [⟨0, 18446744073709551616⟩] }

/-- An instance with the wide-vector unit and without PACK. -/
def parVec : Params := { par with vecCap := true, packPresent := false }

/-- Bytes at consecutive addresses. -/
def bytes (a : Nat) (l : List Nat) : List Host.Cell := l.zipIdx.map fun x => (a + x.2, BitVec.ofNat 8 x.1)

/-- The bytes of binary32 patterns at consecutive addresses. -/
def floats (a : Nat) (l : List Nat) : List Host.Cell :=
  l.zipIdx.flatMap fun x => (List.range 4).map fun b => (a + 4 * x.2 + b, BitVec.ofNat 8 (x.1 / 2 ^ (8 * b)))

/-- Memory holding some bytes. -/
def memory (cells : List Host.Cell) : Memory := Memory.writeAll [] cells

/-- The set-up of V-XC-1. -/
def extracting : State := { State.resetOf par with bits := 4#32, xByte := 0xA7#8, xSub := 1#32 }

/-- The set-up of V-DC-1. -/
def dotting : State :=
  { State.resetOf par with
    mem := memory (bytes 0x100 [0x21, 0x43] ++ floats 0x200 [0x3F800000, 0x3F000000, 0xC0000000, 0x3E800000])
    dAptr := 0x100#64, dBptr := 0x200#64, dLength := 2#64, dRowStride := 1#64, dColStride := 1#64, bits := 4#32
    scale := 0x3F000000#32, zeroPoint := 0x40000000#32 }

/-- The set-up M (program P1). -/
def multiplying : State :=
  { State.resetOf par with
    mem := memory (bytes 0x1000 [0x21, 0x43, 0xF0, 0x08] ++
      floats 0x2000 [0x3F800000, 0x40000000, 0x3F000000, 0xBF800000, 0xC0000000, 0, 0x3E800000, 0x40800000])
    a := { base := 0x1000#64, dtype := 1#8, size0 := 2#64, size1 := 2#64, stride0 := 2#64, stride1 := 1#64 }
    b := { base := 0x2000#64, dtype := 2#8, size0 := 4#64, size1 := 2#64, stride0 := 2#64, stride1 := 1#64 }
    bits := 4#32, scale := 0x3F000000#32, zeroPoint := 0x40000000#32, outBase := 0x3000#64 }

/-- The set-up K (program P4 up to its PACK). -/
def packing : State :=
  { State.resetOf par with
    mem := memory (floats 0x1000
      [0xBF000000, 0, 0x3F000000, 0x3F800000, 0x40400000, 0xBF800000, 0x40100000, 0x40D00000])
    a := { base := 0x1000#64, dtype := 2#8, size0 := 2#64, size1 := 4#64, stride0 := 4#64, stride1 := 1#64 }
    bits := 4#32, scale := 0x3F000000#32, zeroPoint := 0x40000000#32, outBase := 0x1800#64 }

/-- `s` with a plan for its busy phase. -/
def planned (ts : List Turn) (s : State) : State := { s with turns := ts }

/-- `s` with things for the host to do. -/
def doing (as : List HostAction) (s : State) : State := { s with host := as }

/-- `s` with the engine in a state. -/
def engaged (e : Engine) (s : State) : State := { s with engine := e }

/-- The state some steps lead to. -/
def after : Nat → State → State
  | 0, s => s
  | k + 1, s =>
    match step s with
    | .next t => after k t
    | .fault _ => s
    | .refused _ => s

/-- A property of the next state a meaning answers. -/
def nextHas (o : Host.Outcome State Fault Refusal) (p : State → Bool) : Bool :=
  match o with
  | .next t => p t
  | .fault _ => false
  | .refused _ => false

/-! ### Decoding and well-formedness -/

/-- The word of EXTRACT written out bit by bit (30_encoding.md R100, R101). -/
theorem test_decode_extract :
    decode 0b0000000000000000000000000000000000000000000000000000000000000001#64 = .ok .extract := rfl

/-- The word of DOT written out bit by bit (30_encoding.md R100, R101). -/
theorem test_decode_dot :
    decode 0b0000000000000000000000000000000000000000000000000000000000000010#64 = .ok .dot := rfl

/-- The word of MATMUL written out bit by bit (30_encoding.md R100, R101). -/
theorem test_decode_matmul :
    decode 0b0000000000000000000000000000000000000000000000000000000000000011#64 = .ok .matmul := rfl

/-- The word of PACK written out bit by bit (30_encoding.md R100, R101). -/
theorem test_decode_pack :
    decode 0b0000000000000000000000000000000000000000000000000000000000000100#64 = .ok .pack := rfl

/-- The table's 32-bit rows decode to their commands. -/
theorem test_decode_table :
    decodeTableWord 32 0x00000001 = some .extract ∧ decodeTableWord 32 0x00000004 = some .pack ∧
      decodeTableWord 32 0x00000103 = none := ⟨rfl, rfl, rfl⟩

/-- PACK is not legal where the Packing Stage is absent (30_encoding.md R102). -/
theorem test_wellFormed_pack_absent : Instr.wellFormed parVec .pack = false ∧ Instr.wellFormed par .pack = true := by decide

/-- An instance has at least one worker (00_scope.md R8). -/
theorem test_wellFormed_no_workers :
    Params.wellFormed { par with nworkers := 0 } = false ∧ Params.wellFormed par = true := by decide

/-- A mapped region lies in the address space (20_memory.md R70). -/
theorem test_wellFormed_region :
    Params.wellFormed { par with memmap := [⟨1, 18446744073709551616⟩] } = false ∧
      Region.wellFormed ⟨18446744073709551615, 1⟩ = true := by decide

/-- Memory out of order, with a repeated address or a listed zero is not in canonical form. -/
theorem test_memory_wf_refuses :
    Memory.wf [(2, 1#8), (1, 1#8)] = false ∧ Memory.wf [(1, 1#8), (1, 2#8)] = false ∧ Memory.wf [(1, 0#8)] = false ∧
      Memory.wf [(1, 1#8), (2, 1#8)] = true := by decide

/-! ### The commands (spec/95_test_vectors.md) -/

/-- V-XC-1. -/
theorem test_extract_high_nibble :
    nextHas (exec .extract extracting) (fun t => t.xCode == 0x0A#8 && t.statusWord == 0x010002#64) = true := by decide

/-- V-XC-8: the stored `BITS` 65540 is illegal. -/
theorem test_extract_illegal_bits :
    nextHas (exec .extract { extracting with bits := 65540#32 })
      (fun t => t.xCode == 0x00#8 && t.statusWord == 0x010103#64) = true := by decide

/-- V-DC-1. -/
theorem test_dot_value :
    nextHas (exec .dot dotting) (fun t => t.dResult == 0xBFA00000#32 && t.statusWord == 0x020002#64) = true := by
  decide +kernel

/-- V-DC-3: a misaligned dense read. -/
theorem test_dot_misaligned :
    nextHas (exec .dot { dotting with dBptr := 0x202#64 })
      (fun t => t.dResult == 0#32 && t.statusWord == 0x021104#64) = true := by decide +kernel

/-- V-MM-1: the output region -1.25, 3.0, -4.0, -12.5. -/
theorem test_matmul_cells :
    nextHas (exec .matmul multiplying)
      (fun t => bytesAt t.mem 0x3000 4 == 0xBFA00000 && bytesAt t.mem 0x3004 4 == 0x40400000 &&
        bytesAt t.mem 0x3008 4 == 0xC0800000 && bytesAt t.mem 0x300C 4 == 0xC1480000 &&
        t.statusWord == 0x030002#64) = true := by decide +kernel

/-- V-MM-13: the shape product does not wrap. -/
theorem test_matmul_no_wrap :
    nextHas (exec .matmul { multiplying with
        a := { multiplying.a with size1 := 0x8000000000000000#64 }, b := { multiplying.b with size0 := 0#64 } })
      (fun t => t.statusWord == 0x030203#64) = true := by decide +kernel

/-- V-PK-1: the output region `21 43 08 F6`. -/
theorem test_pack_bytes :
    nextHas (exec .pack packing)
      (fun t => bytesAt t.mem 0x1800 4 == 0xF6084321 && t.outSize1 == 2#64 && t.statusWord == 0x040002#64) = true := by
  decide +kernel

/-- V-PK-6: `BITS` 8 with three columns, row 1 at the fifth float. -/
theorem test_pack_eight_bits :
    nextHas (exec .pack { packing with bits := 8#32, a := { packing.a with size1 := 3#64 } })
      (fun t => bytesAt t.mem 0x1800 4 == 0x08030201 && bytesAt t.mem 0x1804 2 == 0x0600 && t.outSize1 == 3#64) = true := by
  decide +kernel

/-- V-DOT-6: the two strategies on the same operands. -/
theorem test_strategies_differ :
    (dot par (memory (bytes 0x100 (List.replicate 16 1) ++ floats 0x200 (0x4B800000 :: List.replicate 15 0x3F800000)))
        ⟨.s8, 0x100, 0x200, 16, 1, 1, 0x3F800000#32, 0#32⟩).toOption = some 0x4B800000#32 ∧
      (dot par (memory (bytes 0x100 (List.replicate 16 1) ++ floats 0x200 (0x4B800000 :: List.replicate 15 0x3F800000)))
        ⟨.v8, 0x100, 0x200, 16, 1, 1, 0x3F800000#32, 0#32⟩).toOption = some 0x4B800007#32 := by
  decide +kernel

/-- V-ACC-2, V-ACC-6, V-ACC-7, V-ACC-8: signs of zero, a tie, overflow, opposite infinities. -/
theorem test_acc :
    accMac 0x40000000#32 0#32 2 0xC0A00000#32 = 0x00000000#32 ∧ accMac 0#32 0x4B800000#32 1 0x3F800000#32 = 0x4B800000#32 ∧
      accMac 0#32 0#32 200 0x7F000000#32 = 0x7F800000#32 ∧ accMac 0#32 0x7F800000#32 1 0xFF800000#32 = 0x7FC00000#32 := by
  decide +kernel

/-- V-FIN-3, V-FIN-8, V-FIN-9: the sign of a zero, ties among subnormals. -/
theorem test_fin :
    accFin 0xC0000000#32 0#32 = 0x80000000#32 ∧ accFin 0x3F000000#32 1#32 = 0#32 ∧ accFin 0x3F000000#32 3#32 = 2#32 := by
  decide +kernel

/-- V-Q-4, V-Q-8, V-Q-12, V-Q-13, V-Q-17: ties, clamps, division by zero, a second rounding. -/
theorem test_quantize :
    quantize 0x3E800000#32 0x3F000000#32 0x40000000#32 4 = 2 ∧ quantize 0x40D80000#32 0x3F000000#32 0x40000000#32 4 = 15 ∧
      quantize 0xBF800000#32 0#32 0x40000000#32 4 = 0 ∧ quantize 0#32 0#32 0x40000000#32 4 = 0 ∧
      quantize 0x3F800000#32 0x3F800000#32 0x40200000#32 4 = 4 := by
  decide +kernel

/-- R122: the line of a MATMUL call ends in its `CMD` write and one `WAIT`; the bus form of `CMD` is 8 bytes up. -/
theorem test_program_lines :
    (commandLine .matmul ++ waitLine) = [.write 0x01 0x0000000000000003#64, .wait] ∧
      busStore par 0x1008 3#64 = some (.write 1 3#64) ∧ busLoad par 0x100C = none := by decide

/-! ### Witnesses: the hypotheses of each statement can be met -/

/-- A busy DOT, its plan giving the host the next move. -/
def busyDot (as : List HostAction) : State :=
  doing as (planned [.host] { beginRun (.dot (dotting.dotArgs .s4)) dotting with lastop := 0x02#8 })

/-- A DOT of length 0 that its worker has finished. -/
def finishedDot : Run :=
  { op := .dot { dotting.dotArgs .s4 with length := 0 }, workers := [Worker.start (0, 1)], mem0 := [], tainted := false }

/-- A MATMUL with no rows. -/
def finishedMatmul : Run :=
  { op := .matmul { multiplying.matmulArgs .s4 with a := { multiplying.a.view with size0 := 0 } }, workers := []
    mem0 := [], tainted := false }

/-- A PACK with no rows. -/
def finishedPack : Run :=
  { op := .pack { packing.packArgs 4 with a := { packing.a.view with size0 := 0 } }, workers := [], mem0 := []
    tainted := false }

theorem test_wit_StepRunsDecodedCommand :
    (doing [.write 1 4#64, .wait] packing).ready ∧ (doing [.write 1 4#64, .wait] packing).host = .write 1 4#64 :: [.wait] ∧
      decode 4#64 = .ok .pack := ⟨rfl, rfl, rfl⟩

theorem test_wit_PlacedTableWordRuns : decodeTableWord 32 3 = some .matmul ∧ decodeTableWord 32 4 = some .pack := ⟨rfl, rfl⟩

theorem test_wit_IllegalCommandEffect :
    (doing [.write 1 5#64] dotting).ready ∧ (doing [.write 1 5#64] dotting).host = .write 1 5#64 :: [] ∧
      (0x100000001#64).toNat / 2 ^ 32 ≠ 0 ∧ (0x101#64).toNat / 2 ^ 8 % 2 ^ 24 ≠ 0 ∧ (0x100#64).toNat % 2 ^ 8 = 0x00 ∧
      0x05 ≤ (5#64).toNat % 2 ^ 8 ∧
      ((4#64).toNat % 2 ^ 8 = 0x04 ∧ (doing [.write 1 4#64] (State.resetOf parVec)).par.packPresent = false) :=
  ⟨rfl, rfl, by decide, by decide, by decide, by decide, by decide, rfl⟩

theorem test_wit_PackAbsentIsIllegal : (State.resetOf parVec).par.packPresent = false := rfl

theorem test_wit_LockedWriteIgnored :
    ((engaged (.abort .memory) (doing [.write 3 4#64] dotting)).engine = .abort .memory ∧
      (engaged (.abort .memory) (doing [.write 3 4#64] dotting)).host = .write 3 4#64 :: []) ∧
    ((busyDot [.write 1 2#64]).engine.isBusy = true ∧ (busyDot [.write 1 2#64]).turns = .host :: [] ∧
      (busyDot [.write 1 2#64]).host = .write 1 2#64 :: []) := ⟨⟨rfl, rfl⟩, rfl, rfl, rfl⟩

theorem test_wit_HostReadHasNoSideEffect :
    (dotting.engine.isBusy = false ∧ (doing [.read 0x25] dotting).host = .read 0x25 :: []) ∧
    ((busyDot [.read 0x3F]).engine.isBusy = true ∧ (busyDot [.read 0x3F]).turns = .host :: [] ∧
      (busyDot [.read 0x3F]).host = .read 0x3F :: []) ∧ Reg.ofNumber 0x3F = none := ⟨⟨rfl, rfl⟩, ⟨rfl, rfl, rfl⟩, rfl⟩

theorem test_wit_RegisterWriteThenRead :
    (doing [.write 0x09 0x1FF#64] dotting).ready ∧ Reg.aDtype.access = .rw ∧
      (doing [.write 0x09 0x1FF#64] dotting).host = .write Reg.aDtype.number 0x1FF#64 :: [] := ⟨rfl, rfl, rfl⟩

theorem test_wit_UnimplementedNumbers :
    Reg.ofNumber 0x06 = none ∧ Reg.ofNumber 0x3F = none ∧ (doing [.write 0x3F 0x55#64] dotting).engine.isBusy = false ∧
      (doing [.write 0x3F 0x55#64] dotting).host = .write 0x3F 0x55#64 :: [] ∧
      (busyDot [.write 0x40 0x55#64]).engine.isBusy = true ∧ (busyDot [.write 0x40 0x55#64]).turns = .host :: [] ∧
      Reg.ofNumber 0x40 = none ∧ (busyDot [.write 0x40 0x55#64]).host = .write 0x40 0x55#64 :: [] :=
  ⟨rfl, rfl, rfl, rfl, rfl, rfl, rfl, rfl⟩

theorem test_wit_ReadOnlyWriteIgnored :
    (doing [.write 2 0xFFFF#64] dotting).ready ∧ Reg.status.access = .ro ∧
      (doing [.write 2 0xFFFF#64] dotting).host = .write Reg.status.number 0xFFFF#64 :: [] := ⟨rfl, rfl, rfl⟩

theorem test_wit_WaitPollsStatus :
    (dotting.engine.isBusy = false ∧ (doing [.wait] dotting).host = .wait :: []) ∧
    ((busyDot [.wait]).engine.isBusy = true ∧ (busyDot [.wait]).turns = .host :: [] ∧ (busyDot [.wait]).host = .wait :: []) :=
  ⟨⟨rfl, rfl⟩, rfl, rfl, rfl⟩

theorem test_wit_StatusFields :
    dotting.engine = .idle ∧ (∃ r, (busyDot []).engine = .busy r) ∧ (engaged .done dotting).engine = .done ∧
      (engaged (.error .shapeMismatch) dotting).engine = .error .shapeMismatch ∧
      (engaged (.abort .memory) dotting).engine = .abort .memory := ⟨rfl, ⟨_, rfl⟩, rfl, rfl, rfl⟩

theorem test_wit_CapFieldsNeverChange : ∃ t, step (doing [.write 1 1#64] extracting) = .next t := ⟨_, rfl⟩

theorem test_wit_HostStoreBetweenCommands :
    dotting.engine.isBusy = false ∧ Memory.wf dotting.mem = true ∧
      (doing [.store 0x100#64 0#8] dotting).host = .store 0x100#64 0#8 :: [] := ⟨rfl, by decide, rfl⟩

theorem test_wit_ExtractResult :
    extracting.bits = 4#32 ∧ { extracting with bits := 8#32 }.bits = 8#32 ∧ (State.resetOf par).bits ≠ 4#32 ∧
      (State.resetOf par).bits ≠ 8#32 := by decide

theorem test_wit_ExtractAndDotConfigurationError :
    (State.resetOf par).bits ≠ 4#32 ∧ (State.resetOf par).bits ≠ 8#32 := by decide

theorem test_wit_ExtractorCases : (4 = 4 ∨ 4 = 8) ∧ 8 / 4 ≤ 2 ∧ (8 = 4 ∨ 8 = 8) ∧ 8 / 8 ≤ 1 := by decide

theorem test_wit_BitRoundTrip :
    ([7, 10].length = 8 / 4 ∧ (∀ c ∈ [7, 10], c < 2 ^ 4) ∧ 1 < 8 / 4) ∧
      ([255].length = 8 / 8 ∧ (∀ c ∈ [255], c < 2 ^ 8) ∧ 0 < 8 / 8) := by decide

theorem test_wit_EveryByteIsItsCodes : (4 = 4 ∨ 4 = 8) ∧ 1 < 8 / 4 ∧ (8 = 4 ∨ 8 = 8) ∧ 0 < 8 / 8 := by decide

/-- `2^-150` is a tie that goes to zero; the midpoint above the largest finite value goes to infinity; the largest finite value
does not. -/
theorem test_wit_RoundsToNearestEven :
    roundF32 false 1 2 = 0x00000000#32 ∧ roundF32 false ((2 ^ 25 - 1) * 2 ^ 252) 1 = 0x7F800000#32 ∧
      roundF32 false ((2 ^ 25 - 1) * 2 ^ 252 - 1) 1 = 0x7F7FFFFF#32 ∧ roundF32 false 1 2 ≠ 0x7F800000#32 ∧
      fsign 0x7F7FFFFF#32 = false ∧ isNaN 0x7F7FFFFF#32 = false ∧ isInf 0x7F7FFFFF#32 = false := by decide +kernel

theorem test_wit_AddAndSubtract :
    isNaN 0x7F800001#32 = true ∧ (isInf 0x7F800000#32 = true ∧ isInf 0xFF800000#32 = true ∧
      fsign 0x7F800000#32 ≠ fsign 0xFF800000#32) ∧ isFinite 0x7F7FFFFF#32 = true ∧ isZero 0x80000000#32 = true ∧
      (isZero 0x00000001#32 = false ∧ fval 0x00000001#32 + fval 0x80000001#32 = 0) ∧
      fval 0x7F7FFFFF#32 + fval 0x7F7FFFFF#32 ≠ 0 ∧ isNaN 0x80000000#32 = false ∧ isInf 0x7F7FFFFF#32 = false := by
  decide +kernel

theorem test_wit_MultiplyAndDivide :
    isNaN 0xFFFFFFFF#32 = true ∧ isInf 0xFF800000#32 = true ∧ isZero 0x00000000#32 = true ∧ isZero 0x80000000#32 = true ∧
      (isFinite 0x00000001#32 = true ∧ isZero 0x00000001#32 = false ∧ isNaN 0x00000001#32 = false) ∧
      (isFinite 0x7F7FFFFF#32 = true ∧ isZero 0x7F7FFFFF#32 = false) := by decide +kernel

/-- 41_accumulator_dequant.md R146: 1 / 3 and 3 / 1, the nearest pattern to one third found by hand. -/
theorem test_fdiv_operand_order :
    fdiv 0x3F800000#32 0x40400000#32 = 0x3EAAAAAB#32 ∧ fdiv 0x40400000#32 0x3F800000#32 = 0x40400000#32 := by
  decide +kernel

theorem test_wit_NaNsAreCanonical :
    isNaN (fadd 0x7F800000#32 0xFF800000#32) = true ∧ isNaN (fsub 0x7F800000#32 0x7F800000#32) = true ∧
      isNaN (fmul 0#32 0x7F800000#32) = true ∧ isNaN (fdiv 0#32 0#32) = true ∧ isNaN (frint 0x7F800001#32) = true ∧
      isNaN 0xFFFFFFFF#32 = true := by decide +kernel

/-- `2.5` rounds to `2`; `2^23` is itself. -/
theorem test_wit_RoundsToIntegral :
    (isNaN 0x40200000#32 = false ∧ fmag 0x40200000#32 < 2 ^ 23 * 2 ^ 149 ∧ frint 0x40200000#32 = 0x40000000#32) ∧
      (isNaN 0x4B000000#32 = false ∧ 2 ^ 23 * 2 ^ 149 ≤ fmag 0x4B000000#32) ∧ isNaN 0x7F800001#32 = true := by
  decide +kernel

theorem test_wit_StrategySelection : (3 : Nat) ≠ 4 ∧ (3 : Nat) ≠ 8 := by decide

theorem test_wit_CodeConversionExact : (255 : Nat) < 256 ∧ (0 : Nat) < 256 := by decide

theorem test_wit_DotResult :
    dotting.chooses .s4 ∧ dotting.turns = [] ∧ (dotting.dotArgs .s4).readable dotting.par = true :=
  ⟨.inl ⟨rfl, rfl⟩, rfl, by decide⟩

theorem test_wit_DotAborts :
    { dotting with dBptr := 0x202#64 }.chooses .s4 ∧ { dotting with dBptr := 0x202#64 }.turns = [] ∧
      (State.dotArgs { dotting with dBptr := 0x202#64 } .s4).readable par = false :=
  ⟨.inl ⟨rfl, rfl⟩, rfl, by decide⟩

theorem test_wit_chooses_vector : State.chooses { State.resetOf parVec with bits := 8#32 } .v8 := .inr ⟨rfl, rfl⟩

theorem test_wit_ZeroPointIdentity : (0x80000000#32 = 0x00000000#32 ∨ 0x80000000#32 = 0x80000000#32) ∧ 255 ≤ 255 := by decide

theorem test_wit_StrategiesAgreeBelowABlock : { dotting.dotArgs .s8 with length := 15 }.length < 16 := by decide

/-- Two memories that differ, but not in the footprint. -/
theorem test_wit_DotReadsOnlyItsFootprint :
    dotting.mem ≠ Memory.write dotting.mem 0x300 1#8 ∧
      ∀ x ∈ (dotting.dotArgs .s4).readFootprint,
        Memory.read dotting.mem x.toNat = Memory.read (Memory.write dotting.mem 0x300 1#8) x.toNat := by decide

theorem test_wit_MatmulResult :
    Memory.wf multiplying.mem = true ∧ multiplying.turns = [] ∧ multiplying.matmulPasses .s4 ∧
      (multiplying.matmulArgs .s4).admissible multiplying.par = true ∧
      (Launch.matmul (multiplying.matmulArgs .s4)).aliased = false :=
  ⟨by decide, rfl, ⟨rfl, rfl, .inl ⟨rfl, rfl⟩, rfl⟩, by decide +kernel, by decide +kernel⟩

theorem test_wit_MatmulErrors :
    { multiplying with a := packing.a }.a.dtype ≠ tagU8 ∧ (multiplying.a.dtype = tagU8 ∧ packing.b.dtype ≠ tagF32) ∧
      (multiplying.b.dtype = tagF32 ∧ { multiplying with bits := 3#32 }.bits ≠ 4#32 ∧
        { multiplying with bits := 3#32 }.bits ≠ 8#32) ∧
      (multiplying.bits = 4#32 ∨ multiplying.bits = 8#32) ∧
      { multiplying.a with size1 := 0x8000000000000000#64 }.size1.toNat * (8 / multiplying.bits.toNat) ≠
        (0#64).toNat := by decide

theorem test_wit_MatmulEmptyOutput :
    (State.matmulPasses { multiplying with a := { multiplying.a with size0 := 0#64 } } .s4 ∧
      { multiplying.a with size0 := 0#64 }.size0 = 0#64) ∧
    (State.matmulPasses { multiplying with b := { multiplying.b with size1 := 0#64 } } .s4 ∧
      { multiplying.b with size1 := 0#64 }.size1 = 0#64) :=
  ⟨⟨⟨rfl, rfl, .inl ⟨rfl, rfl⟩, rfl⟩, rfl⟩, ⟨⟨rfl, rfl, .inl ⟨rfl, rfl⟩, rfl⟩, rfl⟩⟩

theorem test_wit_MatmulAborts :
    State.matmulPasses { multiplying with outBase := 0x3001#64 } .s4 ∧
      (State.matmulArgs { multiplying with outBase := 0x3001#64 } .s4).admissible par = false ∧
      (Launch.matmul (State.matmulArgs { multiplying with outBase := 0x3001#64 } .s4)).aliased = false :=
  ⟨⟨rfl, rfl, .inl ⟨rfl, rfl⟩, rfl⟩, by decide +kernel, by decide +kernel⟩

theorem test_wit_PackResult :
    Memory.wf packing.mem = true ∧ packing.turns = [] ∧ packing.packPasses ∧
      (packing.packArgs packing.bits.toNat).admissible packing.par = true ∧
      (Launch.pack (packing.packArgs packing.bits.toNat)).aliased = false :=
  ⟨by decide, rfl, ⟨rfl, rfl, .inl rfl, rfl⟩, by decide +kernel, by decide +kernel⟩

theorem test_wit_PackErrors :
    packing.par.packPresent = true ∧ multiplying.a.dtype ≠ tagF32 ∧
      (packing.a.dtype = tagF32 ∧ { packing with bits := 2#32 }.bits ≠ 4#32 ∧ { packing with bits := 2#32 }.bits ≠ 8#32) ∧
      (packing.bits = 4#32 ∨ packing.bits = 8#32) ∧ (3#64).toNat % (8 / packing.bits.toNat) ≠ 0 := by decide

theorem test_wit_PackAborts :
    State.packPasses { packing with a := { packing.a with base := 0x1001#64 } } ∧
      (State.packArgs { packing with a := { packing.a with base := 0x1001#64 } } 4).admissible par = false ∧
      (Launch.pack (State.packArgs { packing with a := { packing.a with base := 0x1001#64 } } 4)).aliased = false ∧
      (Launch.pack (State.packArgs { packing with a := { packing.a with base := 0x1001#64 } } 4)).inOutput
        packing.outBase.toNat = true ∧
      (Launch.pack (State.packArgs { packing with a := { packing.a with base := 0x1001#64 } } 4)).inOutput 0 = false :=
  ⟨⟨rfl, rfl, .inl rfl, rfl⟩, by decide +kernel, by decide +kernel, by decide +kernel, by decide +kernel⟩

theorem test_wit_QuantizeClamps :
    isNaN (fadd (frint (fdiv 0#32 0#32)) 0#32) = true ∧ isNaN (fadd (frint (fdiv 0x3F800000#32 0#32)) 0#32) = false := by
  decide +kernel

theorem test_wit_OverlappingLaunchEnds :
    (State.matmulPasses { multiplying with outBase := 0x2000#64 } .s4 ∧
      (State.matmulArgs { multiplying with outBase := 0x2000#64 } .s4).admissible par = true ∧
      (Launch.matmul (State.matmulArgs { multiplying with outBase := 0x2000#64 } .s4)).aliased = true ∧
      15 < 4 * multiplying.a.size0.toNat * multiplying.b.size1.toNat) ∧
    (State.packPasses { packing with outBase := 0x101F#64 } ∧
      (State.packArgs { packing with outBase := 0x101F#64 } 4).admissible par = true ∧
      (Launch.pack (State.packArgs { packing with outBase := 0x101F#64 } 4)).aliased = true) :=
  ⟨⟨⟨rfl, rfl, .inl ⟨rfl, rfl⟩, rfl⟩, by decide +kernel, by decide +kernel, by decide +kernel⟩,
    ⟨rfl, rfl, .inl rfl, rfl⟩, by decide +kernel, by decide +kernel⟩

theorem test_wit_PlannedCommandBecomesBusy :
    ((planned [.worker 0] dotting).turns ≠ [] ∧ (planned [.worker 0] dotting).chooses .s4) ∧
      ((planned [.worker 1] multiplying).turns ≠ [] ∧ (planned [.worker 1] multiplying).matmulPasses .s4) ∧
      ((planned [.host] packing).turns ≠ [] ∧ (planned [.host] packing).packPasses) :=
  ⟨⟨by decide, .inl ⟨rfl, rfl⟩⟩, ⟨by decide, rfl, rfl, .inl ⟨rfl, rfl⟩, rfl⟩, by decide, rfl, rfl, .inl rfl, rfl⟩

/-- Cut points out of order and beyond the rows still give a partition; a partition with an empty range is one. -/
theorem test_wit_PartitionCoversRowsOnce :
    (1 ≤ 3 ∧ partitionRows 3 4 [9, 1] = [(0, 4), (4, 4), (4, 4)] ∧ 3 < 4) ∧
      ([(0, 0), (0, 4)] ≠ [] ∧ [(0, 0), (0, 4)].length ≤ 2 ∧ chained 0 4 [(0, 0), (0, 4)] = true) := by decide

/-- A worker in a cell and a worker at its end. -/
theorem test_wit_WorkerPositionAdvances :
    ((Worker.start (0, 1)).wellPlaced (.matmul (multiplying.matmulArgs .s4)) = true ∧
      (Worker.start (0, 1)).finished (.matmul (multiplying.matmulArgs .s4)) = false ∧
      (((Worker.start (0, 1)).advance par multiplying.mem (.matmul (multiplying.matmulArgs .s4))).toOption.map
        fun x => (x.1.l, x.1.acc)) = some (1, 0xBF800000#32)) ∧
    ({ Worker.start (1, 2) with j := 1, l := 4 }.wellPlaced (.matmul (multiplying.matmulArgs .s4)) = true ∧
      { Worker.start (1, 2) with j := 1, l := 4 }.finished (.matmul (multiplying.matmulArgs .s4)) = false ∧
      ((Worker.advance par multiplying.mem (.matmul (multiplying.matmulArgs .s4))
        { Worker.start (1, 2) with j := 1, l := 4 }).toOption.map fun x => (x.1.i, x.1.j)) = some (2, 0)) := by
  decide +kernel

/-- A step that is performed and a step that aborts. -/
theorem test_wit_WorkerTurnStep :
    (∃ r, (planned [.worker 0] (beginRun (.dot (dotting.dotArgs .s4)) dotting)).engine = .busy r ∧
      r.workers[0]? = some (Worker.start (0, 1)) ∧ (Worker.start (0, 1)).finished r.op = false ∧
      (((Worker.start (0, 1)).advance par dotting.mem r.op).toOption.map fun x => x.1.l) = some 1) ∧
    ((Worker.start (0, 1)).advance par [] (.dot { dotting.dotArgs .s4 with bp := 0x202 })).toOption.isSome = false :=
  ⟨⟨_, rfl, rfl, by decide, by decide +kernel⟩, by decide +kernel⟩

theorem test_wit_SequencerRetires :
    (finishedDot.finished = true ∧ finishedDot.tainted = false ∧ finishedDot.workers = Worker.start (0, 1) :: []) ∧
      (finishedMatmul.finished = true ∧ finishedMatmul.tainted = false) ∧
      (finishedPack.finished = true ∧ finishedPack.tainted = false) ∧
      (planned [.sequencer] (engaged (.busy finishedDot) dotting)).turns = .sequencer :: [] := by decide

/-- A one-byte PACK. -/
def smallPack : Launch := .pack { packing.packArgs 4 with a := { packing.a.view with size0 := 1, size1 := 2 } }

/-- A one-byte PACK under a plan that moves the sequencer too early and then the worker. -/
def smallStart : State := planned [.sequencer, .worker 0] packing

/-- Its worker and the sequencer finish in three steps. -/
theorem test_wit_EveryScheduleAgrees :
    Memory.wf smallStart.mem = true ∧ smallPack.legal = true ∧ smallPack.aliased = false ∧ smallStart.host = [] ∧
      .host ∉ smallStart.turns ∧ (after 3 (beginRun smallPack smallStart)).engine.isBusy = false ∧
      Memory.read (after 3 (beginRun smallPack smallStart)).mem 0x1800 = 0x21#8 := by decide +kernel

theorem test_wit_EveryScheduleAgrees_run :
    Host.Core.run core 3 (beginRun smallPack smallStart) = .next (after 3 (beginRun smallPack smallStart)) := by
  rfl

theorem test_wit_BusyPhaseEnds : (busyDot []).engine.isBusy = true := rfl

theorem test_wit_AgentsWriteOnlyTheOutput :
    (planned [] (busyDot [])).Inv ∧ (∃ r, (planned [] (busyDot [])).engine = .busy r ∧ r.op.inOutput 0x200 = false) ∧
      (planned [] (busyDot [])).agentMoves ∧ ∃ t, step (planned [] (busyDot [])) = .next t :=
  ⟨⟨by decide, by decide⟩, ⟨_, rfl, by decide⟩, (fun rest h => by cases h), ⟨_, rfl⟩⟩

theorem test_wit_OnlyResetLeavesAbort :
    (engaged (.abort .memory) (doing [.reset] dotting)).engine = .abort .memory ∧
      ∃ t, step (engaged (.abort .memory) (doing [.reset] dotting)) = .next t ∧ t.engine = .idle := ⟨rfl, _, rfl, rfl⟩

theorem test_wit_EngineTransitions :
    ((doing [.write 1 1#64] extracting).engine.locked = false ∧ ∃ t, step (doing [.write 1 1#64] extracting) = .next t) ∧
      ((busyDot [.reset]).engine.isBusy = true ∧ ∃ t, step (busyDot [.reset]) = .next t) :=
  ⟨⟨rfl, _, rfl⟩, rfl, _, rfl⟩

theorem test_wit_AbortDispatchIsDead :
    dotting.engine ≠ .abort .dispatch ∧ ∃ t, step (doing [.write 1 2#64] dotting) = .next t := ⟨by decide, _, rfl⟩

theorem test_wit_ResetState :
    Reg.status ≠ .cap ∧ ((doing [.reset] packing).engine.isBusy = false ∧ (doing [.reset] packing).host = .reset :: []) ∧
      ((busyDot [.reset]).engine.isBusy = true ∧ (busyDot [.reset]).turns = .host :: [] ∧
        (busyDot [.reset]).host = .reset :: []) :=
  ⟨by decide, ⟨rfl, rfl⟩, rfl, rfl, rfl⟩

/-- A busy PACK, its plan giving the host the next move. -/
def busyPack (as : List HostAction) : State :=
  doing as (planned [.host] { beginRun (.pack (packing.packArgs 4)) packing with lastop := 0x04#8 })

/-- The run of `busyPack`. -/
def packRun : Run :=
  { op := .pack (packing.packArgs 4), workers := [Worker.start (0, packing.a.size0.toNat)], mem0 := packing.mem
    tainted := false }

theorem test_wit_ResetStopsACommand_output :
    (busyPack [.reset]).Inv ∧ (busyPack [.reset]).engine = .busy packRun ∧ (busyPack [.reset]).turns = .host :: [] ∧
      (busyPack [.reset]).host = .reset :: [] ∧ packRun.tainted = false ∧
      packRun.op.inOutput packing.outBase.toNat = true ∧ packRun.op.inOutput 0 = false :=
  ⟨⟨by decide +kernel, by decide +kernel⟩, by decide +kernel, rfl, rfl, rfl, by decide +kernel, by decide +kernel⟩

theorem test_wit_ResetStopsACommand :
    (busyDot [.reset]).Inv ∧ (∃ r, (busyDot [.reset]).engine = .busy r) ∧ (busyDot [.reset]).turns = .host :: [] ∧
      (busyDot [.reset]).host = .reset :: [] := ⟨⟨by decide, by decide⟩, ⟨_, rfl⟩, rfl, rfl⟩

theorem test_wit_CommandsAfterResetFailSafely : par.packPresent = true := rfl

theorem test_wit_StepKeepsTheInvariant :
    (planned [.worker 0] (busyDot [])).Inv ∧ ∃ t, step (planned [.worker 0] (busyDot [])) = .next t :=
  ⟨⟨by decide, by decide⟩, _, rfl⟩

end Sys2Proof.Tests
end

section
/-! PROOFS. A host store while no command is busy (00_scope.md R7, 20_memory.md R89; log entry 12): the store writes its one
cell, and the step takes it from the host's list. -/

namespace Sys2Proof.Machine

/-- Outside a busy phase there is no run to taint, so a host store is the write of its one cell and nothing more. -/
theorem hostStore_notBusy {s : State} (h : s.engine.isBusy = false) (a : Word64) (b : Byte) :
    hostStore a b s = s.storeCells [(a.toNat, b)] := by
  unfold hostStore
  cases he : s.engine with
  | busy r => rw [he] at h; cases h
  | idle | done | error _ | abort _ => rfl

/-- Outside a busy phase, a step whose host action is a store uses up the action and writes the byte. -/
theorem step_store_notBusy {s : State} {a : Word64} {b : Byte} {rest : List HostAction}
    (h : s.engine.isBusy = false) (hh : s.host = .store a b :: rest) :
    step s = .next { s with host := rest, mem := Memory.write s.mem a.toNat b } := by
  rw [step_host h hh, hostAct, hostStore_notBusy (s := { s with host := rest }) h]
  rfl

/-- Settles O15: the step writes one byte, and a write to a canonical memory keeps it canonical and is read back at its own
address alone. -/
theorem hostStoreBetweenCommands : Obligations.HostStoreBetweenCommands := by
  intro s a b rest hidle hwf hhost
  exact ⟨{ s with host := rest, mem := Memory.write s.mem a.toNat b }, step_store_notBusy hidle hhost, rfl,
    Memory.wf_write a.toNat b hwf, fun x => Memory.read_write a.toNat b x hwf⟩

end Sys2Proof.Machine
end

section
/-! PROOFS. What one step can do, said once: an action of the host, a worker's turn or the sequencer's turn, each with its
guard (45_command_protocol.md R215 to R221). A claim about every step is a case analysis over `Transition`. -/

namespace Sys2Proof.Machine

/-! ### The form of a step -/

/-- A fetched move ends in state `t`: the command run by `exec` does, or the state moved to is `t`. -/
def Fetched.Reaches (t : State) : Fetched → Prop
  | .run i s => exec i s = .next t
  | .moved s => s = t

theorem step_eq_next_iff {s t : State} : step s = .next t ↔ (fetch s).Reaches t := by
  unfold step
  cases fetch s <;> simp [Fetched.Reaches]

/-- What an action of the host, already taken from its list, can make of the state. -/
inductive HostStep (s : State) : HostAction → State → Prop where
  /-- A write that the lock or an unimplemented number makes void (R219, 10_state.md R33). -/
  | ignored {r : Nat} {v : Word64} (h : s.engine.locked = true ∨ Reg.ofNumber r = none) : HostStep s (.write r v) s
  /-- A write to a register other than `CMD` (R216). -/
  | register {r : Nat} {v : Word64} {reg : Reg} (hs : s.ready) (h : Reg.ofNumber r = some reg)
      (hc : reg ≠ .cmd) : HostStep s (.write r v) (s.writeReg reg v)
  /-- An accepted `CMD` write of a word that is no command (30_encoding.md R102). -/
  | illegal {w : Word64} {e : DecodeError} (hs : s.ready) (h : decode w = .error e) :
      HostStep s (.write 1 w) (s.illegalCommand (fieldOpc w))
  /-- An accepted command (R217). -/
  | command {w : Word64} {i : Instr} {t : State} (hs : s.ready) (h : decode w = .ok i) (ht : exec i s = .next t) :
      HostStep s (.write 1 w) t
  | read {r : Nat} : HostStep s (.read r) (s.logRead r)
  | wait : HostStep s .wait (hostWait s)
  | store {a : Word64} {b : Byte} : HostStep s (.store a b) (hostStore a b s)
  | reset : HostStep s .reset (resetPulse s)

/-- What one step can make of the state; `ts` is the plan left after it. -/
inductive Transition (s : State) : State → Prop where
  /-- The host moves and has nothing left to do (60_exceptions.md R251). -/
  | rest {ts : List Turn} (h : s.host = []) : Transition s { s with turns := ts }
  | host {a : HostAction} {as : List HostAction} {ts : List Turn} {t : State} (h : s.host = a :: as)
      (ha : HostStep { s with host := as, turns := ts } a t) : Transition s t
  | worker {r : Run} {w : Nat} {ts : List Turn} (h : s.engine = .busy r) :
      Transition s (workerTurn r w { s with turns := ts })
  | sequencer {r : Run} {ts : List Turn} (h : s.engine = .busy r) :
      Transition s (sequencerTurn r { s with turns := ts })

/-! ### Every step is a transition -/

/-- A host with nothing left to do leaves the state (60_exceptions.md R251). -/
theorem hostTurn_nil {s : State} (h : s.host = []) : hostTurn s = .moved s := by
  unfold hostTurn
  split
  · rfl
  next hc => rw [h] at hc; cases hc

/-- An unimplemented number takes no write, in any engine state (10_state.md R33). -/
theorem hostWrite_unimplemented {r : Nat} (h : Reg.ofNumber r = none) (v : Word64) (s : State) :
    hostWrite r v s = .moved s := by
  unfold hostWrite
  rw [h]
  split <;> rfl

/-- A write to a register other than `CMD` on a ready engine reaches the register file (45_command_protocol.md R216). -/
theorem hostWrite_register {s : State} {r : Nat} {reg : Reg} (hs : s.ready) (h : Reg.ofNumber r = some reg)
    (hc : reg ≠ .cmd) (v : Word64) : hostWrite r v s = .moved (s.writeReg reg v) := by
  have hs' : s.engine.locked = false := hs
  unfold hostWrite
  rw [hs', h]
  cases reg
  case cmd => exact absurd rfl hc
  all_goals rfl

theorem HostStep.of_issueCommand {s t : State} {w : Word64} (hs : s.ready) (h : (issueCommand w s).Reaches t) :
    HostStep s (.write 1 w) t := by
  unfold issueCommand at h
  split at h
  next i hd => exact .command hs hd h
  next e hd => exact h ▸ .illegal hs hd

theorem HostStep.of_hostWrite {s t : State} {r : Nat} {v : Word64} (h : (hostWrite r v s).Reaches t) :
    HostStep s (.write r v) t := by
  cases hl : s.engine.locked with
  | true =>
    rw [hostWrite_locked hl] at h
    exact h ▸ .ignored (.inl hl)
  | false =>
    cases hr : Reg.ofNumber r with
    | none =>
      rw [hostWrite_unimplemented hr] at h
      exact h ▸ .ignored (.inr hr)
    | some reg =>
      by_cases hc : reg = .cmd
      · subst hc
        obtain rfl : 1 = r := Reg.number_of_ofNumber hr
        rw [hostWrite_cmd hl] at h
        exact .of_issueCommand hl h
      · rw [hostWrite_register hl hr hc] at h
        exact h ▸ .register hl hr hc

theorem HostStep.of_hostAct {s t : State} {a : HostAction} (h : (hostAct a s).Reaches t) : HostStep s a t := by
  cases a with
  | write r v => exact .of_hostWrite h
  | read r => exact h ▸ .read
  | wait => exact h ▸ .wait
  | store a b => exact h ▸ .store
  | reset => exact h ▸ .reset

theorem Transition.of_hostTurn {s t : State} {ts : List Turn} (h : (hostTurn { s with turns := ts }).Reaches t) :
    Transition s t := by
  cases hh : s.host with
  | nil =>
    rw [hostTurn_nil (s := { s with turns := ts }) hh] at h
    exact h ▸ .rest hh
  | cons a as =>
    rw [hostTurn_cons (s := { s with turns := ts }) hh] at h
    exact .host hh (.of_hostAct h)

theorem Transition.of_busyTurn {s t : State} {r : Run} {who : Turn} {ts : List Turn} (hr : s.engine = .busy r)
    (h : (busyTurn r who { s with turns := ts }).Reaches t) : Transition s t := by
  cases who with
  | host => exact .of_hostTurn h
  | worker w => exact h ▸ .worker hr
  | sequencer => exact h ▸ .sequencer hr

/-- Everything a step can do. -/
theorem Transition.of_step {s t : State} (h : step s = .next t) : Transition s t := by
  rw [step_eq_next_iff] at h
  cases hb : s.engine.isBusy with
  | false =>
    rw [fetch_notBusy hb] at h
    exact .of_hostTurn (ts := s.turns) h
  | true =>
    obtain ⟨r, hr⟩ := Engine.isBusy_iff.1 hb
    cases ht : s.turns with
    | nil =>
      rw [fetch_busy_nil hr ht] at h
      exact .of_busyTurn (ts := s.turns) hr h
    | cons who ts =>
      rw [fetch_busy_cons hr ht] at h
      exact .of_busyTurn hr h

end Sys2Proof.Machine
end

section
/-! PROOFS. Each move of a step by its effect: which of a few forms the next state has, and what becomes of the parameters,
the engine state and the canonical form of memory (10_state.md R22, R50; 20_memory.md R70). -/

namespace Sys2Proof.Machine

/-! ### The ends of a run -/

section
variable (op : Launch) (v : F32) (m0 : Memory) (t : Bool) (c : AbortCode) (s : State)

@[simp] theorem retire_par : (retire op v t s).par = s.par := by rw [retire_eq]
@[simp] theorem retire_engine : (retire op v t s).engine = .done := by rw [retire_eq]
@[simp] theorem abortRun_par : (abortRun op m0 t c s).par = s.par := by rw [abortRun_eq]
@[simp] theorem abortRun_engine : (abortRun op m0 t c s).engine = .abort c := rfl
@[simp] theorem beginRun_par : (beginRun op s).par = s.par := rfl
end

@[simp] theorem complete_par (op : Launch) (s : State) : (complete op s).par = s.par := by
  rcases complete_cases op s with ⟨-, he⟩ | ⟨-, he⟩ <;> simp [he]

/-- A launch done as one transition ends `DONE` or with `AbortMemory` (45_command_protocol.md R223). -/
theorem complete_engine (op : Launch) (s : State) :
    (complete op s).engine = .done ∨ (complete op s).engine = .abort .memory := by
  rcases complete_cases op s with ⟨-, he⟩ | ⟨-, he⟩ <;> simp [he]

@[simp] theorem launch_par (op : Launch) (s : State) : (launch op s).par = s.par := by
  rcases launch_cases op s with ⟨-, he⟩ | ⟨-, he⟩ <;> simp [he]

theorem launch_engine_ne_idle (op : Launch) (s : State) : (launch op s).engine ≠ .idle := by
  rcases launch_cases op s with ⟨-, he⟩ | ⟨-, he⟩ <;> rw [he]
  · rcases complete_engine op s with he | he <;> simp [he]
  · simp [beginRun]

/-! ### An accepted command -/

/-- Everything an accepted command can end in: an error, EXTRACT's result, or a launch. `s'` is the state with the command
accepted, its output registers cleared unless it is a DOT (45_command_protocol.md R217). -/
theorem exec_next_cases {i : Instr} {s t : State} (h : exec i s = .next t) :
    ∃ s', (s' = s.accept (opcode i) ∨ s' = (s.accept (opcode i)).clearOut) ∧
      ((∃ e, t = s'.raiseError e) ∨ (∃ c, t = (s'.setCode c).setEngine .done) ∨
        ∃ op : Launch, op.opcode = opcode i ∧ op.legal = true ∧ op.outOk s' = true ∧ t = launch op s') := by
  rcases exec_cases i s with ⟨e, he | he⟩ | ⟨c, he⟩ | ⟨op, ho, hl, ⟨⟨d, rfl⟩, he⟩ | ⟨hd, he⟩⟩ <;>
    obtain rfl := Host.Outcome.next.inj (h.symm.trans he)
  · exact ⟨_, .inl rfl, .inl ⟨e, rfl⟩⟩
  · exact ⟨_, .inr rfl, .inl ⟨e, rfl⟩⟩
  · exact ⟨_, .inl rfl, .inr (.inl ⟨c, rfl⟩)⟩
  · exact ⟨_, .inl rfl, .inr (.inr ⟨.dot d, ho, hl, rfl, rfl⟩)⟩
  · refine ⟨_, .inr rfl, .inr (.inr ⟨op, ho, hl, ?_, rfl⟩)⟩
    cases op
    case dot d => exact absurd rfl (hd d)
    all_goals rfl

theorem exec_par {i : Instr} {s t : State} (h : exec i s = .next t) : t.par = s.par := by
  obtain ⟨s', hs', ht⟩ := exec_next_cases h
  have hp : s'.par = s.par := by rcases hs' with rfl | rfl <;> rfl
  rcases ht with ⟨e, rfl⟩ | ⟨c, rfl⟩ | ⟨op, -, -, -, rfl⟩ <;> simp [hp]

/-- An accepted command leaves `IDLE` (10_state.md R50). -/
theorem exec_engine_ne_idle {i : Instr} {s t : State} (h : exec i s = .next t) : t.engine ≠ .idle := by
  obtain ⟨s', -, ⟨e, rfl⟩ | ⟨c, rfl⟩ | ⟨op, -, -, -, rfl⟩⟩ := exec_next_cases h
  · simp
  · simp
  · exact launch_engine_ne_idle op s'

/-! ### The host's other actions -/

section
variable (s : State) (reg : Reg) (v : Word64)
@[simp] theorem State.writeReg_lastop : (s.writeReg reg v).lastop = s.lastop := by cases reg <;> rfl
@[simp] theorem State.writeReg_engine : (s.writeReg reg v).engine = s.engine := by cases reg <;> rfl
@[simp] theorem State.writeReg_mem : (s.writeReg reg v).mem = s.mem := by cases reg <;> rfl
@[simp] theorem State.writeReg_par : (s.writeReg reg v).par = s.par := by cases reg <;> rfl
@[simp] theorem State.writeReg_host : (s.writeReg reg v).host = s.host := by cases reg <;> rfl
@[simp] theorem State.writeReg_reads : (s.writeReg reg v).reads = s.reads := by cases reg <;> rfl
@[simp] theorem State.writeReg_turns : (s.writeReg reg v).turns = s.turns := by cases reg <;> rfl
@[simp] theorem State.writeReg_cuts : (s.writeReg reg v).cuts = s.cuts := by cases reg <;> rfl
@[simp] theorem State.writeReg_fresh : (s.writeReg reg v).fresh = s.fresh := by cases reg <;> rfl
end

/-- `WAIT` keeps all but what the host has done and seen (30_encoding.md R121). -/
theorem hostWait_eq (s : State) : hostWait s = { s with host := (hostWait s).host, reads := (hostWait s).reads } := by
  unfold hostWait
  split <;> rfl

/-- A host store changes memory, and of the engine state at most a run's mark that a host duty is broken. -/
theorem hostStore_eq (a : Word64) (b : Byte) (s : State) :
    hostStore a b s = { s with mem := Memory.write s.mem a.toNat b, engine := (hostStore a b s).engine } := by
  unfold hostStore
  cases he : s.engine
  case busy r => rfl
  all_goals simp [State.storeCells, he]

/-- A busy engine stays busy with its run after a host store. -/
theorem hostStore_busy {s : State} {r : Run} (h : s.engine = .busy r) (a : Word64) (b : Byte) :
    (hostStore a b s).engine = .busy { r with tainted := r.tainted || r.op.inFootprint (zext64 a) } := by
  unfold hostStore
  rw [h]
  rfl

/-- Reset clears the registers; of memory at most a stopped command's output region changes (70_reset_and_hazards.md
R260, R261). -/
theorem resetPulse_eq (s : State) :
    resetPulse s = { s.toReset with mem := (resetPulse s).mem, fresh := (resetPulse s).fresh } := by
  unfold resetPulse
  cases s.engine
  case busy r => simp [State.toReset]
  all_goals rfl

@[simp] theorem resetPulse_par (s : State) : (resetPulse s).par = s.par := by rw [resetPulse_eq]; rfl

@[simp] theorem resetPulse_engine (s : State) : (resetPulse s).engine = .idle := by rw [resetPulse_eq]; rfl

theorem resetPulse_wf {s : State} (h : Memory.wf s.mem = true) : Memory.wf (resetPulse s).mem = true := by
  unfold resetPulse
  cases s.engine
  case busy r => exact State.abandon_wf h
  all_goals exact h

/-! ### The agents of a busy command -/

/-- Everything a worker's turn can do: nothing, one step of its worker, or an abort for memory (45_command_protocol.md
R220). -/
theorem workerTurn_cases (r : Run) (w : Nat) (s : State) :
    workerTurn r w s = s ∨
    (∃ wk wk' cells, r.workers[w]? = some wk ∧ wk.finished r.op = false ∧
      wk.advance s.par s.mem r.op = .ok (wk', cells) ∧
      workerTurn r w s = (s.storeCells cells).setEngine (.busy { r with workers := r.workers.set w wk' })) ∨
    workerTurn r w s = abortRun r.op r.mem0 r.tainted .memory s := by
  unfold workerTurn
  split
  · exact .inl rfl
  next wk hwk =>
    split
    · exact .inl rfl
    next hf =>
      split
      next x hx => exact .inr (.inl ⟨wk, x.1, x.2, hwk, by simpa using hf, hx, rfl⟩)
      next c hc => exact .inr (.inr (by rw [Worker.advance_error hc]))

/-- The sequencer's turn retires a finished run and else does nothing (45_command_protocol.md R221). -/
theorem sequencerTurn_cases (r : Run) (s : State) :
    sequencerTurn r s = s ∨ (r.finished = true ∧ sequencerTurn r s = retire r.op r.value r.tainted s) := by
  unfold sequencerTurn
  split
  next hf => exact .inr ⟨hf, rfl⟩
  · exact .inl rfl

/-- From `BUSY` a worker's turn leads to `BUSY` or `ABORT` (10_state.md R50). -/
theorem workerTurn_engine {s : State} {r : Run} (h : s.engine = .busy r) (w : Nat) :
    (workerTurn r w s).engine.isBusy = true ∨ (workerTurn r w s).engine = .abort .memory := by
  rcases workerTurn_cases r w s with he | ⟨wk, wk', cells, -, -, -, he⟩ | he <;> simp [he, h, Engine.isBusy]

/-- From `BUSY` the sequencer's turn leads to `BUSY` or `DONE` (10_state.md R50). -/
theorem sequencerTurn_engine {s : State} {r : Run} (h : s.engine = .busy r) :
    (sequencerTurn r s).engine.isBusy = true ∨ (sequencerTurn r s).engine = .done := by
  rcases sequencerTurn_cases r s with he | ⟨-, he⟩ <;> simp [he, h, Engine.isBusy]

end Sys2Proof.Machine
end

section
/-! PROOFS. The invariant of the machine is kept by every move, so by every step (10_state.md R41, R52, R53, R30;
60_exceptions.md R240). -/

namespace Sys2Proof.Machine

/-! ### The two parts of the invariant -/

/-- Between commands the engine state is in order, unless it is the dead abort (60_exceptions.md R240). -/
theorem State.engineOk_of_notBusy {s : State} (hb : s.engine.isBusy = false) (ha : s.engine ≠ .abort .dispatch) :
    s.engineOk = true := by
  unfold State.engineOk
  split
  next r he => rw [he] at hb; cases hb
  next he => exact absurd he ha
  all_goals rfl

/-- In a busy phase the engine state is in order when the run is, `LASTOP` is its opcode and `OUT_*` are as it wants. -/
theorem State.engineOk_busy {s : State} {r : Run} (h : s.engine = .busy r) :
    s.engineOk = true ↔ r.ok = true ∧ s.lastop = r.op.opcode ∧ r.op.outOk s = true := by
  simp [State.engineOk, h, and_assoc]

/-- The output registers a run wants are the same in states that agree on them. -/
theorem Launch.outOk_congr {s s' : State} (op : Launch) (hd : s'.outDtype = s.outDtype) (h0 : s'.outSize0 = s.outSize0)
    (h1 : s'.outSize1 = s.outSize1) : op.outOk s' = op.outOk s := by
  cases op <;> simp [Launch.outOk, State.outClear, hd, h0, h1]

/-- A step of the run itself keeps the engine state in order: `s'` is busy with the run `r'`, of the same command, and agrees
with `s` on `LASTOP` and `OUT_*`. -/
theorem State.engineOk_run {s s' : State} {r r' : Run} (h : s.engineOk = true) (he : s.engine = .busy r)
    (he' : s'.engine = .busy r') (hr : r.ok = true → r'.ok = true) (hop : r'.op = r.op) (hl : s'.lastop = s.lastop)
    (hd : s'.outDtype = s.outDtype) (h0 : s'.outSize0 = s.outSize0) (h1 : s'.outSize1 = s.outSize1) :
    s'.engineOk = true := by
  obtain ⟨hok, hlast, hout⟩ := (State.engineOk_busy he).1 h
  exact (State.engineOk_busy he').2 ⟨hr hok, by rw [hl, hlast, hop], by rw [hop, Launch.outOk_congr _ hd h0 h1, hout]⟩

/-! ### Commands -/

/-- A run that begins is in order (10_state.md R41, R53). -/
theorem beginRun_inv {op : Launch} {s : State} (hm : Memory.wf s.mem = true) (hl : op.legal = true)
    (ho : s.lastop = op.opcode) (hout : op.outOk s = true) : (beginRun op s).Inv := by
  obtain ⟨hplaced, hcover⟩ := startWorkers_ok (workerCount s.par) (s.cuts.headD []) op
  have hrun (tainted : Bool) :
      Run.ok ⟨op, startWorkers (workerCount s.par) (s.cuts.headD []) op, s.mem, tainted⟩ = true := by
    rw [Run.ok, hm, hl, hplaced, hcover]
    rfl
  exact ⟨hm, (State.engineOk_busy rfl).2 ⟨hrun op.aliased, ho, hout ▸ Launch.outOk_congr op rfl rfl rfl⟩⟩

theorem complete_inv {op : Launch} {s : State} (hm : Memory.wf s.mem = true) : (complete op s).Inv := by
  refine ⟨complete_wf hm, State.engineOk_of_notBusy ?_ ?_⟩ <;>
    rcases complete_engine op s with he | he <;> simp [he, Engine.isBusy]

/-- A launch whose command is accepted and legal meets the invariant, done at once or begun. -/
theorem launch_inv {op : Launch} {s : State} (hm : Memory.wf s.mem = true) (hl : op.legal = true)
    (ho : s.lastop = op.opcode) (hout : op.outOk s = true) : (launch op s).Inv := by
  rcases launch_cases op s with ⟨-, he⟩ | ⟨-, he⟩ <;> rw [he]
  · exact complete_inv hm
  · exact beginRun_inv hm hl ho hout

/-- An accepted command meets the invariant whatever the engine state before. -/
theorem exec_inv {i : Instr} {s t : State} (hm : Memory.wf s.mem = true) (h : exec i s = .next t) : t.Inv := by
  obtain ⟨s', hs', ht⟩ := exec_next_cases h
  have hm' : Memory.wf s'.mem = true := by rcases hs' with rfl | rfl <;> exact hm
  have hlast : s'.lastop = opcode i := by rcases hs' with rfl | rfl <;> rfl
  rcases ht with ⟨e, rfl⟩ | ⟨c, rfl⟩ | ⟨op, hop, hlegal, hout, rfl⟩
  · exact ⟨hm', rfl⟩
  · exact ⟨hm', rfl⟩
  · exact launch_inv hm' hlegal (hlast.trans hop.symm) hout

/-! ### The host's other actions -/

theorem State.ready.engineOk {s : State} (h : s.ready) : s.engineOk = true :=
  State.engineOk_of_notBusy h.notBusy fun he => by
    unfold State.ready at h
    rw [he] at h
    cases h

theorem State.writeReg_inv {s : State} (hs : s.ready) (h : s.Inv) (reg : Reg) (v : Word64) : (s.writeReg reg v).Inv := by
  have hready : (s.writeReg reg v).ready := by
    unfold State.ready
    rw [State.writeReg_engine]
    exact hs
  exact ⟨by rw [State.writeReg_mem]; exact h.1, hready.engineOk⟩

theorem hostWait_inv {s : State} (h : s.Inv) : (hostWait s).Inv := by
  rw [hostWait_eq]
  exact h

/-- A host store keeps memory canonical; of a run it changes only the mark that a host duty is broken. -/
theorem hostStore_inv {s : State} (h : s.Inv) (a : Word64) (b : Byte) : (hostStore a b s).Inv := by
  obtain ⟨hm, hok⟩ := h
  refine ⟨by rw [hostStore_eq]; exact Memory.wf_write _ _ hm, ?_⟩
  cases hb : s.engine.isBusy with
  | false =>
    rw [hostStore_notBusy hb]
    exact hok
  | true =>
    obtain ⟨r, hr⟩ := Engine.isBusy_iff.1 hb
    refine State.engineOk_run hok hr (hostStore_busy hr a b) id rfl ?_ ?_ ?_ ?_ <;> rw [hostStore_eq]

theorem resetPulse_inv {s : State} (h : s.Inv) : (resetPulse s).Inv :=
  ⟨resetPulse_wf h.1, State.engineOk_of_notBusy (by rw [resetPulse_engine]; rfl) (by simp)⟩

/-- Every action of the host keeps the invariant. -/
theorem HostStep.inv {s t : State} {a : HostAction} (h : s.Inv) (hstep : HostStep s a t) : t.Inv := by
  cases hstep with
  | ignored _ => exact h
  | register hs _ _ => exact State.writeReg_inv hs h _ _
  | illegal _ _ => exact ⟨h.1, rfl⟩
  | command _ _ ht => exact exec_inv h.1 ht
  | read => exact h
  | wait => exact hostWait_inv h
  | store => exact hostStore_inv h _ _
  | reset => exact resetPulse_inv h

/-! ### The agents of a busy command -/

/-- A worker's turn keeps the invariant: its step leaves it well placed in its own range (10_state.md R53). -/
theorem workerTurn_inv {s : State} {r : Run} (h : s.Inv) (hr : s.engine = .busy r) (w : Nat) : (workerTurn r w s).Inv := by
  obtain ⟨hm, hok⟩ := h
  rcases workerTurn_cases r w s with he | ⟨wk, wk', cells, hwk, hf, hadv, he⟩ | he <;> rw [he]
  · exact ⟨hm, hok⟩
  · have hrun : r.ok = true → Run.ok { r with workers := r.workers.set w wk' } = true := fun hrok =>
      have ⟨hplaced, hlo, hhi⟩ := Worker.advance_wellPlaced (Run.ok_worker hrok hwk).1 hf hadv
      Run.ok_set hrok hwk hplaced hlo hhi
    exact ⟨Memory.wf_writeAll _ hm, State.engineOk_run hok hr rfl hrun rfl rfl rfl rfl rfl⟩
  · exact ⟨abortRun_wf hm, rfl⟩

theorem sequencerTurn_inv {s : State} (h : s.Inv) (r : Run) : (sequencerTurn r s).Inv := by
  rcases sequencerTurn_cases r s with he | ⟨-, he⟩ <;> rw [he]
  · exact h
  · exact ⟨retire_wf h.1, State.engineOk_of_notBusy (by rw [retire_engine]; rfl) (by simp)⟩

/-! ### Every step -/

/-- The invariant says nothing of the host's list and the plan. -/
theorem State.Inv.withPlan {s : State} (h : s.Inv) (as : List HostAction) (ts : List Turn) :
    State.Inv { s with host := as, turns := ts } := h

theorem Transition.inv {s t : State} (h : s.Inv) (hstep : Transition s t) : t.Inv := by
  cases hstep with
  | rest _ => exact h.withPlan _ _
  | host _ ha => exact HostStep.inv (h.withPlan _ _) ha
  | @worker r w ts hr => exact workerTurn_inv (h.withPlan s.host ts) hr w
  | sequencer _ => exact sequencerTurn_inv (h.withPlan _ _) _

/-- Settles O60: every step is a transition, and each kind of transition keeps the invariant. -/
theorem stepKeepsTheInvariant : Obligations.StepKeepsTheInvariant :=
  fun _ _ hinv hstep => (Transition.of_step hstep).inv hinv

end Sys2Proof.Machine
end

section
/-! PROOFS. What no step changes, and when the engine state changes (10_state.md R22, R50; 45_command_protocol.md R217). -/

namespace Sys2Proof.Machine

/-! ### `CAP` -/

/-- The fields of `CAP` (10_state.md R22). -/
theorem capWord_toNat (p : Params) :
    (capWord p).toNat = p.vecCap.toNat + p.packPresent.toNat * 2 + 1 * 2 ^ 8 := by
  unfold capWord
  cases p.vecCap <;> cases p.packPresent <;> rfl

theorem HostStep.par {s t : State} {a : HostAction} (h : HostStep s a t) : t.par = s.par := by
  cases h with
  | ignored _ => rfl
  | register _ _ _ => exact State.writeReg_par s _ _
  | illegal _ _ => rfl
  | command _ _ ht => exact exec_par ht
  | read => rfl
  | wait => rw [hostWait_eq]
  | store => rw [hostStore_eq]
  | reset => exact resetPulse_par s

theorem workerTurn_par (r : Run) (w : Nat) (s : State) : (workerTurn r w s).par = s.par := by
  rcases workerTurn_cases r w s with he | ⟨wk, wk', cells, -, -, -, he⟩ | he <;> simp [he]

theorem sequencerTurn_par (r : Run) (s : State) : (sequencerTurn r s).par = s.par := by
  rcases sequencerTurn_cases r s with he | ⟨-, he⟩ <;> simp [he]

/-- No step changes the parameters (00_scope.md R8). -/
theorem Transition.par {s t : State} (h : Transition s t) : t.par = s.par := by
  cases h with
  | rest _ => rfl
  | host _ ha => exact ha.par
  | worker _ => exact workerTurn_par _ _ _
  | sequencer _ => exact sequencerTurn_par _ _

/-- Settles O14: `CAP` is a function of the parameters alone, and no transition changes those. -/
theorem capFieldsNeverChange : Obligations.CapFieldsNeverChange := by
  refine ⟨fun s => capWord_toNat s.par, fun s t hstep => ?_⟩
  have hpar : t.par = s.par := (Transition.of_step hstep).par
  exact ⟨hpar, congrArg capWord hpar⟩

/-! ### The engine state -/

/-- On a ready engine the host changes the engine state only by a `CMD` write, which leaves `IDLE`, or by reset, which
leads there (10_state.md R50). -/
theorem HostStep.engine_of_ready {s t : State} {a : HostAction} (h : HostStep s a t) (hs : s.ready) :
    t.engine = s.engine ∨ (∃ w, a = .write 1 w ∧ t.engine ≠ .idle) ∨ (a = .reset ∧ t.engine = .idle) := by
  cases h with
  | ignored _ => exact .inl rfl
  | register _ _ _ => exact .inl (State.writeReg_engine s _ _)
  | illegal _ _ => exact .inr (.inl ⟨_, rfl, nofun⟩)
  | command _ _ ht => exact .inr (.inl ⟨_, rfl, exec_engine_ne_idle ht⟩)
  | read => exact .inl rfl
  | wait => exact .inl (by rw [hostWait_eq])
  | store => exact .inl (by rw [hostStore_notBusy hs.notBusy]; rfl)
  | reset => exact .inr (.inr ⟨rfl, resetPulse_engine s⟩)

/-- A busy engine stays busy whatever the host does, reset excepted (45_command_protocol.md R219). -/
theorem HostStep.engine_of_busy {s t : State} {a : HostAction} (h : HostStep s a t) (hb : s.engine.isBusy = true) :
    t.engine.isBusy = true ∨ (a = .reset ∧ t.engine = .idle) := by
  have hnot : ¬ s.ready := fun hs => by rw [hs.notBusy] at hb; cases hb
  cases h with
  | ignored _ => exact .inl hb
  | register hs _ _ => exact absurd hs hnot
  | illegal hs _ => exact absurd hs hnot
  | command hs _ _ => exact absurd hs hnot
  | read => exact .inl hb
  | wait => exact .inl (by rw [hostWait_eq]; exact hb)
  | store =>
    obtain ⟨r, hr⟩ := Engine.isBusy_iff.1 hb
    exact .inl (by rw [hostStore_busy hr]; rfl)
  | reset => exact .inr ⟨rfl, resetPulse_engine s⟩

theorem Transition.engine_of_ready {s t : State} (h : Transition s t) (hs : s.ready) :
    t.engine = s.engine ∨ (∃ w rest, s.host = .write 1 w :: rest ∧ t.engine ≠ .idle) ∨
      (∃ rest, s.host = .reset :: rest ∧ t.engine = .idle) := by
  have hnot {r : Run} (hr : s.engine = .busy r) : False := by
    have := hs.notBusy
    rw [hr] at this
    cases this
  cases h with
  | rest _ => exact .inl rfl
  | host hh ha =>
    rcases ha.engine_of_ready hs with he | ⟨w, rfl, he⟩ | ⟨rfl, he⟩
    · exact .inl he
    · exact .inr (.inl ⟨w, _, hh, he⟩)
    · exact .inr (.inr ⟨_, hh, he⟩)
  | worker hr => exact (hnot hr).elim
  | sequencer hr => exact (hnot hr).elim

theorem Transition.engine_of_busy {s t : State} (h : Transition s t) (hb : s.engine.isBusy = true) :
    t.engine.isBusy = true ∨ t.engine = .done ∨ (∃ c, t.engine = .abort c) ∨
      (t.engine = .idle ∧ ∃ rest, s.host = .reset :: rest) := by
  cases h with
  | rest _ => exact .inl hb
  | host hh ha =>
    rcases ha.engine_of_busy hb with he | ⟨rfl, he⟩
    · exact .inl he
    · exact .inr (.inr (.inr ⟨he, _, hh⟩))
  | @worker r w ts hr =>
    rcases workerTurn_engine (s := { s with turns := ts }) hr w with he | he
    · exact .inl he
    · exact .inr (.inr (.inl ⟨_, he⟩))
  | @sequencer r ts hr =>
    rcases sequencerTurn_engine (s := { s with turns := ts }) hr with he | he
    · exact .inl he
    · exact .inr (.inl he)

/-- Settles O53, by what each kind of transition does to the engine state. -/
theorem engineTransitions : Obligations.EngineTransitions :=
  fun _ _ hstep => ⟨(Transition.of_step hstep).engine_of_ready, (Transition.of_step hstep).engine_of_busy⟩

end Sys2Proof.Machine
end

section
/-! PROOFS. The register map as the host sees it: a write to an RW register and the read after it, numbers that name no
register, and the fields of `STATUS` (10_state.md R21, R24, R33, R34; 60_exceptions.md R230). -/

namespace Sys2Proof.Machine

/-! ### Writing a register -/

/-- The low `w` bits of a value, zero-extended. -/
theorem zeroExtend_lowBits (w : Nat) (v : Word64) :
    (v.setWidth w).setWidth 64 = BitVec.ofNat 64 (v.toNat % 2 ^ w) := by
  refine BitVec.eq_of_toNat_eq ?_
  simp [BitVec.toNat_setWidth]

/-- An RW register reads as the low bits written to it, zero-extended (10_state.md R34). -/
theorem State.readReg_writeReg_same {reg : Reg} (h : reg.access = .rw) (s : State) (v : Word64) :
    (s.writeReg reg v).readReg reg = BitVec.ofNat 64 (v.toNat % 2 ^ reg.width) := by
  rw [← zeroExtend_lowBits]
  cases reg <;> cases h <;> simp [State.writeReg, State.readReg, Reg.width]

/-- A write to a register leaves every other register: two different entries of the map of R21 share no storage, and the
case of one register twice is excluded. -/
theorem State.readReg_writeReg_other {reg other : Reg} (h : other ≠ reg) (s : State) (v : Word64) :
    (s.writeReg reg v).readReg other = s.readReg other := by
  cases reg <;> cases other <;> try rfl
  all_goals exact absurd rfl h

/-- The step in which a ready engine takes a write to a register other than `CMD` (45_command_protocol.md R216). -/
theorem step_writeReg {s : State} {reg : Reg} {v : Word64} {rest : List HostAction} (hs : s.ready) (hc : reg ≠ .cmd)
    (hh : s.host = .write reg.number v :: rest) : step s = .next (State.writeReg { s with host := rest } reg v) := by
  rw [step_host hs.notBusy hh, hostAct, hostWrite_register (s := { s with host := rest }) hs (Reg.ofNumber_number reg) hc]

/-- Settles O9: the step is the register write, which is read back at its own register and leaves all others. -/
theorem registerWriteThenRead : Obligations.RegisterWriteThenRead := by
  intro s reg v rest hs hrw hh
  have hc : reg ≠ .cmd := fun hc => by rw [hc] at hrw; cases hrw
  exact ⟨_, step_writeReg hs hc hh, State.readReg_writeReg_same hrw _ v,
    fun other hne => State.readReg_writeReg_other hne { s with host := rest } v, by simp⟩

/-! ### Numbers that name no register -/

theorem Reg.ofNumber_eq_none_iff {n : Nat} : Reg.ofNumber n = none ↔ n ∉ Reg.all.map Reg.number := by
  simp only [Reg.ofNumber, List.find?_eq_none, beq_iff_eq, List.mem_map, not_exists, not_and]

theorem State.hostRead_unimplemented {r : Nat} (h : Reg.ofNumber r = none) (s : State) : s.hostRead r = 0#64 := by
  rw [State.hostRead, h]

/-- Settles O10: the numbers of the map are those of its registers, and a write to any other number is void. -/
theorem unimplementedNumbers : Obligations.UnimplementedNumbers := by
  refine ⟨fun _ => Reg.ofNumber_eq_none_iff, fun s _ h => State.hostRead_unimplemented h s, ?_, ?_⟩
  · intro s r v rest hb hr hh
    rw [step_host hb hh, hostAct, hostWrite_unimplemented hr]
  · intro s r v rest ts hb hr ht hh
    obtain ⟨run, hrun⟩ := Engine.isBusy_iff.1 hb
    rw [step_host_busy hrun ht hh, hostAct, hostWrite_unimplemented hr]

/-! ### `STATUS` -/

/-- Two fields side by side, as a number. -/
theorem toNat_append_fields {m n : Nat} (x : BitVec m) (y : BitVec n) : (x ++ y).toNat = x.toNat * 2 ^ n + y.toNat := by
  rw [BitVec.toNat_append, ← Nat.shiftLeft_add_eq_or_of_lt y.isLt, Nat.shiftLeft_eq]

theorem State.statusWord_toNat (s : State) :
    s.statusWord.toNat = s.lastop.toNat * 2 ^ 16 + s.engine.errCode.toNat * 2 ^ 8 + s.engine.stateCode.toNat := by
  simp only [State.statusWord, toNat_append_fields, BitVec.toNat_ofNat]
  omega

/-- Settles O13: the fields by their places in the word, the codes from their tables. -/
theorem statusFields : Obligations.StatusFields := by
  refine ⟨State.statusWord_toNat, ?_, ?_, ?_, ?_, ?_, rfl, rfl, rfl, rfl, rfl, rfl⟩
  · intro s h; rw [h]; exact ⟨rfl, rfl⟩
  · intro s r h; rw [h]; exact ⟨rfl, rfl⟩
  · intro s h; rw [h]; exact ⟨rfl, rfl⟩
  · intro s e h; rw [h]; exact ⟨rfl, rfl⟩
  · intro s c h; rw [h]; exact ⟨rfl, rfl⟩

end Sys2Proof.Machine
end

section
/-! PROOFS. How a MATMUL worker's position advances (10_state.md R53, 43_matmul_driver.md R187). -/

namespace Sys2Proof.Machine

/-- A worker's element index is at most the number of elements (10_state.md R52). -/
theorem elementIndexOk_le {d : DotArgs} {l : Nat} (h : elementIndexOk d l = true) : l ≤ d.logical := by
  simp only [elementIndexOk, Bool.and_eq_true, decide_eq_true_eq] at h
  exact h.1

/-- The row and column of the cell after the one a worker is in (10_state.md R53). -/
theorem Worker.nextCell_position (cols : Nat) (w : Worker) :
    ((w.nextCell cols).i, (w.nextCell cols).j) = if w.j + 1 < cols then (w.i, w.j + 1) else (w.i + 1, 0) := by
  rw [Worker.nextCell_eq]
  split <;> rfl

/-- A worker enters the next cell in its own range, at the first element, with `ACC.CLR` (10_state.md R53). -/
theorem Worker.nextCell_start (cols : Nat) (w : Worker) :
    (w.nextCell cols).lo = w.lo ∧ (w.nextCell cols).hi = w.hi ∧ (w.nextCell cols).l = 0 ∧
      (w.nextCell cols).acc = accClr := by
  rw [Worker.nextCell_eq]
  exact ⟨rfl, rfl, rfl, rfl⟩

/-- Settles O46: before the end of the cell's sum the step is one inside it, at its end it is the store of the cell. -/
theorem workerPositionAdvances : Obligations.WorkerPositionAdvances := by
  intro p m a w w' cells hw hf hadv
  obtain ⟨-, -, -, hok⟩ := Worker.unfinished_matmul hw hf
  by_cases hl : w.l < (a.cell w.i w.j).logical
  · rw [Worker.advance_matmul_sum hl] at hadv
    cases hc : w.consume p m (a.cell w.i w.j) with
    | error c => rw [hc] at hadv; cases hadv
    | ok w'' =>
      rw [hc] at hadv
      cases hadv
      obtain ⟨hlater, hle, -, hi, hj, hlo, hhi, -⟩ := Worker.consume_ok hl hok hc
      exact .inl ⟨hl, hi, hj, hlater, hle, hlo, hhi, rfl⟩
  · rw [Worker.advance_matmul_store (Nat.not_lt.1 hl)] at hadv
    split at hadv
    · cases hadv
      have hend : w.l = (a.cell w.i w.j).logical := Nat.le_antisymm (elementIndexOk_le hok) (Nat.not_lt.1 hl)
      obtain ⟨hlo, hhi, hzero, hclear⟩ := Worker.nextCell_start a.m w
      exact .inr ⟨hend, hlo, hhi, hzero, hclear, Worker.nextCell_position a.m w, rfl⟩
    · cases hadv

end Sys2Proof.Machine
end

section
/-! PROOFS. Which bytes of memory a command may change: an agent's step changes none outside the output region (20_memory.md
R77, R88), and a launch that overlaps its input leaves free bytes all over it (20_memory.md R82; log entry 7). -/

namespace Sys2Proof.Machine

/-! ### The agents of a busy command -/

/-- The agent that moves when the plan names nobody is never the host. -/
theorem Run.defaultTurn_ne_host (r : Run) : r.defaultTurn ≠ .host := by
  unfold Run.defaultTurn
  split <;> nofun

/-- A step of a busy command that is not the host's is a worker's turn or the sequencer's (45_command_protocol.md R220). -/
theorem step_agent {s t : State} {r : Run} (hr : s.engine = .busy r) (ha : s.agentMoves) (h : step s = .next t) :
    ∃ ts, (∃ w, t = workerTurn r w { s with turns := ts }) ∨ t = sequencerTurn r { s with turns := ts } := by
  have hturn : ∃ who ts, who ≠ .host ∧ fetch s = busyTurn r who { s with turns := ts } := by
    cases ht : s.turns with
    | nil => exact ⟨_, s.turns, r.defaultTurn_ne_host, fetch_busy_nil hr ht⟩
    | cons who ts => exact ⟨who, ts, fun hw => ha ts (hw ▸ ht), fetch_busy_cons hr ht⟩
  obtain ⟨who, ts, hwho, hf⟩ := hturn
  rw [step_eq_next_iff, hf] at h
  cases who with
  | host => exact absurd rfl hwho
  | worker w => exact ⟨ts, .inl ⟨w, h.symm⟩⟩
  | sequencer => exact ⟨ts, .inr h.symm⟩

/-- A worker's turn leaves every byte outside the output region: its stores lie inside, and so do those of an abort
(20_memory.md R77, 60_exceptions.md R243). -/
theorem workerTurn_read {r : Run} {s : State} {x : Nat} (hok : r.ok = true) (w : Nat) (hx : r.op.inOutput x = false) :
    Memory.read (workerTurn r w s).mem x = Memory.read s.mem x := by
  rcases workerTurn_cases r w s with he | ⟨wk, wk', cells, hwk, hf, hadv, he⟩ | he <;> rw [he]
  · obtain ⟨hplaced, hrows⟩ := Run.ok_worker hok hwk
    refine Memory.read_writeAll_other fun c hc hcx => ?_
    rw [← hcx, Worker.advance_inOutput hplaced hf hrows hadv c hc] at hx
    cases hx
  · exact abortRun_read hx

/-- The sequencer's turn leaves every byte outside the output region (20_memory.md R77). -/
theorem sequencerTurn_read {r : Run} {s : State} {x : Nat} (hx : r.op.inOutput x = false) :
    Memory.read (sequencerTurn r s).mem x = Memory.read s.mem x := by
  rcases sequencerTurn_cases r s with he | ⟨-, he⟩ <;> rw [he]
  exact retire_read hx

/-- Settles O51: a step that is not the host's is a turn of a worker or of the sequencer, and neither changes a byte outside
the output region. -/
theorem agentsWriteOnlyTheOutput : Obligations.AgentsWriteOnlyTheOutput := by
  intro s t run x hinv hr hagent hstep hx
  obtain ⟨hok, -, -⟩ := (State.engineOk_busy hr).1 hinv.2
  obtain ⟨ts, ⟨w, rfl⟩ | rfl⟩ := step_agent hr hagent hstep
  · exact workerTurn_read hok w hx
  · exact sequencerTurn_read hx

/-! ### Admission of the output region -/

/-- Each byte of an admitted access is itself admitted (20_memory.md R75, R76). -/
theorem admitted_byte {p : Params} {x : Int} {n b : Nat} (h : admitted p x n = true) (hb : b < n) :
    admitted p (x + b) 1 = true := by
  obtain ⟨hlo, hhi, -, hmap⟩ := admitted_bounds h
  simp only [admitted, Bool.and_eq_true, decide_eq_true_eq, List.all_eq_true, List.mem_range]
  refine ⟨⟨⟨by omega, by omega⟩, Int.emod_one _⟩, fun c hc => ?_⟩
  rw [show x + b + (c : Int) = x + b by omega]
  exact hmap b hb

/-- Every number below `n * m` is the row-major index of a cell. -/
theorem exists_rowMajor {k n m : Nat} (h : k < n * m) : ∃ i < n, ∃ j < m, k = i * m + j := by
  have hm : 0 < m := Nat.pos_of_ne_zero fun h0 => by simp [h0] at h
  exact ⟨k / m, (Nat.div_lt_iff_lt_mul hm).2 h, k % m, Nat.mod_lt _ hm, (Nat.div_add_mod' k m).symm⟩

/-- Every output element of a launch whose accesses are admitted is admitted. -/
theorem elementAdmitted_of_admissible {p : Params} {op : Launch} (h : op.admissible p = true) {e : Nat × Nat}
    (he : e ∈ op.elements) : elementAdmitted p op e = true := by
  have hd : ∀ d, op ≠ .dot d := by
    rintro d rfl
    simp [Launch.elements] at he
  rw [← elements_all_admitted p op hd, List.all_eq_true] at h
  exact h e he

/-- The accesses of an admitted MATMUL or PACK reach every byte of its output region (20_memory.md R83). -/
theorem inOutput_admitted {p : Params} {op : Launch} {x : Int} (h : op.admissible p = true) (hx : op.inOutput x = true) :
    admitted p x 1 = true := by
  obtain ⟨hlo, hhi⟩ := inOutput_iff.1 hx
  cases op with
  | dot d => simp only [Launch.outRegion] at hlo hhi; omega
  | matmul a =>
    simp only [Launch.outRegion] at hlo hhi
    obtain ⟨k, rfl⟩ := Int.le.dest hlo
    have hk : k / 4 < a.n * a.m := by rw [Nat.mul_assoc] at hhi; omega
    obtain ⟨i, hi, j, hj, hij⟩ := exists_rowMajor hk
    have hadm := elementAdmitted_of_admissible h (mem_elements_matmul.2 ⟨hi, hj⟩)
    simp only [elementAdmitted, Bool.and_eq_true] at hadm
    have hb := admitted_byte hadm.2 (Nat.mod_lt k (by decide : 0 < 4))
    have haddr : a.outAddr i j = a.out + 4 * ((i * a.m + j : Nat) : Int) := by simp [MatmulArgs.outAddr]
    rwa [show a.outAddr i j + ((k % 4 : Nat) : Int) = a.out + k by omega] at hb
  | pack a =>
    simp only [Launch.outRegion] at hlo hhi
    obtain ⟨k, rfl⟩ := Int.le.dest hlo
    obtain ⟨i, hi, t, ht, hit⟩ := exists_rowMajor (k := k) (n := a.n) (m := a.kb) (by omega)
    have hadm := elementAdmitted_of_admissible h (mem_elements_pack.2 ⟨hi, ht⟩)
    simp only [elementAdmitted, Bool.and_eq_true] at hadm
    have haddr : a.outAddr i t = a.out + ((i * a.kb + t : Nat) : Int) := by simp [PackArgs.outAddr]
    rw [hit, ← haddr]
    exact hadm.2

/-! ### Free bytes -/

@[simp] theorem Launch.writeFootprint_length (op : Launch) : op.writeFootprint.length = op.outRegion.2 := by
  simp [Launch.writeFootprint]

/-- The free cells of an admitted output region: byte `k` gets the `k`-th value drawn (log entry 7). -/
theorem freeCells_writeFootprint {p : Params} {op : Launch} (fresh : Nat) (h : op.admissible p = true) :
    freeCells p fresh op.writeFootprint =
      (List.range op.outRegion.2).map fun (k : Nat) => ((op.outRegion.1 + k).toNat, Config.freeByte (fresh + k)) := by
  have hall : (op.writeFootprint.filter fun a => admitted p a 1) = op.writeFootprint :=
    List.filter_eq_self.2 fun x hx => inOutput_admitted h (mem_writeFootprint.1 hx)
  rw [freeCells, hall]
  exact List.ext_getElem (by simp) fun k _ _ => by simp [Launch.writeFootprint]

/-- Scrambling an admitted output region leaves in byte `k` the `k`-th free value drawn (log entry 7). -/
theorem State.scramble_read_output {op : Launch} {s : State} {k : Nat} (hm : Memory.wf s.mem = true)
    (ha : op.admissible s.par = true) (hk : k < op.outRegion.2) :
    Memory.read (s.scramble op.writeFootprint).mem (op.outRegion.1 + k).toNat = Config.freeByte (s.fresh + k) := by
  have hbase : 0 ≤ op.outRegion.1 :=
    (admitted_bounds (inOutput_admitted ha (inOutput_iff.2 ⟨Int.le_refl _, by omega⟩))).1
  have hcells := freeCells_writeFootprint s.fresh ha
  have hread : ((op.outRegion.1 + k).toNat, Memory.read (s.scramble op.writeFootprint).mem (op.outRegion.1 + k).toNat) ∈
      freeCells s.par s.fresh op.writeFootprint :=
    Memory.read_writeAll_mem (c := (_, Config.freeByte (s.fresh + k))) hm
      (hcells ▸ List.mem_map_of_mem (List.mem_range.2 hk))
  rw [hcells] at hread
  obtain ⟨k', -, hk'⟩ := List.mem_map.1 hread
  obtain ⟨haddr, hbyte⟩ := Prod.mk.inj hk'
  obtain rfl : k' = k := by omega
  exact hbyte.symm

/-! ### A launch that overlaps its input -/

/-- What retiring a tainted run leaves in memory are free bytes over its output region (20_memory.md R82; log entry 7). -/
theorem retire_tainted_mem (op : Launch) (v : F32) (s : State) :
    (retire op v true s).mem = (s.scramble op.writeFootprint).mem := by
  cases op <;> rfl

/-- A tainted MATMUL retires with its output registers set and one free value drawn per output byte (log entry 7). -/
theorem retire_tainted_matmul (a : MatmulArgs) (v : F32) (s : State) :
    retire (.matmul a) v true s = { s with
      outDtype := tagF32, outSize0 := BitVec.ofNat 64 a.n, outSize1 := BitVec.ofNat 64 a.m, engine := .done,
      mem := (retire (.matmul a) v true s).mem, fresh := s.fresh + 4 * a.n * a.m } := by
  simp only [retire, if_true, State.scramble, Launch.writeFootprint_length]
  rfl

/-- A tainted PACK retires with its output registers set and one free value drawn per output byte (log entry 7). -/
theorem retire_tainted_pack (a : PackArgs) (v : F32) (s : State) :
    retire (.pack a) v true s = { s with
      outDtype := tagU8, outSize0 := BitVec.ofNat 64 a.n, outSize1 := BitVec.ofNat 64 a.kb, engine := .done,
      mem := (retire (.pack a) v true s).mem, fresh := s.fresh + a.n * a.kb } := by
  simp only [retire, if_true, State.scramble, Launch.writeFootprint_length]
  rfl

section
variable {op : Launch} {s : State} (ht : s.turns = []) (ha : op.admissible s.par = true) (hal : op.aliased = true)
include ht ha hal

/-- An overlapping launch whose accesses are admitted retires as a tainted one (log entry 7). -/
theorem launch_overlapping : launch op s = retire op (launchValue s.mem op) true (s.storeCells (launchCells s.mem op)) := by
  rw [launch_eq ht, if_pos ha, hal]

/-- Byte `k` of the output region of an overlapping launch is the `k`-th free value drawn (log entry 7). -/
theorem launch_overlapping_read_output (hm : Memory.wf s.mem = true) {k : Nat} (hk : k < op.outRegion.2) :
    Memory.read (launch op s).mem (op.outRegion.1 + k).toNat = Config.freeByte (s.fresh + k) := by
  rw [launch_overlapping ht ha hal, retire_tainted_mem]
  exact State.scramble_read_output (s := s.storeCells _) (Memory.wf_writeAll _ hm) ha hk

end

/-- A launch leaves every byte outside its output region, whether it is done at once or begins its busy phase (20_memory.md
R77). -/
theorem launch_read {op : Launch} {s : State} {x : Nat} (hx : op.inOutput x = false) :
    Memory.read (launch op s).mem x = Memory.read s.mem x := by
  rcases launch_cases op s with ⟨-, he⟩ | ⟨-, he⟩ <;> rw [he]
  · exact complete_read hx
  · rfl

/-- Settles O43: the launch retires as a tainted run, which sets the output registers, draws one free value for each byte of
the output region and leaves the rest of memory. -/
theorem overlappingLaunchEnds : Obligations.OverlappingLaunchEnds := by
  have hsize (v : Word64) : BitVec.ofNat 64 v.toNat = v := by simp
  constructor
  · intro s st hm ht hpass ha hal
    refine ⟨_, exec_matmul_launch hpass, ?_, fun k hk => ?_, fun x hx => launch_read hx⟩
    · rw [launch_overlapping (op := .matmul _) (s := (s.accept 0x03#8).clearOut) ht ha hal, retire_tainted_matmul,
        show BitVec.ofNat 64 (s.matmulArgs st).n = s.a.size0 from hsize _,
        show BitVec.ofNat 64 (s.matmulArgs st).m = s.b.size1 from hsize _]
      rfl
    · exact launch_overlapping_read_output (op := .matmul _) (s := (s.accept 0x03#8).clearOut) ht ha hal hm hk
  · intro s hm ht hpass ha hal
    refine ⟨_, exec_pack_launch hpass, ?_, fun k hk => ?_, fun x hx => launch_read hx⟩
    · rw [launch_overlapping (op := .pack _) (s := (s.accept 0x04#8).clearOut) ht ha hal, retire_tainted_pack,
        show BitVec.ofNat 64 (s.packArgs s.bits.toNat).n = s.a.size0 from hsize _]
      rfl
    · exact launch_overlapping_read_output (op := .pack _) (s := (s.accept 0x04#8).clearOut) ht ha hal hm hk

end Sys2Proof.Machine
end

section
/-! PROOFS. Command words: the three fields of a word determine it, exactly the encodings of the four commands decode, and an
illegal `CMD` write is an error state (30_encoding.md R100 to R102; 60_exceptions.md R235). -/

namespace Sys2Proof

/-! ### Words and their fields -/

theorem fieldRsv1_toNat (w : Word64) : (fieldRsv1 w).toNat = w.toNat / 2 ^ 32 := by
  simp only [fieldRsv1, BitVec.extractLsb'_toNat, Nat.shiftRight_eq_div_pow]
  omega

theorem fieldRsv0_toNat (w : Word64) : (fieldRsv0 w).toNat = w.toNat / 2 ^ 8 % 2 ^ 24 := by
  rw [fieldRsv0, BitVec.extractLsb'_toNat, Nat.shiftRight_eq_div_pow]

theorem fieldOpc_eq_ofNat (w : Word64) : fieldOpc w = BitVec.ofNat 8 w.toNat := rfl

theorem fieldOpc_toNat (w : Word64) : (fieldOpc w).toNat = w.toNat % 2 ^ 8 := by
  rw [fieldOpc_eq_ofNat, BitVec.toNat_ofNat]

/-- The fields of R100 cover the word: two words with equal fields are equal. -/
theorem word_ext {v w : Word64} (h1 : fieldRsv1 v = fieldRsv1 w) (h0 : fieldRsv0 v = fieldRsv0 w)
    (ho : fieldOpc v = fieldOpc w) : v = w := by
  rw [← BitVec.toNat_inj, fieldRsv1_toNat, fieldRsv1_toNat] at h1
  rw [← BitVec.toNat_inj, fieldRsv0_toNat, fieldRsv0_toNat] at h0
  rw [← BitVec.toNat_inj, fieldOpc_toNat, fieldOpc_toNat] at ho
  exact BitVec.eq_of_toNat_eq (by omega)

/-! ### Decoding and encoding -/

/-- The encoding of every command, as the per-command laws give it (30_encoding.md R100, R101). -/
theorem encoding_statement (i : Instr) : Laws.Encoding.Statement i := by
  cases i
  · exact Laws.Encoding.extract
  · exact Laws.Encoding.dot
  · exact Laws.Encoding.matmul
  · exact Laws.Encoding.pack

theorem decode_encode (i : Instr) : decode (encode i) = .ok i := by
  obtain ⟨hr1, hr0, hopc, hmap, -⟩ := encoding_statement i
  rw [decode, if_pos hr1, if_pos hr0, hopc, hmap]

/-- The opcode map gives a command at its own opcode only (30_encoding.md R101). -/
theorem opcode_of_decodeOpc {opc : Byte} {i : Instr} (h : decodeOpc opc = .ok i) : opc = opcode i := by
  unfold decodeOpc at h
  iterate 4
    split at h
    · cases h; assumption
  split at h <;> cases h

/-- A word decodes only with both reserved fields zero and the opcode of the command it gives (30_encoding.md R100). -/
theorem fields_of_decode {w : Word64} {i : Instr} (h : decode w = .ok i) :
    fieldRsv1 w = 0#32 ∧ fieldRsv0 w = 0#24 ∧ fieldOpc w = opcode i := by
  unfold decode at h
  split at h
  next hr1 =>
    split at h
    next hr0 => exact ⟨hr1, hr0, opcode_of_decodeOpc h⟩
    next => cases h
  next => cases h

theorem eq_encode_of_decode {w : Word64} {i : Instr} (h : decode w = .ok i) : w = encode i := by
  obtain ⟨hr1, hr0, hopc⟩ := fields_of_decode h
  obtain ⟨er1, er0, eopc, -⟩ := encoding_statement i
  exact word_ext (hr1.trans er1.symm) (hr0.trans er0.symm) (hopc.trans eopc.symm)

/-- Settles O2: a word that decodes has the fields of its command's encoding, and the fields determine the word. -/
theorem decodeIffEncode : Obligations.DecodeIffEncode :=
  fun _ i => ⟨eq_encode_of_decode, fun h => h ▸ decode_encode i⟩

/-- Settles O1: four words are encodings; the five others fail at the first test of R100 or R102 they meet. -/
theorem commandWordsDecode : Obligations.CommandWordsDecode :=
  ⟨decode_encode .extract, decode_encode .dot, decode_encode .matmul, decode_encode .pack, rfl, rfl, rfl, rfl, rfl⟩

end Sys2Proof

namespace Sys2Proof.Machine

/-! ### Illegal commands -/

/-- PACK without the Packing Stage has the effect of an illegal word (30_encoding.md R102). -/
theorem exec_pack_absent {s : State} (h : s.par.packPresent = false) :
    exec .pack s = .next (s.illegalCommand (opcode .pack)) := by
  simp only [exec, execPack, h]
  rfl

/-- Settles O6: the illegal-command effect sets `LASTOP` and the engine state and nothing else. -/
theorem packAbsentIsIllegal : Obligations.PackAbsentIsIllegal :=
  fun _ h => exec_pack_absent h

/-- The step in which a ready engine takes a `CMD` write of a command's word (45_command_protocol.md R217). -/
theorem step_command {s : State} {w : Word64} {rest : List HostAction} {i : Instr} (hs : s.ready)
    (hh : s.host = .write 1 w :: rest) (hd : decode w = .ok i) : step s = exec i { s with host := rest } := by
  rw [step_host hs.notBusy hh, hostAct, hostWrite_cmd (s := { s with host := rest }) hs, issueCommand, hd]

/-- The step in which a ready engine takes a `CMD` write of a word that is no command (30_encoding.md R102). -/
theorem step_undecodable {s : State} {w : Word64} {rest : List HostAction} {e : DecodeError} (hs : s.ready)
    (hh : s.host = .write 1 w :: rest) (hd : decode w = .error e) :
    step s = .next (State.illegalCommand (fieldOpc w) { s with host := rest }) := by
  rw [step_host hs.notBusy hh, hostAct, hostWrite_cmd (s := { s with host := rest }) hs, issueCommand, hd]

/-- The one command that R102 calls illegal on some engine is PACK: no other clause of R102 holds of a command's word. -/
theorem pack_of_illegal_encoding {i : Instr} {absent : Prop}
    (h : (encode i).toNat / 2 ^ 32 ≠ 0 ∨ (encode i).toNat / 2 ^ 8 % 2 ^ 24 ≠ 0 ∨ (encode i).toNat % 2 ^ 8 = 0x00 ∨
      0x05 ≤ (encode i).toNat % 2 ^ 8 ∨ ((encode i).toNat % 2 ^ 8 = 0x04 ∧ absent)) : i = .pack ∧ absent := by
  cases i with
  | pack => exact ⟨rfl, by simpa [encode, opcode] using h⟩
  | extract | dot | matmul => simp [encode, opcode] at h

/-- Settles O5: a word that does not decode is answered at once, and the only command's word among the illegal ones is that of
an absent PACK. -/
theorem illegalCommandEffect : Obligations.IllegalCommandEffect := by
  intro s w rest hs hh hill
  cases hd : decode w with
  | error e => exact step_undecodable hs hh hd
  | ok i =>
    obtain rfl := eq_encode_of_decode hd
    obtain ⟨rfl, habsent⟩ := pack_of_illegal_encoding hill
    rw [step_command hs hh hd, exec_pack_absent (s := { s with host := rest }) habsent]
    rfl

end Sys2Proof.Machine
end

section
/-! PROOFS. `WAIT`, and that a step never stops (30_encoding.md R102, R121; 45_command_protocol.md R222; 60_exceptions.md
R237, R241). -/

namespace Sys2Proof.Machine

/-! ### `WAIT` -/

/-- A `WAIT` outside a busy phase is one read of `STATUS` (30_encoding.md R121). -/
theorem hostWait_notBusy {s : State} (h : s.engine.isBusy = false) : hostWait s = s.logRead 2 := by
  simp only [hostWait, h]
  rfl

/-- A `WAIT` in a busy phase reads `STATUS` and is the host's next action again (30_encoding.md R121; log entry 21). -/
theorem hostWait_busy {s : State} (h : s.engine.isBusy = true) :
    hostWait s = { s.logRead 2 with host := .wait :: s.host } := by
  simp only [hostWait, h]
  rfl

/-- Settles O12: the host's turn is the `WAIT`, which in a busy phase puts back the action it was taken from. -/
theorem waitPollsStatus : Obligations.WaitPollsStatus := by
  constructor
  · intro s rest hb hh
    rw [step_host hb hh, hostAct, hostWait_notBusy (s := { s with host := rest }) hb]
    rfl
  · intro s rest ts hb ht hh
    obtain ⟨r, hr⟩ := Engine.isBusy_iff.1 hb
    rw [step_host_busy hr ht hh, hostAct, hostWait_busy (s := { s with host := rest, turns := ts }) hb, ← hh]
    rfl

/-! ### Totality -/

/-- Every accepted command has a next state: its errors and aborts are states of the engine (60_exceptions.md R237, R241). -/
theorem exec_next (i : Instr) (s : State) : ∃ t, exec i s = .next t := by
  rcases exec_cases i s with ⟨e, he | he⟩ | ⟨c, he⟩ | ⟨op, -, -, ⟨-, he⟩ | ⟨-, he⟩⟩ <;> exact ⟨_, he⟩

/-- Settles O58: a step either runs a command, which has a next state, or is itself the move to one. -/
theorem everyStepHasANextState : Obligations.EveryStepHasANextState := by
  intro s
  unfold step
  cases fetch s with
  | run i s' => exact exec_next i s'
  | moved s' => exact ⟨s', rfl⟩

end Sys2Proof.Machine
end

section
/-! PROOFS. The bit extractor: a packed byte is the little-endian numeral of its codes, so extracting a digit and
composing the digits undo each other (40_bit_extractor.md R130 to R137). -/

namespace Sys2Proof.Machine

/-! ### Codes and packed bytes -/

theorem composeByte_cons (bits c : Nat) (cs : List Nat) :
    composeByte bits (c :: cs) = c + 2 ^ bits * composeByte bits cs := rfl

/-- Above its lowest code a composed value is that of the other codes. -/
theorem composeByte_cons_div {bits c : Nat} (hc : c < 2 ^ bits) (cs : List Nat) :
    composeByte bits (c :: cs) / 2 ^ bits = composeByte bits cs := by
  rw [composeByte_cons, Nat.add_mul_div_left _ _ (Nat.two_pow_pos bits), Nat.div_eq_of_lt hc, Nat.zero_add]

/-- `n` codes of `bits` bits compose to a value of `n * bits` bits (30_encoding.md R109). -/
theorem composeByte_lt {bits : Nat} {codes : List Nat} (hc : ∀ c ∈ codes, c < 2 ^ bits) :
    composeByte bits codes < 2 ^ (codes.length * bits) := by
  induction codes with
  | nil => exact Nat.two_pow_pos _
  | cons c cs ih =>
    obtain ⟨hhead, htail⟩ := List.forall_mem_cons.1 hc
    rw [List.length_cons, Nat.succ_mul, Nat.pow_add, ← Nat.div_lt_iff_lt_mul (Nat.two_pow_pos bits),
      composeByte_cons_div hhead]
    exact ih htail

/-- The digit of a composed value at a position is the code at that position. -/
theorem composeByte_digit {bits : Nat} {codes : List Nat} (hc : ∀ c ∈ codes, c < 2 ^ bits) (sub : Nat) :
    composeByte bits codes / 2 ^ (sub * bits) % 2 ^ bits = codes.getD sub 0 := by
  induction codes generalizing sub with
  | nil => rw [composeByte, Nat.zero_div, Nat.zero_mod, List.getD_nil]
  | cons c cs ih =>
    obtain ⟨hhead, htail⟩ := List.forall_mem_cons.1 hc
    cases sub with
    | zero =>
      rw [Nat.zero_mul, Nat.pow_zero, Nat.div_one, composeByte_cons, Nat.add_mul_mod_self_left, Nat.mod_eq_of_lt hhead,
        List.getD_cons_zero]
    | succ sub =>
      rw [Nat.succ_mul, Nat.add_comm, Nat.pow_add, ← Nat.div_div_eq_div_mul, composeByte_cons_div hhead, ih htail,
        List.getD_cons_succ]

/-- The first `n` digits of a value compose to its `n * bits` low bits. -/
theorem composeByte_digits (bits n x : Nat) :
    composeByte bits ((List.range n).map fun sub => x / 2 ^ (sub * bits) % 2 ^ bits) = x % 2 ^ (n * bits) := by
  induction n generalizing x with
  | zero => simp [composeByte, Nat.mod_one]
  | succ n ih =>
    have hshift (sub : Nat) : x / 2 ^ ((sub + 1) * bits) = x / 2 ^ bits / 2 ^ (sub * bits) := by
      rw [Nat.div_div_eq_div_mul, ← Nat.pow_add, Nat.succ_mul, Nat.add_comm]
    rw [List.range_succ_eq_map, List.map_cons, List.map_map, composeByte]
    simp only [Function.comp_def, Nat.succ_eq_add_one, hshift, ih]
    rw [Nat.succ_mul, Nat.add_comm (n * bits), Nat.pow_add, Nat.mod_mul, Nat.zero_mul, Nat.pow_zero, Nat.div_one]

/-- The legal widths divide the byte (40_bit_extractor.md R131, R132). -/
theorem div_mul_of_legal {bits : Nat} (h : bits = 4 ∨ bits = 8) : 8 / bits * bits = 8 := by
  rcases h with rfl | rfl <;> rfl

/-- Settles O19: the composed value fits a byte, and the extractor reads the digit at the sub-index. -/
theorem bitRoundTrip : Obligations.BitRoundTrip := by
  intro bits codes sub hbits hlen hc _
  have hfits := composeByte_lt hc
  rw [hlen, div_mul_of_legal hbits] at hfits
  rw [extractCode_eq, BitVec.toNat_ofNat, Nat.mod_eq_of_lt hfits, composeByte_digit hc]

/-- Settles O20: a code is a remainder modulo `2 ^ bits`, and the digits of a byte compose to the byte. -/
theorem everyByteIsItsCodes : Obligations.EveryByteIsItsCodes := by
  intro byte bits hbits
  simp only [extractCode_eq]
  refine ⟨fun sub _ => Nat.le_sub_one_of_lt (Nat.mod_lt _ (Nat.two_pow_pos bits)), ?_⟩
  rw [composeByte_digits, div_mul_of_legal hbits, Nat.mod_eq_of_lt byte.isLt]

/-! ### The extractor's cases -/

/-- The extractor reads the `bits` bits of the byte from bit `sub * bits` on (40_bit_extractor.md R130). -/
theorem extractCode_eq_extractLsb' (byte : Byte) (sub bits : Nat) :
    extractCode byte sub bits = (byte.extractLsb' (sub * bits) bits).toNat := by
  rw [extractCode_eq, BitVec.extractLsb'_toNat, Nat.shiftRight_eq_div_pow]

/-- Once the shift reaches 8 the extractor answers 0 (40_bit_extractor.md R134). -/
theorem extractCode_of_shift_out {sub bits : Nat} (h : 8 ≤ sub * bits) (byte : Byte) :
    extractCode byte sub bits = 0 := by
  have hlt : byte.toNat < 2 ^ (sub * bits) := Nat.lt_of_lt_of_le byte.isLt (Nat.pow_le_pow_right Nat.two_pos h)
  rw [extractCode_eq, Nat.div_eq_of_lt hlt, Nat.zero_mod]

/-- Settles O18: the legal widths divide the byte, so a sub-index out of range shifts the whole byte out. -/
theorem extractorCases : Obligations.ExtractorCases := by
  refine ⟨extractCode_identity, fun byte => extractCode_eq_extractLsb' byte 0 4,
    fun byte => extractCode_eq_extractLsb' byte 1 4, fun byte sub bits hbits hsub => ?_⟩
  exact extractCode_of_shift_out (div_mul_of_legal hbits ▸ Nat.mul_le_mul_right bits hsub) byte

/-! ### EXTRACT -/

/-- EXTRACT with a legal width writes the code and ends `DONE` (40_bit_extractor.md R135). -/
theorem exec_extract_legal {s : State} (h : legalBits s.bits.toNat = true) :
    exec .extract s =
      .next (((s.accept 0x01#8).setCode (BitVec.ofNat 8 (extractCode s.xByte s.xSub.toNat s.bits.toNat))).setEngine .done) :=
  congrArg Host.Outcome.next (if_pos h)

/-- EXTRACT with any other width ends in `ConfigurationError` (60_exceptions.md R231). -/
theorem exec_extract_illegal {s : State} (h : legalBits s.bits.toNat = false) :
    exec .extract s = .next ((s.accept 0x01#8).raiseError .configuration) :=
  congrArg Host.Outcome.next (if_neg (Bool.eq_false_iff.1 h))

/-- Settles O16: EXTRACT's two answers, with the extractor in the arithmetic form of R130. -/
theorem extractResult : Obligations.ExtractResult := by
  refine ⟨decode_encode .extract, fun s hb => ?_, fun s h4 h8 => exec_extract_illegal (legalBits_false h4 h8)⟩
  rw [exec_extract_legal ((legalBits_iff _).2 hb), extractCode_eq]
  rfl

end Sys2Proof.Machine
end

section
/-! PROOFS. The kinds of binary32 values and the rounded value as the nearest one (41_accumulator_dequant.md R141), with the
integers that are binary32 values exactly (R142). -/

namespace Sys2Proof.Machine

/-! ### The kinds of values -/

theorem isNaN_of_isInf {x : F32} (h : isInf x = true) : isNaN x = false := by
  simp_all [isInf, isNaN]

theorem isZero_of_isInf {x : F32} (h : isInf x = true) : isZero x = false := by
  simp_all [isInf, isZero]

theorem isNaN_of_isZero {x : F32} (h : isZero x = true) : isNaN x = false := by
  simp_all [isZero, isNaN]

theorem isInf_of_isZero {x : F32} (h : isZero x = true) : isInf x = false := by
  simp_all [isZero, isInf]

theorem isFinite_iff (x : F32) : isFinite x = true ↔ isNaN x = false ∧ isInf x = false := by
  simp [isFinite]

/-- A value that is no NaN is an infinity or finite. -/
theorem isInf_or_isFinite {x : F32} (h : isNaN x = false) : isInf x = true ∨ isFinite x = true := by
  cases hi : isInf x
  · exact .inr ((isFinite_iff x).2 ⟨h, hi⟩)
  · exact .inl rfl

/-- A zero has the value 0 (30_encoding.md R118). -/
theorem fval_of_isZero {x : F32} (h : isZero x = true) : fval x = 0 := by
  rw [← Int.natAbs_eq_zero, fval_natAbs, (fmag_eq_zero x).2 h]

/-- A pattern with a sign is an infinity exactly when its bits 30:0 are infinity's. -/
theorem isInf_withSign {s : Bool} {p : Nat} (h : p < 2 ^ 31) : isInf (withSign s p) = true ↔ p = infPattern := by
  rw [isInf_iff, withSign_mod h]

/-- A pattern with a sign is no NaN up to infinity's bits 30:0. -/
theorem isNaN_withSign {s : Bool} {p : Nat} (h : p ≤ infPattern) : isNaN (withSign s p) = false := by
  rw [Bool.eq_false_iff, ne_eq, isNaN_iff, withSign_mod (Nat.lt_of_le_of_lt h (by decide))]
  exact Nat.not_lt_of_le h

/-- A value is determined by its sign and its magnitude (30_encoding.md R118). -/
theorem eq_of_fsign_fmag {x y : F32} (hs : fsign x = fsign y) (hm : fmag x = fmag y) : x = y := by
  rw [fmag_eq, fmag_eq] at hm
  rw [← withSign_fsign x, ← withSign_fsign y, hs, patternMag_inj hm]

/-! ### The rounded value -/

/-- The rounded pattern is infinity's exactly where the nearest pattern is cut off there (R141). -/
theorem roundPattern_eq_infPattern (n d : Nat) :
    roundPattern n d = infPattern ↔ infPattern ≤ spacing n d * 2 ^ 23 + roundEven n (d * 2 ^ spacing n d) := by
  rw [roundPattern]
  omega

/-- A rounded value is an infinity exactly from the midpoint above the largest finite value on (R141). -/
theorem isInf_roundF32 (s : Bool) {n d : Nat} (hd : 0 < d) :
    isInf (roundF32 s n d) = true ↔ (2 ^ 25 - 1) * 2 ^ 252 * d ≤ n := by
  rw [roundF32, isInf_withSign (roundPattern_lt n d), roundPattern_eq_infPattern, round_overflows hd]

/-- The bits 30:0 of a finite rounded value are those of the nearest pattern, not cut off at infinity (R141). -/
theorem roundPattern_of_finite {s : Bool} {n d : Nat} (h : isInf (roundF32 s n d) = false) :
    roundPattern n d = spacing n d * 2 ^ 23 + roundEven n (d * 2 ^ spacing n d) := by
  refine Nat.min_eq_left (Nat.le_of_not_le fun hle => ?_)
  have hinf := (isInf_withSign (s := s) (roundPattern_lt n d)).2 (Nat.min_eq_right hle)
  rw [← roundF32, h] at hinf
  cases hinf

/-- The fraction of a pattern has the parity of its bits 30:0. -/
theorem ffrac_withSign_mod_two {s : Bool} {p : Nat} (h : p < 2 ^ 31) : ffrac (withSign s p) % 2 = p % 2 := by
  have hmod := withSign_mod (s := s) h
  rw [ffrac]
  omega

/-- `roundF32` gives what R141 says of the real of its sign and magnitude. -/
theorem roundF32_roundsTo (s : Bool) {n d : Nat} (hd : 0 < d) : RoundsTo (roundF32 s n d) s n d := by
  refine ⟨isNaN_roundF32 s n d, fsign_roundF32 s n d, isInf_roundF32 s hd, fun hfin x _ _ => ?_⟩
  have hp := roundPattern_of_finite hfin
  obtain ⟨hnear, htie⟩ := patternMag_nearest (n := n) hd (x.toNat % 2 ^ 31)
  rw [← hp, ← fmag_eq, Int.natCast_mul, Int.natCast_mul] at hnear htie
  rw [roundF32, fmag_withSign (roundPattern_lt n d), ffrac_withSign_mod_two (roundPattern_lt n d)]
  refine ⟨hnear, fun hne heq => ?_⟩
  have heven := htie (fun hx => hne (by rw [fmag_eq, hx])) heq
  omega

/-- The sign of the real is the sign bit of the rounded pattern and nothing else (R141). -/
theorem roundF32_neg (s : Bool) (n d : Nat) : roundF32 (!s) n d = fneg (roundF32 s n d) :=
  (fneg_withSign (roundPattern_lt n d)).symm

/-- The infinity that a positive rounded value can be is `+inf`'s pattern. -/
theorem roundF32_eq_inf (n d : Nat) : roundF32 false n d = 0x7F800000#32 ↔ isInf (roundF32 false n d) = true := by
  refine ⟨fun h => by rw [h]; decide, fun h => ?_⟩
  rw [roundF32, (isInf_withSign (roundPattern_lt n d)).1 h]
  decide

/-- Settles O21: `roundF32` rounds as R141 says, and two values of one sign differ in magnitude. -/
theorem roundsToNearestEven : Obligations.RoundsToNearestEven := by
  intro n d _ hd
  obtain ⟨hnan, hsign, hinf, hnear⟩ := roundF32_roundsTo false (n := n) hd
  refine ⟨(roundF32_eq_inf n d).trans hinf, fun hne => ⟨hnan, hsign, fun x hxs hxn hxi => ?_⟩, roundF32_neg false n d⟩
  obtain ⟨hle, htie⟩ := hnear (Bool.eq_false_iff.2 (mt (roundF32_eq_inf n d).2 hne)) x hxn hxi
  exact ⟨hle, fun hx => htie fun hm => hx (eq_of_fsign_fmag (hxs.trans hsign.symm) hm)⟩

/-! ### Integers -/

/-- An integer up to `2^24` is kept by rounding: its sign, and its magnitude of `r * 2^149` units (R142, R147). -/
theorem roundF32_integer (s : Bool) {r : Nat} (h : r ≤ 2 ^ 24) :
    fmag (roundF32 s (r * 2 ^ 149) 1) = r * 2 ^ 149 ∧ isInf (roundF32 s (r * 2 ^ 149) 1) = false := by
  obtain ⟨p, hlt, hmag⟩ := integer_pattern h
  have hp : p < 2 ^ 31 := Nat.lt_trans hlt (by decide)
  have hround : roundF32 s (r * 2 ^ 149) 1 = withSign s p := by
    rw [roundF32, roundPattern_exact Nat.one_pos (Nat.le_of_lt hlt) (by rw [Nat.mul_one, hmag])]
  rw [hround, fmag_withSign hp, Bool.eq_false_iff, ne_eq, isInf_withSign hp]
  exact ⟨hmag, Nat.ne_of_lt hlt⟩

/-- The conversion of a code is a rounding also for the code 0 (R142). -/
theorem f32OfU8_eq (c : Nat) : f32OfU8 c = roundF32 false (c * 2 ^ 149) 1 := by
  rw [f32OfU8]
  split
  case isTrue h =>
    rw [h, Nat.zero_mul]
    decide
  case isFalse => rfl

theorem isNaN_f32OfU8 (c : Nat) : isNaN (f32OfU8 c) = false := by rw [f32OfU8_eq, isNaN_roundF32]

/-- A converted code has no sign, so it is never `-0.0` (R142). -/
theorem fsign_f32OfU8 (c : Nat) : fsign (f32OfU8 c) = false := by rw [f32OfU8_eq, fsign_roundF32]

/-- Settles O22: a code is an integer below `2^24`, which rounding keeps; the four patterns are computed. -/
theorem codeConversionExact : Obligations.CodeConversionExact := by
  refine ⟨fun c hc => ?_, by decide, by decide, by decide, by decide⟩
  obtain ⟨hmag, hfin⟩ := roundF32_integer false (r := c) (by omega)
  rw [← f32OfU8_eq] at hmag hfin
  refine ⟨?_, isNaN_f32OfU8 c, hfin⟩
  rw [fval, fsign_f32OfU8, hmag]
  simp

end Sys2Proof.Machine
end

section
/-! PROOFS. `fadd` and `fsub` (41_accumulator_dequant.md R143, R144): one equation per case, and the zero as the neutral
element. -/

namespace Sys2Proof.Machine

/-! ### The cases of `fadd` -/

theorem fadd_of_isNaN {a b : F32} (h : isNaN a = true ∨ isNaN b = true) : fadd a b = 0x7FC00000#32 := by
  rw [fadd, if_pos (by simpa using h), canonicalNaN]

theorem fadd_opposite_infs {a b : F32} (ha : isInf a = true) (hb : isInf b = true) (hs : fsign a ≠ fsign b) :
    fadd a b = 0x7FC00000#32 := by
  simp [fadd, isNaN_of_isInf ha, isNaN_of_isInf hb, ha, hb, hs, canonicalNaN]

/-- An infinity is kept by adding a finite value or itself (R143). -/
theorem fadd_inf {a b : F32} (ha : isInf a = true) (hb : isFinite b = true ∨ b = a) :
    fadd a b = a ∧ fadd b a = a := by
  rcases hb with hb | rfl
  · obtain ⟨hbn, hbi⟩ := (isFinite_iff b).1 hb
    simp [fadd, isNaN_of_isInf ha, ha, hbn, hbi]
  · simp [fadd, isNaN_of_isInf ha, ha]

theorem fadd_zeros {a b : F32} (ha : isZero a = true) (hb : isZero b = true) :
    fadd a b = signedZero (fsign a && fsign b) := by
  simp [fadd, isNaN_of_isZero, isInf_of_isZero, ha, hb]

/-- Finite values with an exact sum of zero, not both zeros (R143). -/
theorem fadd_cancel {a b : F32} (ha : isFinite a = true) (hb : isFinite b = true) (hz : isZero a = false)
    (hsum : fval a + fval b = 0) : fadd a b = 0x00000000#32 := by
  obtain ⟨han, hai⟩ := (isFinite_iff a).1 ha
  obtain ⟨hbn, hbi⟩ := (isFinite_iff b).1 hb
  simp [fadd, han, hai, hbn, hbi, hz, hsum, plusZero]

/-- Finite values with a nonzero sum: the sum, rounded once (R143). -/
theorem fadd_finite {a b : F32} (ha : isFinite a = true) (hb : isFinite b = true) (hsum : fval a + fval b ≠ 0) :
    fadd a b = roundF32 (decide (fval a + fval b < 0)) (fval a + fval b).natAbs 1 := by
  obtain ⟨han, hai⟩ := (isFinite_iff a).1 ha
  obtain ⟨hbn, hbi⟩ := (isFinite_iff b).1 hb
  have hz : ¬(isZero a = true ∧ isZero b = true) := fun ⟨hza, hzb⟩ =>
    hsum (by rw [fval_of_isZero hza, fval_of_isZero hzb, Int.add_zero])
  simp [fadd, han, hai, hbn, hbi, hz, hsum]

/-- The sign of the zero that two zeros add to (R143). -/
theorem fadd_zeros_pattern {a b : F32} (ha : isZero a = true) (hb : isZero b = true) :
    fadd a b = if a = 0x80000000#32 ∧ b = 0x80000000#32 then 0x80000000#32 else 0x00000000#32 := by
  rw [fadd_zeros ha hb]
  rcases isZero_cases ha with rfl | rfl <;> rcases isZero_cases hb with rfl | rfl <;> decide

/-! ### Zero as the neutral element -/

/-- A finite sum that is a binary32 value is that value, exactly (R143). -/
theorem fadd_exact {a b x : F32} (ha : isFinite a = true) (hb : isFinite b = true) (hx : isNaN x = false)
    (hz : isZero x = false) (hsum : fval a + fval b = fval x) : fadd a b = x := by
  rw [fadd_finite ha hb (hsum ▸ fval_ne_zero hz), hsum, fval_natAbs, fval_neg hz]
  exact roundF32_exact Nat.one_pos hx (Nat.mul_one _) rfl

/-- Either zero, added on either side, keeps every nonzero value that is no NaN (R143). -/
theorem fadd_zero_of_nonzero {z x : F32} (hz : isZero z = true) (hx : isNaN x = false) (hne : isZero x = false) :
    fadd z x = x ∧ fadd x z = x := by
  have hzf : isFinite z = true := (isFinite_iff z).2 ⟨isNaN_of_isZero hz, isInf_of_isZero hz⟩
  rcases isInf_or_isFinite hx with hinf | hfin
  · exact (fadd_inf hinf (.inl hzf)).symm
  · have hval := fval_of_isZero hz
    exact ⟨fadd_exact hzf hfin hx hne (by rw [hval, Int.zero_add]),
      fadd_exact hfin hzf hx hne (by rw [hval, Int.add_zero])⟩

/-- `+0.0 + x` is `x` but for the sign of zero (R143, note). -/
theorem fadd_plusZero_left {x : F32} (hx : isNaN x = false) :
    fadd 0x00000000#32 x = if x = 0x80000000#32 then 0x00000000#32 else x := by
  cases hz : isZero x
  · rw [(fadd_zero_of_nonzero (by decide) hx hz).1, if_neg fun h => by rw [h] at hz; revert hz; decide]
  · rcases isZero_cases hz with rfl | rfl <;> decide

/-- `x - (+0.0)` is `x` (R144, note). -/
theorem fsub_plusZero_right {x : F32} (hx : isNaN x = false) : fsub x 0x00000000#32 = x := by
  cases hz : isZero x
  · exact (fadd_zero_of_nonzero (by decide) hx hz).2
  · rcases isZero_cases hz with rfl | rfl <;> decide

/-- `x - (-0.0)` is `x` unless `x` is `-0.0` (R144). -/
theorem fsub_minusZero_right {x : F32} (hx : isNaN x = false) (hs : fsign x = false) : fsub x 0x80000000#32 = x := by
  cases hz : isZero x
  · exact (fadd_zero_of_nonzero (by decide) hx hz).2
  · rcases isZero_cases hz with rfl | rfl
    · decide
    · exact absurd hs (by decide)

/-! ### A value less itself -/

/-- `x - x` is `+0.0` for finite `x` (R144, note). -/
theorem fsub_self_finite {x : F32} (hx : isFinite x = true) : fsub x x = 0x00000000#32 := by
  cases hz : isZero x
  · exact fadd_cancel hx (by simpa [isFinite] using hx) hz (by rw [fval_fneg, Int.add_right_neg])
  · rcases isZero_cases hz with rfl | rfl <;> decide

/-- `x - x` is the canonical NaN for infinite `x` (R144, note). -/
theorem fsub_self_inf {x : F32} (hx : isInf x = true) : fsub x x = 0x7FC00000#32 :=
  fadd_opposite_infs hx (by rw [isInf_fneg, hx]) (by simp)

/-- Settles O23: the cases of `fadd` one by one, the finite one by `roundF32_roundsTo`, and the notes. -/
theorem addAndSubtract : Obligations.AddAndSubtract :=
  ⟨fun _ _ => fadd_of_isNaN, fun _ _ => fadd_opposite_infs, fun _ _ => fadd_inf, fun _ _ => fadd_zeros_pattern,
    fun _ _ => fadd_cancel, fun _ _ ha hb hsum => fadd_finite ha hb hsum ▸ roundF32_roundsTo _ Nat.one_pos,
    fun _ _ => rfl, fun _ => fadd_plusZero_left, fun _ => fsub_plusZero_right,
    fun x hn hi => fsub_self_finite ((isFinite_iff x).2 ⟨hn, hi⟩), fun _ => fsub_self_inf⟩

end Sys2Proof.Machine
end

section
/-! PROOFS. `fmul` and `fdiv` (41_accumulator_dequant.md R145, R146): one equation per case, and 1.0 as the neutral
element. -/

namespace Sys2Proof.Machine

/-! ### Signs -/

theorem signedInf_bne (s t : Bool) : signedInf (s != t) = if s = t then 0x7F800000#32 else 0xFF800000#32 := by
  cases s <;> cases t <;> decide

theorem signedZero_bne (s t : Bool) : signedZero (s != t) = if s = t then 0x00000000#32 else 0x80000000#32 := by
  cases s <;> cases t <;> decide

theorem fmag_pos {x : F32} (h : isZero x = false) : 0 < fmag x :=
  Nat.pos_of_ne_zero fun hm => by rw [(fmag_eq_zero x).1 hm] at h; cases h

/-! ### The cases of `fmul` -/

/-- `fmul` takes its operands in either order (R145, note). -/
theorem fmul_comm (a b : F32) : fmul a b = fmul b a := by
  rw [fmul, fmul, Bool.or_comm (isNaN b), Bool.and_comm (isInf b), Bool.and_comm (isZero b),
    Bool.or_comm (isZero a && isInf b), Bool.or_comm (isInf b), Bool.or_comm (isZero b), bne_comm (a := fsign b),
    Nat.mul_comm (fmag b)]

theorem fmul_of_isNaN {a b : F32} (h : isNaN a = true ∨ isNaN b = true) : fmul a b = 0x7FC00000#32 := by
  rw [fmul, if_pos (by simpa using h), canonicalNaN]

theorem fmul_inf_zero {a b : F32} (ha : isInf a = true) (hb : isZero b = true) : fmul a b = 0x7FC00000#32 := by
  simp [fmul, isNaN_of_isInf ha, isNaN_of_isZero hb, ha, hb, canonicalNaN]

theorem fmul_inf {a b : F32} (ha : isInf a = true) (hb : isNaN b = false) (hz : isZero b = false) :
    fmul a b = signedInf (fsign a != fsign b) := by
  simp [fmul, isNaN_of_isInf ha, isZero_of_isInf ha, ha, hb, hz]

theorem fmul_zero {a b : F32} (ha : isZero a = true) (hb : isFinite b = true) :
    fmul a b = signedZero (fsign a != fsign b) := by
  obtain ⟨hbn, hbi⟩ := (isFinite_iff b).1 hb
  simp [fmul, isNaN_of_isZero ha, isInf_of_isZero ha, ha, hbn, hbi]

/-- Finite nonzero values: the exact product, rounded once (R145). -/
theorem fmul_finite {a b : F32} (ha : isFinite a = true) (hb : isFinite b = true) (hza : isZero a = false)
    (hzb : isZero b = false) : fmul a b = roundF32 (fsign a != fsign b) (fmag a * fmag b) (2 ^ 149) := by
  obtain ⟨han, hai⟩ := (isFinite_iff a).1 ha
  obtain ⟨hbn, hbi⟩ := (isFinite_iff b).1 hb
  simp [fmul, han, hai, hbn, hbi, hza, hzb, oneUnits]

/-- `x * 1.0` is `x` (R145, note). -/
theorem fmul_one {x : F32} (hx : isNaN x = false) : fmul x 0x3F800000#32 = x := by
  have hsign : (fsign x != fsign 0x3F800000#32) = fsign x := Bool.bne_false _
  rcases isInf_or_isFinite hx with hinf | hfin
  · rw [fmul_inf hinf (by decide) (by decide), hsign, signedInf, ← (isInf_iff x).1 hinf, withSign_fsign]
  cases hz : isZero x
  · rw [fmul_finite hfin (by decide) hz (by decide), hsign]
    exact roundF32_exact (Nat.two_pow_pos 149) hx (congrArg (fmag x * ·) (by decide)) rfl
  · rw [fmul_zero hz (by decide), hsign, signedZero, ← (isZero_iff x).1 hz, withSign_fsign]

/-! ### The cases of `fdiv` -/

theorem fdiv_of_isNaN {a b : F32} (h : isNaN a = true ∨ isNaN b = true) : fdiv a b = 0x7FC00000#32 := by
  rw [fdiv, if_pos (by simpa using h), canonicalNaN]

/-- Infinity over infinity and zero over zero (R146). -/
theorem fdiv_undefined {a b : F32} (h : (isInf a = true ∧ isInf b = true) ∨ (isZero a = true ∧ isZero b = true)) :
    fdiv a b = 0x7FC00000#32 := by
  rcases h with ⟨ha, hb⟩ | ⟨ha, hb⟩
  · simp [fdiv, isNaN_of_isInf, ha, hb, canonicalNaN]
  · simp [fdiv, isNaN_of_isZero, ha, hb, canonicalNaN]

/-- An infinity over a finite value, and anything but zero over zero (R146). -/
theorem fdiv_infinite {a b : F32}
    (h : (isInf a = true ∧ isFinite b = true) ∨ (isZero b = true ∧ isNaN a = false ∧ isZero a = false)) :
    fdiv a b = signedInf (fsign a != fsign b) := by
  rcases h with ⟨ha, hb⟩ | ⟨hb, han, haz⟩
  · obtain ⟨hbn, hbi⟩ := (isFinite_iff b).1 hb
    simp [fdiv, isNaN_of_isInf ha, isZero_of_isInf ha, ha, hbn, hbi]
  · simp [fdiv, isNaN_of_isZero hb, isInf_of_isZero hb, hb, han, haz]

/-- Zero over anything else, and a finite value over an infinity (R146). -/
theorem fdiv_vanishing {a b : F32}
    (h : (isZero a = true ∧ isNaN b = false ∧ isZero b = false) ∨ (isInf b = true ∧ isFinite a = true)) :
    fdiv a b = signedZero (fsign a != fsign b) := by
  rcases h with ⟨ha, hbn, hbz⟩ | ⟨hb, ha⟩
  · simp [fdiv, isNaN_of_isZero ha, isInf_of_isZero ha, ha, hbn, hbz]
  · obtain ⟨han, hai⟩ := (isFinite_iff a).1 ha
    simp [fdiv, isNaN_of_isInf hb, isZero_of_isInf hb, hb, han, hai]

/-- Finite nonzero values: the exact quotient, rounded once (R146). -/
theorem fdiv_finite {a b : F32} (ha : isFinite a = true) (hb : isFinite b = true) (hza : isZero a = false)
    (hzb : isZero b = false) : fdiv a b = roundF32 (fsign a != fsign b) (fmag a * 2 ^ 149) (fmag b) := by
  obtain ⟨han, hai⟩ := (isFinite_iff a).1 ha
  obtain ⟨hbn, hbi⟩ := (isFinite_iff b).1 hb
  simp [fdiv, han, hai, hbn, hbi, hza, hzb, oneUnits]

/-- Settles O24: the cases of `fmul` (its mirrored clauses by `fmul_comm`) and of `fdiv` one by one, the finite ones by
`roundF32_roundsTo`. -/
theorem multiplyAndDivide : Obligations.MultiplyAndDivide := by
  refine ⟨fun _ _ h => ⟨fmul_of_isNaN h, fdiv_of_isNaN h⟩, fun a b ha hb => ?_, fun a b ha hb hz => ?_,
    fun a b ha hb => ?_, fun a b ha hb hza hzb => ?_, fun _ _ => fdiv_undefined, fun a b h => ?_, fun a b h => ?_,
    fun a b ha hb hza hzb => ?_, fun _ => fmul_one, fmul_comm⟩
  · rw [fmul_comm b, fmul_inf_zero ha hb]
    exact ⟨rfl, rfl⟩
  · rw [fmul_comm b, fmul_inf ha hb hz, signedInf_bne]
    exact ⟨rfl, rfl⟩
  · rw [fmul_comm b, fmul_zero ha hb, signedZero_bne]
    exact ⟨rfl, rfl⟩
  · rw [fmul_finite ha hb hza hzb]
    exact roundF32_roundsTo _ (Nat.two_pow_pos 149)
  · rw [fdiv_infinite h, signedInf_bne]
  · rw [fdiv_vanishing h, signedZero_bne]
  · rw [fdiv_finite ha hb hza hzb]
    exact roundF32_roundsTo _ (fmag_pos hzb)

end Sys2Proof.Machine
end

section
/-! PROOFS. `frint` (41_accumulator_dequant.md R147), and NaN results of the five operations (R148). -/

namespace Sys2Proof.Machine

/-! ### `frint` -/

theorem frint_of_isNaN {a : F32} (h : isNaN a = true) : frint a = 0x7FC00000#32 := if_pos h

/-- From `2^23` on every binary32 value is an integer, and `frint` is the identity (R147). -/
theorem frint_large {a : F32} (h : isNaN a = false) (hm : 2 ^ 23 * 2 ^ 149 ≤ fmag a) : frint a = a := by
  rw [frint, oneUnits, if_neg (Bool.eq_false_iff.1 h), if_pos (Bool.or_eq_true_iff.2 (.inr (decide_eq_true hm)))]

/-- The magnitude of an infinity as a pattern is above `2^23` (30_encoding.md R118). -/
theorem fmag_of_isInf {x : F32} (h : isInf x = true) : 2 ^ 23 * 2 ^ 149 ≤ fmag x := by
  rw [fmag_eq, (isInf_iff x).1 h]
  decide

/-- Below `2^23` the result is the nearest integer, rounded without loss, also where it is zero (R147). -/
theorem frint_small {a : F32} (h : isNaN a = false) (hm : fmag a < 2 ^ 23 * 2 ^ 149) :
    frint a = roundF32 (fsign a) (roundEven (fmag a) (2 ^ 149) * 2 ^ 149) 1 := by
  have hfin : isInf a = false := Bool.eq_false_iff.2 fun hi => Nat.not_le_of_lt hm (fmag_of_isInf hi)
  rw [frint, oneUnits, if_neg (Bool.eq_false_iff.1 h), hfin, Bool.false_or,
    if_neg fun hd => Nat.not_le_of_lt hm (of_decide_eq_true hd)]
  split
  case isTrue h0 =>
    rw [h0, Nat.zero_mul]
    cases fsign a <;> decide
  case isFalse => rfl

/-- The nearest integer to a magnitude below `2^23` is a binary32 value (R147). -/
theorem roundEven_le_of_lt {n : Nat} (h : n < 2 ^ 23 * 2 ^ 149) : roundEven n (2 ^ 149) ≤ 2 ^ 24 := by
  have hdiv : n / 2 ^ 149 < 2 ^ 23 := (Nat.div_lt_iff_lt_mul (Nat.two_pow_pos 149)).2 h
  have hbound := (roundEven_bounds n (2 ^ 149)).2
  omega

/-- Settles O26: below `2^23` the integer is `roundEven`'s, which is nearest and even on a tie, and rounding keeps it. -/
theorem roundsToIntegral : Obligations.RoundsToIntegral := by
  refine ⟨fun a hn hm => ⟨roundEven (fmag a) (2 ^ 149), ?_⟩, fun _ => frint_large, fun _ => frint_of_isNaN⟩
  rw [frint_small hn hm]
  exact ⟨(roundF32_integer _ (roundEven_le_of_lt hm)).1, fsign_roundF32 _ _ _, isNaN_roundF32 _ _ _,
    roundEven_nearest (Nat.two_pow_pos 149)⟩

/-! ### NaN results -/

/-- A result as R148 (a) asks for it: if it is a NaN at all, the canonical one. -/
def CanonicalIfNaN (x : F32) : Prop := isNaN x = true → x = 0x7FC00000#32

theorem canonicalIfNaN_canonicalNaN : CanonicalIfNaN canonicalNaN := fun _ => rfl

theorem canonicalIfNaN_of_not {x : F32} (h : isNaN x = false) : CanonicalIfNaN x := fun hx => by
  rw [h] at hx
  cases hx

theorem canonicalIfNaN_signedInf (s : Bool) : CanonicalIfNaN (signedInf s) :=
  canonicalIfNaN_of_not (isNaN_withSign (Nat.le_refl _))

theorem canonicalIfNaN_signedZero (s : Bool) : CanonicalIfNaN (signedZero s) :=
  canonicalIfNaN_of_not (isNaN_withSign (Nat.zero_le _))

theorem canonicalIfNaN_roundF32 (s : Bool) (n d : Nat) : CanonicalIfNaN (roundF32 s n d) :=
  canonicalIfNaN_of_not (isNaN_roundF32 s n d)

/-- One case of an operation: its own answer where the condition holds, the later cases' answers where it does not. -/
theorem CanonicalIfNaN.ite {c : Prop} [Decidable c] {x y : F32} (hx : c → CanonicalIfNaN x) (hy : CanonicalIfNaN y) :
    CanonicalIfNaN (if c then x else y) := by
  by_cases h : c
  · rw [if_pos h]
    exact hx h
  · rw [if_neg h]
    exact hy

/-- Past its NaN cases `fadd` answers an infinite operand, a zero or a rounded value (R143). -/
theorem canonicalIfNaN_fadd (a b : F32) : CanonicalIfNaN (fadd a b) := by
  rw [fadd]
  refine .ite (fun _ => canonicalIfNaN_canonicalNaN) (.ite (fun _ => canonicalIfNaN_canonicalNaN) ?_)
  refine .ite (fun ha => canonicalIfNaN_of_not (isNaN_of_isInf ha)) ?_
  refine .ite (fun hb => canonicalIfNaN_of_not (isNaN_of_isInf hb)) ?_
  refine .ite (fun _ => canonicalIfNaN_signedZero _) (.ite (fun _ => canonicalIfNaN_signedZero false) ?_)
  exact canonicalIfNaN_roundF32 _ _ _

/-- Past its NaN cases `fmul` answers an infinity, a zero or a rounded value (R145). -/
theorem canonicalIfNaN_fmul (a b : F32) : CanonicalIfNaN (fmul a b) := by
  rw [fmul]
  refine .ite (fun _ => canonicalIfNaN_canonicalNaN) (.ite (fun _ => canonicalIfNaN_canonicalNaN) ?_)
  refine .ite (fun _ => canonicalIfNaN_signedInf _) (.ite (fun _ => canonicalIfNaN_signedZero _) ?_)
  exact canonicalIfNaN_roundF32 _ _ _

/-- Past its NaN cases `fdiv` answers an infinity, a zero or a rounded value (R146). -/
theorem canonicalIfNaN_fdiv (a b : F32) : CanonicalIfNaN (fdiv a b) := by
  rw [fdiv]
  refine .ite (fun _ => canonicalIfNaN_canonicalNaN) (.ite (fun _ => canonicalIfNaN_canonicalNaN) ?_)
  refine .ite (fun _ => canonicalIfNaN_signedInf _) (.ite (fun _ => canonicalIfNaN_signedZero _) ?_)
  exact canonicalIfNaN_roundF32 _ _ _

/-- A NaN is the one operand from which `frint` gives a NaN (R147). -/
theorem canonicalIfNaN_frint (a : F32) : CanonicalIfNaN (frint a) := by
  cases hn : isNaN a
  · rcases Nat.lt_or_ge (fmag a) (2 ^ 23 * 2 ^ 149) with hm | hm
    · rw [frint_small hn hm]
      exact canonicalIfNaN_roundF32 _ _ _
    · rw [frint_large hn hm]
      exact canonicalIfNaN_of_not hn
  · exact fun _ => frint_of_isNaN hn

/-- Settles O25: each operation's result is canonical if a NaN, and a NaN operand is the first case of `fadd`, `fmul` and
`fdiv`; `fsub` is `fadd` of the flipped operand, a NaN like the operand itself. -/
theorem naNsAreCanonical : Obligations.NaNsAreCanonical := fun a b =>
  ⟨canonicalIfNaN_fadd a b, canonicalIfNaN_fadd a (fneg b), canonicalIfNaN_fmul a b, canonicalIfNaN_fdiv a b,
    canonicalIfNaN_frint a, fun h =>
      ⟨fadd_of_isNaN h, fadd_of_isNaN (isNaN_fneg b ▸ h), fmul_of_isNaN h, fdiv_of_isNaN h⟩⟩

end Sys2Proof.Machine
end

section
/-! PROOFS. Scale and zero-point in a dot product (41_accumulator_dequant.md R154, R155): a multiplication by 1.0 before one by
the scale changes nothing, nor does the subtraction of a zero from a converted code. -/

namespace Sys2Proof.Machine

/-! ### The scale -/

/-- Multiplying by 1.0 first changes no product: `x * 1.0` is `x`, or a NaN where `x` is one (R145, R148). -/
theorem fmul_one_fmul (x y : F32) : fmul (fmul x 0x3F800000#32) y = fmul x y := by
  cases hx : isNaN x
  · rw [fmul_one hx]
  · rw [fmul_of_isNaN (.inl hx), fmul_of_isNaN (.inl hx), fmul_of_isNaN (.inl (by decide))]

/-- The scale does not change what is read: it is no part of an address (42_dot_product.md R160). -/
theorem readable_scale (p : Params) (d : DotArgs) (v : F32) : ({ d with scale := v } : DotArgs).readable p = d.readable p :=
  rfl

/-- The scale multiplies the sum once, and the sum does not depend on it (R152). -/
theorem dotValue_scale (m : Memory) (d : DotArgs) (v : F32) :
    dotValue m { d with scale := v } = fmul (dotSum m d) v := rfl

/-- Settles O31: the two dot products read the same bytes and multiply the same sum, the one by 1.0 first. -/
theorem scaleLinearity : Obligations.ScaleLinearity := by
  intro p m d
  rw [dot_eq, dot_eq, readable_scale p d 0x3F800000#32, dotValue_scale m d 0x3F800000#32]
  cases d.readable p
  · rfl
  · exact congrArg Except.ok (fmul_one_fmul (dotSum m d) d.scale).symm

/-! ### The zero-point -/

/-- A zero of either sign subtracted from a converted code leaves it (R155). -/
theorem fsub_f32OfU8_zero {zp : F32} (h : zp = 0x00000000#32 ∨ zp = 0x80000000#32) (c : Nat) :
    fsub (f32OfU8 c) zp = f32OfU8 c := by
  rcases h with rfl | rfl
  · exact fsub_plusZero_right (isNaN_f32OfU8 c)
  · exact fsub_minusZero_right (isNaN_f32OfU8 c) (fsign_f32OfU8 c)

/-- Settles O32: the offset of `ACC.MAC`'s product is the subtraction that changes nothing. -/
theorem zeroPointIdentity : Obligations.ZeroPointIdentity := fun _zp acc b c hzp _ =>
  have hsub := fsub_f32OfU8_zero hzp c
  ⟨hsub, congrArg (fun x => fadd acc (fmul x b)) hsub⟩

end Sys2Proof.Machine
end

section
/-! PROOFS. The dot product (42_dot_product.md): the halving tree, the strategy selected, the agreement of the strategies
below a block, the bytes a dot product depends on, and the two ends of the DOT command. -/

namespace Sys2Proof.Machine

/-! ### The halving tree and the selection -/

/-- Settles O27: each halving adds the two halves of its list lane by lane, and all four are computed. -/
theorem reductionTree : Obligations.ReductionTree := by
  intro p0 p1 p2 p3 p4 p5 p6 p7 p8 p9 p10 p11 p12 p13 p14 p15
  rfl

/-- Settles O28: the two tests of the selection in their order. -/
theorem strategySelection : Obligations.StrategySelection :=
  ⟨fun _ => rfl, rfl, rfl, fun b v h4 h8 => by rw [selectStrategy, if_neg h4, if_neg h8]⟩

/-! ### The strategies for one code per byte -/

/-- The strategies for `bits = 8` read the same bytes (42_dot_product.md R164, R169). -/
theorem readable_v8_eq_s8 (p : Params) (d : DotArgs) :
    ({ d with strategy := .v8 } : DotArgs).readable p = ({ d with strategy := .s8 } : DotArgs).readable p := rfl

/-- The strategies for `bits = 8` have the same products (42_dot_product.md R173). -/
theorem productAt_v8_eq_s8 (m : Memory) (d : DotArgs) :
    productAt m { d with strategy := .v8 } = productAt m { d with strategy := .s8 } := rfl

/-- With no full block Strategy V is its scalar remainder alone (42_dot_product.md R169, R171). -/
theorem dotSum_v8_of_lt_block (m : Memory) {d : DotArgs} (hv : d.strategy = .v8) (h : d.length < Config.block) :
    dotSum m d = ascendingSum m d accClr 0 d.length := by
  have hblocks : d.blocks = 0 := Nat.div_eq_of_lt h
  simp only [dotSum, hv, hblocks]
  rfl

/-- Strategy S for `bits = 8` sums one product per byte (42_dot_product.md R164). -/
theorem dotSum_s8 (m : Memory) {d : DotArgs} (hs : d.strategy = .s8) :
    dotSum m d = ascendingSum m d accClr 0 d.length := by
  have hlog : d.logical = d.length := by simp [DotArgs.logical, hs, Strategy.per, Strategy.bits, subsPerByte]
  simp only [dotSum, hs, hlog]

/-- Settles O33: both strategies read the same bytes, and with no full block both add the same products in the same order. -/
theorem strategiesAgreeBelowABlock : Obligations.StrategiesAgreeBelowABlock := by
  intro p m d h
  have hsum : dotSum m { d with strategy := .v8 } = dotSum m { d with strategy := .s8 } := by
    rw [dotSum_v8_of_lt_block m (d := { d with strategy := .v8 }) rfl h, dotSum_s8 m (d := { d with strategy := .s8 }) rfl,
      ascendingSum, ascendingSum, productAt_v8_eq_s8]
  rw [dot_eq, dot_eq, readable_v8_eq_s8, dotValue, dotValue, hsum]

/-! ### The read footprint -/

/-- The bytes an element is read from are in the read footprint of its dot product (20_memory.md R83). -/
theorem DotArgs.reads_mem_readFootprint {d : DotArgs} {l : Nat} (hl : l < d.logical) {x : Int} (hx : d.reads l x) :
    x ∈ d.readFootprint := by
  rcases hx with rfl | ⟨b, hb, rfl⟩
  · have ht : l / d.strategy.per < d.length := (Nat.div_lt_iff_lt_mul d.strategy.per_pos).2 hl
    exact List.mem_append_left _ (List.mem_map_of_mem (List.mem_range.2 ht))
  · have helement : d.denseAddr l + (b : Nat) ∈ elementBytes (d.denseAddr l) :=
      List.mem_map.2 ⟨b, List.mem_range.2 hb, rfl⟩
    exact List.mem_append_right _ (List.mem_flatMap.2 ⟨l, List.mem_range.2 hl, helement⟩)

/-- The dense values of a readable dot product have addresses in memory (20_memory.md R75). -/
theorem denseAddr_nonneg_of_readable {p : Params} {d : DotArgs} (h : d.readable p = true) {l : Nat} (hl : l < d.logical) :
    0 ≤ d.denseAddr l := by
  have hok := readable_iff.1 h l hl
  rw [DotArgs.elementOk, Bool.and_eq_true] at hok
  exact (admitted_bounds hok.2).1

/-- A readable dot product has one value in two memories that agree on its read footprint (42_dot_product.md R174). -/
theorem dotValue_congr {p : Params} {m m' : Memory} {d : DotArgs} (hr : d.readable p = true)
    (h : ∀ x ∈ d.readFootprint, Memory.read m x.toNat = Memory.read m' x.toNat) : dotValue m d = dotValue m' d := by
  have hproduct : ∀ l < d.logical, productAt m d l = productAt m' d l := fun l hl =>
    productAt_congr (denseAddr_nonneg_of_readable hr hl) fun x hx => h x (DotArgs.reads_mem_readFootprint hl hx)
  rw [dotValue, dotValue, dotSum_congr hproduct]

/-- Settles O34: whether the reads are admitted does not depend on memory, and where they are, the value is that of the
footprint's bytes. -/
theorem dotReadsOnlyItsFootprint : Obligations.DotReadsOnlyItsFootprint := by
  intro p m m' d h
  rw [dot_eq, dot_eq]
  split
  next hr => rw [dotValue_congr hr h]
  next => rfl

/-! ### The DOT command -/

/-- DOT writes no memory, so its output meets no input (20_memory.md R82, R83). -/
@[simp] theorem aliased_dot (d : DotArgs) : (Launch.dot d).aliased = false := rfl

/-- A completed DOT sets `D_RESULT` and the engine state alone (42_dot_product.md R175). -/
theorem retire_dot (d : DotArgs) (v : F32) (s : State) :
    retire (.dot d) v false s = { s with dResult := v, engine := .done } := rfl

/-- An aborted DOT has no byte to put back: it sets the engine state alone (60_exceptions.md R241). -/
theorem abortRun_dot (d : DotArgs) (mem0 : Memory) (c : AbortCode) (s : State) :
    abortRun (.dot d) mem0 false c s = { s with engine := .abort c } := rfl

/-- A DOT without a plan, in its two ends (42_dot_product.md R175, 45_command_protocol.md R223). -/
theorem exec_dot_eq {s : State} {st : Strategy} (hst : s.chooses st) (ht : s.turns = []) :
    exec .dot s = .next (if (s.dotArgs st).readable s.par then
        { s with lastop := 0x02#8, dResult := dotValue s.mem (s.dotArgs st), engine := .done }
      else { s with lastop := 0x02#8, engine := .abort .memory }) := by
  rw [exec_dot_launch hst, launch_eq (s := s.accept 0x02#8) ht, aliased_dot, retire_dot, abortRun_dot]
  rfl

/-- Settles O29: the end of a DOT whose reads are all admitted. -/
theorem dotResult : Obligations.DotResult := by
  intro s st hst ht hr
  rw [exec_dot_eq hst ht, if_pos hr]

/-- Settles O30: the end of a DOT with a read that is not admitted. -/
theorem dotAborts : Obligations.DotAborts := by
  intro s st hst ht hr
  rw [exec_dot_eq hst ht, hr]
  rfl

end Sys2Proof.Machine
end

section
/-! PROOFS. What a worker's step does to the output (10_state.md R53, 43_matmul_driver.md R187, 44_packing_stage.md R206): it
stores only the elements it leaves behind, as the memory before the command gives them. -/

namespace Sys2Proof.Machine

/-! ### Memories that agree -/

/-- Several writes leave an address the same in two memories that agree on it, or where one of the writes names it. -/
theorem Memory.read_writeAll_congr {m n : Memory} {cs : List Host.Cell} {x : Nat} (hm : Memory.wf m = true)
    (hn : Memory.wf n = true) (h : Memory.read m x = Memory.read n x ∨ ∃ c ∈ cs, c.1 = x) :
    Memory.read (Memory.writeAll m cs) x = Memory.read (Memory.writeAll n cs) x := by
  induction cs generalizing m n with
  | nil => simpa using h
  | cons c cs ih =>
    refine ih (Memory.wf_write _ _ hm) (Memory.wf_write _ _ hn) ?_
    rw [Memory.read_write _ _ _ hm, Memory.read_write _ _ _ hn]
    by_cases hx : x = c.1
    · simp [hx]
    · rw [if_neg hx, if_neg hx]
      refine h.imp_right fun ⟨d, hd, hdx⟩ => ⟨d, (List.mem_cons.1 hd).resolve_left ?_, hdx⟩
      rintro rfl
      exact hx hdx.symm

/-- The bytes a launch would write are those of its admitted elements (60_exceptions.md R243). -/
theorem mem_wouldWrite {p : Params} {m : Memory} {op : Launch} {c : Host.Cell} :
    c ∈ wouldWrite p m op ↔ ∃ e ∈ op.elements, elementAdmitted p op e = true ∧ c ∈ elementCells m op e := by
  rw [wouldWrite_eq, List.mem_flatMap]
  refine exists_congr fun e => and_congr_right fun _ => ?_
  cases elementAdmitted p op e <;> simp

/-! ### What a worker has done -/

/-- The worker has left element `e` of its range behind. -/
def Worker.passed (w : Worker) (e : Nat × Nat) : Prop := w.lo ≤ e.1 ∧ (e.1 < w.i ∨ e.1 = w.i ∧ e.2 < w.j)

/-- The worker's accumulator is the partial sum of the dot product it is in (41_accumulator_dequant.md R151); PACK sums
nothing. -/
def Worker.sumOk (p : Params) (m0 : Memory) (op : Launch) (w : Worker) : Prop :=
  match op with
  | .dot d => w.holdsSum p m0 d
  | .matmul a => w.holdsSum p m0 (a.cell w.i w.j)
  | .pack _ => True

/-- Memory `m` holds element `e` of the output, computed from memory `m0` by admitted accesses. -/
def ElementStored (p : Params) (m0 m : Memory) (op : Launch) (e : Nat × Nat) : Prop :=
  elementAdmitted p op e = true ∧ ∀ c ∈ elementCells m0 op e, Memory.read m c.1 = c.2

theorem Worker.sumOk_of_cleared {p : Params} {m0 : Memory} {w : Worker} (op : Launch) (hl : w.l = 0)
    (ha : w.acc = accClr) : w.sumOk p m0 op := by
  cases op with
  | dot d => exact Worker.holdsSum_zero hl ha
  | matmul a => exact Worker.holdsSum_zero hl ha
  | pack a => trivial

theorem Worker.not_passed_start (r e : Nat × Nat) : ¬ (Worker.start r).passed e := by
  simp only [Worker.passed, Worker.start]
  omega

/-- Moving on to the next cell leaves the present one behind (10_state.md R53). -/
theorem Worker.passed_nextCell {cols : Nat} {w : Worker} {e : Nat × Nat} (he : e.2 < cols)
    (h : (w.nextCell cols).passed e) : w.passed e ∨ e = (w.i, w.j) := by
  rw [Worker.nextCell_eq] at h
  simp only [Worker.passed, Prod.ext_iff] at h ⊢
  split at h <;> omega

/-- A finished worker has left every element of its rows behind. -/
theorem Worker.passed_of_finished {op : Launch} {w : Worker} {e : Nat × Nat} (hf : w.finished op = true)
    (he : e ∈ op.elements) (hlo : w.lo ≤ e.1) (hhi : e.1 < w.hi) : w.passed e := by
  refine ⟨hlo, .inl (Nat.lt_of_lt_of_le hhi ?_)⟩
  cases op with
  | dot d => simp [Launch.elements] at he
  | matmul a =>
    have := mem_elements_matmul.1 he
    simp only [Worker.finished, Bool.or_eq_true, decide_eq_true_eq, beq_iff_eq] at hf
    omega
  | pack a =>
    have := mem_elements_pack.1 he
    simp only [Worker.finished, Bool.or_eq_true, decide_eq_true_eq, beq_iff_eq] at hf
    omega

/-! ### A worker's step, by what it stores -/

/-- A DOT writes no memory, so a product is the same in a memory that differs only in its output region. -/
theorem dot_product_congr {p : Params} {m m0 : Memory} {d : DotArgs}
    (hm : ∀ x : Nat, (Launch.dot d).inOutput x = false → Memory.read m x = Memory.read m0 x) {l : Nat}
    (ha : d.elementOk p l = true) : productAt m d l = productAt m0 d l := by
  rw [DotArgs.elementOk, Bool.and_eq_true] at ha
  refine productAt_congr (admitted_bounds ha.2).1 fun x _ => hm _ ?_
  simp [Launch.inOutput, Launch.outRegion]

/-- A worker's step from memory `m` to the worker `w'` and the stores `cells`: the sums stay right, and the stores are those of
the elements `es` that it leaves behind, as memory `m0` gives them. -/
def StepAgrees (p : Params) (m0 : Memory) (op : Launch) (w w' : Worker) (cells : List Host.Cell) : Prop :=
  w'.sumOk p m0 op ∧ ∃ es : List (Nat × Nat), (∀ e ∈ es, e ∈ op.elements ∧ elementAdmitted p op e = true) ∧
    cells = es.flatMap (elementCells m0 op) ∧ ∀ e ∈ op.elements, w'.passed e → w.passed e ∨ e ∈ es

/-- A step inside a dot product stores nothing and leaves nothing behind. -/
theorem StepAgrees.inside {p : Params} {m0 : Memory} {op : Launch} {w w' : Worker} (hs : w'.sumOk p m0 op)
    (hlo : w'.lo = w.lo) (hi : w'.i = w.i) (hj : w'.j = w.j) : StepAgrees p m0 op w w' [] :=
  ⟨hs, [], by simp, rfl, fun e _ h => .inl (by simpa only [Worker.passed, hlo, hi, hj] using h)⟩

/-- A step that stores the present element and moves on to the next. -/
theorem StepAgrees.store {p : Params} {m0 : Memory} {op : Launch} {w : Worker} {cells : List Host.Cell} {cols : Nat}
    (he : (w.i, w.j) ∈ op.elements) (ha : elementAdmitted p op (w.i, w.j) = true)
    (hcols : ∀ e ∈ op.elements, e.2 < cols) (hc : cells = elementCells m0 op (w.i, w.j)) :
    StepAgrees p m0 op w (w.nextCell cols) cells := by
  obtain ⟨-, -, hl, hacc⟩ := Worker.nextCell_start cols w
  refine ⟨Worker.sumOk_of_cleared op hl hacc, [(w.i, w.j)], by simpa using ⟨he, ha⟩, by simpa using hc, ?_⟩
  intro e he hp
  simpa using Worker.passed_nextCell (hcols e he) hp

section
variable {p : Params} {m m0 : Memory} {op : Launch} {w w' : Worker} {cells : List Host.Cell}

/-- At the end of its sum a worker holds the sum of a readable dot product, which `ACC.FIN` makes its value
(42_dot_product.md R164). -/
theorem Worker.dotValue_of_holdsSum {d : DotArgs} (hs : w.holdsSum p m0 d) (hl : w.l = d.logical) :
    d.readable p = true ∧ fmul w.acc d.scale = dotValue m0 d := by
  obtain ⟨hacc, hok⟩ := hs
  rw [hl] at hacc hok
  exact ⟨readable_iff.2 hok, by rw [hacc, partialSum_logical, dotValue]⟩

/-- What a worker's step does, where memory differs from the command's input only in the output region. -/
theorem Worker.advance_agrees (hal : op.aliased = false)
    (hm : ∀ x : Nat, op.inOutput x = false → Memory.read m x = Memory.read m0 x) (hw : w.wellPlaced op = true)
    (hf : w.finished op = false) (hn : w.hi ≤ op.rows) (hs : w.sumOk p m0 op)
    (h : w.advance p m op = .ok (w', cells)) : StepAgrees p m0 op w w' cells := by
  cases op with
  | dot d =>
    obtain ⟨hl, hok⟩ := Worker.unfinished_dot hw hf
    rw [Worker.advance_dot] at h
    cases hc : w.consume p m d with
    | error c => rw [hc] at h; cases h
    | ok w'' =>
      rw [hc] at h
      cases h
      obtain ⟨-, -, -, hi, hj, hlo, -⟩ := Worker.consume_ok hl hok hc
      exact .inside (Worker.consume_holdsSum hl hok hs (fun _ _ ha => dot_product_congr hm ha) hc) hlo hi hj
  | matmul a =>
    obtain ⟨-, hhi, hj, hok⟩ := Worker.unfinished_matmul hw hf
    have hi : w.i < a.n := Nat.lt_of_lt_of_le hhi hn
    by_cases hl : w.l < (a.cell w.i w.j).logical
    · rw [Worker.advance_matmul_sum hl] at h
      cases hc : w.consume p m (a.cell w.i w.j) with
      | error c => rw [hc] at h; cases h
      | ok w'' =>
        rw [hc] at h
        cases h
        obtain ⟨-, -, -, hi', hj', hlo, -⟩ := Worker.consume_ok hl hok hc
        have hsum := Worker.consume_holdsSum hl hok hs (fun _ hlt ha => matmul_product_congr hal hm hi hj hlt ha) hc
        exact .inside (by simpa only [Worker.sumOk, hi', hj'] using hsum) hlo hi' hj'
    · have hend : w.l = (a.cell w.i w.j).logical := Nat.le_antisymm (elementIndexOk_le hok) (Nat.not_lt.1 hl)
      obtain ⟨hread, hval⟩ := Worker.dotValue_of_holdsSum hs hend
      rw [Worker.advance_matmul_store (Nat.not_lt.1 hl)] at h
      split at h
      next ha =>
        cases h
        exact .store (mem_elements_matmul.2 ⟨hi, hj⟩) (by simp [elementAdmitted, hread, ha])
          (fun e he => (mem_elements_matmul.1 he).2) (by rw [elementCells, ← hval]; rfl)
      next => cases h
  | pack a =>
    obtain ⟨-, hhi, hj⟩ := Worker.unfinished_pack hw hf
    have hi : w.i < a.n := Nat.lt_of_lt_of_le hhi hn
    rw [Worker.advance_pack] at h
    split at h
    next ha =>
      cases h
      exact .store (mem_elements_pack.2 ⟨hi, hj⟩) ha (fun e he => (mem_elements_pack.1 he).2)
        (pack_cells_congr hal hm hi hj ha)
    next => cases h

/-- A worker's step aborts only in a launch with an access that is not admitted (60_exceptions.md R241). -/
theorem Worker.not_admissible_of_advance_error {c : AbortCode} (hw : w.wellPlaced op = true)
    (hf : w.finished op = false) (hn : w.hi ≤ op.rows) (h : w.advance p m op = .error c) : op.admissible p = false := by
  rw [Bool.eq_false_iff]
  intro hadm
  cases op with
  | dot d =>
    obtain ⟨hl, hok⟩ := Worker.unfinished_dot hw hf
    rw [Worker.advance_dot] at h
    cases hc : w.consume p m d with
    | ok w'' => rw [hc] at h; cases h
    | error c =>
      have hr : d.readable p = true := hadm
      rw [Worker.consume_not_readable hl hok hc] at hr
      cases hr
  | matmul a =>
    obtain ⟨-, hhi, hj, hok⟩ := Worker.unfinished_matmul hw hf
    have he := elementAdmitted_of_admissible hadm (mem_elements_matmul.2 ⟨Nat.lt_of_lt_of_le hhi hn, hj⟩)
    simp only [elementAdmitted, Bool.and_eq_true] at he
    by_cases hl : w.l < (a.cell w.i w.j).logical
    · rw [Worker.advance_matmul_sum hl] at h
      cases hc : w.consume p m (a.cell w.i w.j) with
      | ok w'' => rw [hc] at h; cases h
      | error c => rw [Worker.consume_not_readable hl hok hc] at he; cases he.1
    · rw [Worker.advance_matmul_store (Nat.not_lt.1 hl), if_pos he.2] at h
      cases h
  | pack a =>
    obtain ⟨-, hhi, hj⟩ := Worker.unfinished_pack hw hf
    have he := elementAdmitted_of_admissible hadm (mem_elements_pack.2 ⟨Nat.lt_of_lt_of_le hhi hn, hj⟩)
    rw [Worker.advance_pack, if_pos he] at h
    cases h

end

end Sys2Proof.Machine
end

section
/-! PROOFS. A run in agreement with its launch (43_matmul_driver.md R188): what its workers have done stays in step with
memory (`Run.Agrees`), so that when it ends it leaves what the launch as one transition would have left. -/

namespace Sys2Proof.Machine

/-! ### A run in agreement with the one transition -/

/-- A run without a broken host duty, in memory `m`, is on its way to what its launch does as one transition: every byte is the
one from before or one the launch would write, its workers' sums are right, and the elements they have left behind are
stored (43_matmul_driver.md R188). -/
structure Run.Agrees (p : Params) (m : Memory) (r : Run) : Prop where
  ok : r.ok = true
  untainted : r.tainted = false
  unaliased : r.op.aliased = false
  wf : Memory.wf m = true
  written : ∀ x, Memory.read m x = Memory.read r.mem0 x ∨ (x, Memory.read m x) ∈ wouldWrite p r.mem0 r.op
  sums : ∀ w ∈ r.workers, w.sumOk p r.mem0 r.op
  stored : ∀ w ∈ r.workers, ∀ e ∈ r.op.elements, w.passed e → ElementStored p r.mem0 m r.op e

/-- The stores of a set of elements store those, and keep the others that are stored. -/
theorem ElementStored.writeAll {p : Params} {m0 m : Memory} {op : Launch} {es : List (Nat × Nat)} {e : Nat × Nat}
    (hm : Memory.wf m = true) (hes : ∀ e ∈ es, e ∈ op.elements ∧ elementAdmitted p op e = true) (he : e ∈ op.elements)
    (h : ElementStored p m0 m op e ∨ e ∈ es) :
    ElementStored p m0 (Memory.writeAll m (es.flatMap (elementCells m0 op))) op e := by
  by_cases hmem : e ∈ es
  · exact ⟨(hes e hmem).2, fun c hc => read_elements hm hes hmem hc⟩
  · obtain ⟨hadm, hread⟩ := h.resolve_right hmem
    refine ⟨hadm, fun c hc => ?_⟩
    rw [Memory.read_writeAll_other, hread c hc]
    intro c' hc'
    obtain ⟨e', he', hc'⟩ := List.mem_flatMap.1 hc'
    exact elementCells_disjoint (hes e' he').1 he (hes e' he').2 hadm (fun heq => hmem (heq ▸ he')) hc' hc

theorem mem_startWorkers {workers : Nat} {cuts : List Nat} {op : Launch} {w : Worker}
    (h : w ∈ startWorkers workers cuts op) : ∃ r, w = Worker.start r := by
  cases op with
  | dot d => exact ⟨_, List.mem_singleton.1 h⟩
  | matmul a =>
    obtain ⟨r, -, rfl⟩ := List.mem_map.1 h
    exact ⟨r, rfl⟩
  | pack a => exact ⟨_, List.mem_singleton.1 h⟩

/-- A run that begins agrees: nothing is summed and nothing is left behind. -/
theorem Run.agrees_start {p : Params} {m : Memory} {op : Launch} (hm : Memory.wf m = true) (hl : op.legal = true)
    (hal : op.aliased = false) (workers : Nat) (cuts : List Nat) :
    Run.Agrees p m ⟨op, startWorkers workers cuts op, m, false⟩ := by
  obtain ⟨hplaced, hcover⟩ := startWorkers_ok workers cuts op
  refine ⟨by rw [Run.ok, hm, hl, hplaced, hcover]; rfl, rfl, hal, hm, fun x => .inl rfl, fun w hw => ?_, fun w hw => ?_⟩ <;>
    obtain ⟨r, rfl⟩ := mem_startWorkers hw
  · exact Worker.sumOk_of_cleared op rfl rfl
  · exact fun e _ hp => absurd hp (Worker.not_passed_start r e)

section
variable {p : Params} {m : Memory} {r : Run}

/-- A run in agreement has changed no byte outside the output region (20_memory.md R77). -/
theorem Run.Agrees.outside (h : r.Agrees p m) {x : Nat} (hx : r.op.inOutput x = false) :
    Memory.read m x = Memory.read r.mem0 x :=
  (h.written x).resolve_right fun hw => by
    rw [wouldWrite_inOutput hw] at hx
    cases hx

/-- The workers' ranges cover the rows (10_state.md R41). -/
theorem Run.Agrees.covers (h : r.Agrees p m) : chained 0 r.op.rows (r.workers.map fun w => (w.lo, w.hi)) = true :=
  (Bool.and_eq_true_iff.1 h.ok).2

/-- A worker's step keeps the agreement, whichever worker moves (45_command_protocol.md R220). -/
theorem Run.Agrees.advance (h : r.Agrees p m) {k : Nat} {w w' : Worker} {cells : List Host.Cell}
    (hw : r.workers[k]? = some w) (hf : w.finished r.op = false) (hadv : w.advance p m r.op = .ok (w', cells)) :
    Run.Agrees p (Memory.writeAll m cells) { r with workers := r.workers.set k w' } := by
  obtain ⟨hplaced, hrows⟩ := Run.ok_worker h.ok hw
  have hmem : w ∈ r.workers := List.mem_of_getElem? hw
  obtain ⟨hsum, es, hes, rfl, hpassed⟩ :=
    Worker.advance_agrees h.unaliased (fun x hx => h.outside hx) hplaced hf hrows (h.sums w hmem) hadv
  obtain ⟨hplaced', hlo, hhi⟩ := Worker.advance_wellPlaced hplaced hf hadv
  refine ⟨Run.ok_set h.ok hw hplaced' hlo hhi, h.untainted, h.unaliased, Memory.wf_writeAll _ h.wf, fun x => ?_,
    fun v hv => ?_, fun v hv e he hp => ?_⟩
  · rcases Memory.read_writeAll_cases (es.flatMap (elementCells r.mem0 r.op)) x h.wf with hx | hx
    · rw [hx]
      exact h.written x
    · obtain ⟨e, he, hc⟩ := List.mem_flatMap.1 hx
      exact .inr (mem_wouldWrite.2 ⟨e, (hes e he).1, (hes e he).2, hc⟩)
  · rcases List.mem_or_eq_of_mem_set hv with hv | rfl
    · exact h.sums v hv
    · exact hsum
  · refine ElementStored.writeAll h.wf hes he ?_
    rcases List.mem_or_eq_of_mem_set hv with hv | rfl
    · exact .inl (h.stored v hv e he hp)
    · exact (hpassed e he hp).imp_left (h.stored w hmem e he)

/-- A finished run has stored every element of its output. -/
theorem Run.Agrees.stored_of_finished (h : r.Agrees p m) (hf : r.finished = true) {e : Nat × Nat}
    (he : e ∈ r.op.elements) : ElementStored p r.mem0 m r.op e := by
  have hrow : e.1 < r.op.rows := by
    cases hop : r.op with
    | dot d => simp [hop, Launch.elements] at he
    | matmul a => rw [hop] at he; exact (mem_elements_matmul.1 he).1
    | pack a => rw [hop] at he; exact (mem_elements_pack.1 he).1
  obtain ⟨range, hrange, hlo, hhi⟩ := chained_covers h.covers (Nat.zero_le _) hrow
  obtain ⟨w, hw, rfl⟩ := List.mem_map.1 hrange
  exact h.stored w hw e he (Worker.passed_of_finished (List.all_eq_true.1 hf w hw) he hlo hhi)

/-- The value of a finished DOT is that of its dot product, every read admitted (42_dot_product.md R164, R175). -/
theorem Run.Agrees.dot_of_finished (h : r.Agrees p m) (hf : r.finished = true) {d : DotArgs} (hop : r.op = .dot d) :
    d.readable p = true ∧ r.value = dotValue r.mem0 d := by
  have hcovers := h.covers
  cases hws : r.workers with
  | nil => rw [hws, hop] at hcovers; cases hcovers
  | cons w ws =>
    have hw : w ∈ r.workers := hws ▸ List.mem_cons_self
    have hsum := h.sums w hw
    have hdone := List.all_eq_true.1 hf w hw
    have hplaced := (Run.ok_worker (w := 0) h.ok (by rw [hws]; rfl)).1
    rw [hop] at hsum hdone hplaced
    simp only [Worker.finished, decide_eq_true_eq, Worker.wellPlaced, Bool.and_eq_true] at hdone hplaced
    obtain ⟨hread, hval⟩ := Worker.dotValue_of_holdsSum hsum (Nat.le_antisymm (elementIndexOk_le hplaced.2) hdone)
    exact ⟨hread, by simpa [Run.value, hop, hws, accFin] using hval⟩

/-- A finished run had every access admitted. -/
theorem Run.Agrees.admissible_of_finished (h : r.Agrees p m) (hf : r.finished = true) : r.op.admissible p = true := by
  by_cases hd : ∃ d, r.op = .dot d
  · obtain ⟨d, hd⟩ := hd
    rw [hd]
    exact (h.dot_of_finished hf hd).1
  · rw [← elements_all_admitted p r.op fun d hop => hd ⟨d, hop⟩, List.all_eq_true]
    exact fun e he => (h.stored_of_finished hf he).1

/-- The value of a finished run is that of its launch. -/
theorem Run.Agrees.value_of_finished (h : r.Agrees p m) (hf : r.finished = true) :
    r.value = launchValue r.mem0 r.op := by
  cases hop : r.op with
  | dot d => exact (h.dot_of_finished hf hop).2
  | matmul a => simp only [Run.value, hop, launchValue]
  | pack a => simp only [Run.value, hop, launchValue]

/-- Memory after a finished run is that after its launch (43_matmul_driver.md R188). -/
theorem Run.Agrees.mem_of_finished (h : r.Agrees p m) (hf : r.finished = true) (hm0 : Memory.wf r.mem0 = true) :
    m = Memory.writeAll r.mem0 (launchCells r.mem0 r.op) := by
  have hadm := h.admissible_of_finished hf
  refine Memory.ext_read h.wf (Memory.wf_writeAll _ hm0) fun x => ?_
  by_cases hx : ∃ c ∈ launchCells r.mem0 r.op, c.1 = x
  · obtain ⟨c, hc, rfl⟩ := hx
    obtain ⟨e, he, hc⟩ := List.mem_flatMap.1 hc
    rw [(h.stored_of_finished hf he).2 c hc, read_launchCells hm0 hadm he hc]
  · rw [Memory.read_writeAll_other fun c hc hcx => hx ⟨c, hc, hcx⟩]
    refine (h.written x).resolve_right fun hw => hx ?_
    obtain ⟨e, he, -, hc⟩ := mem_wouldWrite.1 hw
    exact ⟨_, List.mem_flatMap.2 ⟨e, he, hc⟩, rfl⟩

/-- An abort leaves the memory that an abort before the first step would have left (60_exceptions.md R243). -/
theorem Run.Agrees.abandon_mem (h : r.Agrees p m) (hm0 : Memory.wf r.mem0 = true) (fresh : Nat)
    (would : List Host.Cell) :
    Memory.writeAll m (beforeCells r.mem0 r.op.writeFootprint ++ eitherCells r.mem0 fresh would) =
      Memory.writeAll r.mem0 (beforeCells r.mem0 r.op.writeFootprint ++ eitherCells r.mem0 fresh would) := by
  refine Memory.ext_read (Memory.wf_writeAll _ h.wf) (Memory.wf_writeAll _ hm0) fun x => ?_
  refine Memory.read_writeAll_congr h.wf hm0 ?_
  cases hx : r.op.inOutput x with
  | false => exact .inl (h.outside hx)
  | true =>
    exact .inr ⟨(x, Memory.read r.mem0 x),
      List.mem_append_left _ (mem_beforeCells.2 ⟨mem_writeFootprint.2 hx, rfl⟩), rfl⟩

end

end Sys2Proof.Machine
end

section
/-! PROOFS. Every schedule of a busy phase ends as the one transition does (45_command_protocol.md R223): each step keeps the
run in agreement with its launch or ends it. -/

namespace Sys2Proof.Machine

/-! ### Every schedule -/

/-- Everything a worker's turn can do, with the step it performs or the abort its step raises (45_command_protocol.md R220,
60_exceptions.md R241). -/
theorem workerTurn_spec (r : Run) (k : Nat) (s : State) :
    workerTurn r k s = s ∨ ∃ w, r.workers[k]? = some w ∧ w.finished r.op = false ∧
      ((∃ w' cells, w.advance s.par s.mem r.op = .ok (w', cells) ∧
          workerTurn r k s = (s.storeCells cells).setEngine (.busy { r with workers := r.workers.set k w' })) ∨
        (w.advance s.par s.mem r.op = .error .memory ∧
          workerTurn r k s = abortRun r.op r.mem0 r.tainted .memory s)) := by
  unfold workerTurn
  split
  · exact .inl rfl
  next w hw =>
    split
    · exact .inl rfl
    next hf =>
      refine .inr ⟨w, hw, by simpa using hf, ?_⟩
      split
      next x hx => exact .inl ⟨x.1, x.2, hx, rfl⟩
      next c hc =>
        obtain rfl := Worker.advance_error hc
        exact .inr ⟨hc, rfl⟩

@[simp] theorem complete_host (op : Launch) (s : State) : (complete op s).host = s.host := by
  rcases complete_cases op s with ⟨-, he⟩ | ⟨-, he⟩ <;> rw [he]
  · rw [retire_eq]; rfl
  · rw [abortRun_eq]

/-- State `t` lies on a schedule of the launch `op` from state `s`: it is busy with a run in agreement, or over as the one
transition is (45_command_protocol.md R223). -/
inductive OnSchedule (op : Launch) (s : State) : State → Prop where
  | busy {r : Run} {m : Memory} {ts : List Turn} (hop : r.op = op) (hm0 : r.mem0 = s.mem) (h : r.Agrees s.par m) :
      OnSchedule op s { s with engine := .busy r, mem := m, turns := ts, cuts := s.cuts.tail }
  | ended {ts : List Turn} : OnSchedule op s { complete op s with turns := ts, cuts := s.cuts.tail }

section
variable {op : Launch} {s : State} (hm : Memory.wf s.mem = true) (hal : op.aliased = false)
include hm hal

/-- A run that aborts is over as the one transition is. -/
theorem OnSchedule.of_abort {r : Run} {m : Memory} {ts : List Turn} (hop : r.op = op) (hm0 : r.mem0 = s.mem)
    (h : r.Agrees s.par m) (hadm : op.admissible s.par = false) :
    OnSchedule op s (abortRun r.op r.mem0 r.tainted .memory
      { s with engine := .busy r, mem := m, turns := ts, cuts := s.cuts.tail }) := by
  have hmem := h.abandon_mem (hm0 ▸ hm) s.fresh (wouldWrite s.par r.mem0 r.op)
  rw [hop, hm0] at hmem
  have heq : abortRun r.op r.mem0 r.tainted .memory
      { s with engine := .busy r, mem := m, turns := ts, cuts := s.cuts.tail } =
      { complete op s with turns := ts, cuts := s.cuts.tail } := by
    rcases complete_cases op s with ⟨ha, -⟩ | ⟨-, he⟩
    · rw [ha] at hadm; cases hadm
    · rw [he, hop, hm0, h.untainted, hal]
      simp [abortRun, State.abandon, State.storeCells, State.setEngine, hmem]
  rw [heq]
  exact .ended

/-- A run that retires is over as the one transition is. -/
theorem OnSchedule.of_retire {r : Run} {m : Memory} {ts : List Turn} (hop : r.op = op) (hm0 : r.mem0 = s.mem)
    (h : r.Agrees s.par m) (hf : r.finished = true) :
    OnSchedule op s (retire r.op r.value r.tainted
      { s with engine := .busy r, mem := m, turns := ts, cuts := s.cuts.tail }) := by
  have hmem := h.mem_of_finished hf (hm0 ▸ hm)
  have hval := h.value_of_finished hf
  have hadm := h.admissible_of_finished hf
  rw [hop, hm0] at hmem hval
  rw [hop] at hadm
  have heq : retire r.op r.value r.tainted { s with engine := .busy r, mem := m, turns := ts, cuts := s.cuts.tail } =
      { complete op s with turns := ts, cuts := s.cuts.tail } := by
    rcases complete_cases op s with ⟨-, he⟩ | ⟨ha, -⟩
    · rw [he, hop, hval, hmem, h.untainted, hal]
      cases op <;> rfl
    · rw [ha] at hadm; cases hadm
  rw [heq]
  exact .ended

/-- Every step of a machine whose host has nothing to do stays on the schedule. -/
theorem OnSchedule.step (hhost : s.host = []) {t t' : State} (h : OnSchedule op s t) (hstep : step t = .next t') :
    OnSchedule op s t' := by
  have htrans := Transition.of_step hstep
  cases h with
  | busy hop hm0 h =>
    cases htrans with
    | rest _ => exact .busy hop hm0 h
    | host hc _ => rw [hhost] at hc; cases hc
    | @worker r k ts he =>
      obtain rfl := Engine.busy.inj he
      rcases workerTurn_spec _ k _ with he | ⟨w, hw, hf, ⟨w', cells, hadv, he⟩ | ⟨hadv, he⟩⟩ <;> rw [he]
      · exact .busy hop hm0 h
      · exact .busy hop hm0 (h.advance hw hf hadv)
      · obtain ⟨hplaced, hrows⟩ := Run.ok_worker h.ok hw
        exact .of_abort hm hal hop hm0 h (hop ▸ Worker.not_admissible_of_advance_error hplaced hf hrows hadv)
    | @sequencer r ts he =>
      obtain rfl := Engine.busy.inj he
      rcases sequencerTurn_cases _ _ with he | ⟨hf, he⟩ <;> rw [he]
      · exact .busy hop hm0 h
      · exact .of_retire hm hal hop hm0 h hf
  | ended =>
    have hnot : ∀ r, (complete op s).engine ≠ .busy r := fun r he => by
      rcases complete_engine op s with h | h <;> rw [h] at he <;> cases he
    cases htrans with
    | rest _ => exact .ended
    | host hc _ =>
      have hch : (complete op s).host = [] := (complete_host op s).trans hhost
      rw [hch] at hc
      cases hc
    | worker he => exact absurd he (hnot _)
    | sequencer he => exact absurd he (hnot _)

end

/-- What every step keeps holds after any number of steps. -/
theorem run_invariant {P : State → Prop} (hstep : ∀ s t, P s → step s = .next t → P t) {k : Nat} {s t : State}
    (hs : P s) (h : Host.Core.run core k s = .next t) : P t := by
  induction k generalizing s with
  | zero => exact Host.Outcome.next.inj h ▸ hs
  | succ k ih =>
    cases hn : step s with
    | next s' =>
      have hrun : Host.Core.run core (k + 1) s = Host.Core.run core k s' := by
        simp only [Host.Core.run]
        rw [show core.step s = .next s' from hn]
      exact ih (hstep s s' hs hn) (hrun ▸ h)
    | fault r => cases r
    | refused r => obtain ⟨t', ht'⟩ := everyStepHasANextState s; rw [ht'] at hn; cases hn

/-- Settles O49: the run that begins is in agreement with the launch, every step keeps it so or ends it, and a machine that is
not busy has ended. -/
theorem everyScheduleAgrees : Obligations.EveryScheduleAgrees := by
  intro op s t k hm hlegal hal hhost _ hrun hbusy
  have hstart : OnSchedule op s (beginRun op s) := by
    have h := OnSchedule.busy (op := op) (s := s) (ts := s.turns) rfl rfl
      (Run.agrees_start (p := s.par) hm hlegal hal (workerCount s.par) (s.cuts.headD []))
    rwa [← hal] at h
  cases run_invariant (fun _ _ h hstep => h.step hm hal hhost hstep) hstart hrun with
  | busy => cases hbusy
  | ended => rfl

end Sys2Proof.Machine
end

section
/-! PROOFS. The MATMUL command as one transition (43_matmul_driver.md R181 to R191): its errors, its result, an empty output
and an abort. -/

namespace Sys2Proof.Machine

/-! ### Errors -/

/-- MATMUL with a failing check ends in its error, `OUT_*` cleared (43_matmul_driver.md R181, R183). -/
theorem exec_matmul_error {s : State} {e : PreError} (h : matmulCheck s = .error e) :
    exec .matmul s = .next { s with
      lastop := 0x03#8, outDtype := 0#8, outSize0 := 0#64, outSize1 := 0#64, engine := .error e } := by
  have hcheck : matmulCheck (s.accept 0x03#8).clearOut = .error e := h
  simp only [exec, execMatmul, hcheck]
  rfl

/-- Settles O36: each clause is the arm of the check that its hypotheses lead to. -/
theorem matmulErrors : Obligations.MatmulErrors := by
  refine fun s => ⟨fun ha => ?_, fun ha hb => ?_, fun ha hb h4 h8 => ?_, fun ha hb hbits hshape => ?_⟩ <;>
    refine exec_matmul_error ?_
  · simp [matmulCheck, ha]
  · simp [matmulCheck, ha, hb]
  · simp [matmulCheck, ha, hb, legalBits_false h4 h8]
  · simp [matmulCheck, ha, hb, (legalBits_iff _).2 hbits, subsPerByte, hshape]

/-! ### Completion -/

theorem State.matmulArgs_n (s : State) (st : Strategy) : (s.matmulArgs st).n = s.a.size0.toNat := rfl

theorem State.matmulArgs_m (s : State) (st : Strategy) : (s.matmulArgs st).m = s.b.size1.toNat := rfl

/-- A MATMUL that completes sets the output registers to its shape (43_matmul_driver.md R189). -/
theorem retire_matmul (a : MatmulArgs) (v : F32) (s : State) :
    retire (.matmul a) v false s = { s with
      outDtype := tagF32, outSize0 := BitVec.ofNat 64 a.n, outSize1 := BitVec.ofNat 64 a.m, engine := .done } := rfl

/-- A MATMUL without a plan whose output meets no input, in its two ends (43_matmul_driver.md R189, R190,
45_command_protocol.md R223). -/
theorem exec_matmul_eq {s : State} {st : Strategy} (hpass : s.matmulPasses st) (ht : s.turns = [])
    (hal : (Launch.matmul (s.matmulArgs st)).aliased = false) :
    exec .matmul s = .next (if (s.matmulArgs st).admissible s.par then
        { s with
          lastop := 0x03#8, outDtype := tagF32, outSize0 := s.a.size0, outSize1 := s.b.size1, engine := .done,
          mem := Memory.writeAll s.mem (launchCells s.mem (.matmul (s.matmulArgs st))) }
      else abortRun (.matmul (s.matmulArgs st)) s.mem false .memory (s.accept 0x03#8).clearOut) := by
  rw [exec_matmul_launch hpass, launch_eq (s := (s.accept 0x03#8).clearOut) ht, hal, retire_matmul, State.matmulArgs_n,
    State.matmulArgs_m, BitVec.ofNat_toNat, BitVec.ofNat_toNat, BitVec.setWidth_eq, BitVec.setWidth_eq]
  rfl

/-- After a completed MATMUL the four bytes of cell `(i, j)` are its dot product (43_matmul_driver.md R187). -/
theorem bytesAt_launchCells_matmul {p : Params} {m : Memory} {a : MatmulArgs} (hm : Memory.wf m = true)
    (ha : a.admissible p = true) {i j : Nat} (hi : i < a.n) (hj : j < a.m) :
    bytesAt (Memory.writeAll m (launchCells m (.matmul a))) (a.outAddr i j).toNat 4 =
      (dotValue m (a.cell i j)).toNat := by
  rw [bytesAt_of_bytes (v := (dotValue m (a.cell i j)).toNat) fun b hb => ?_, Nat.mod_eq_of_lt (BitVec.isLt _)]
  exact read_launchCells (op := .matmul a) hm ha (mem_elements_matmul.2 ⟨hi, hj⟩) (mem_storedCells.2 ⟨b, hb, rfl⟩)

/-- Settles O35: the completed launch stores every cell and nothing outside the output region. -/
theorem matmulResult : Obligations.MatmulResult := by
  intro s st hm ht hpass hadm hal
  rw [exec_matmul_eq hpass ht hal, if_pos hadm]
  refine ⟨_, rfl, rfl, Memory.wf_writeAll _ hm, fun i hi j hj => bytesAt_launchCells_matmul hm hadm hi hj,
    fun x hx => ?_⟩
  refine Memory.read_writeAll_other fun c hc hcx => ?_
  rw [← hcx, launchCells_inOutput (op := .matmul _) hadm hc] at hx
  cases hx

/-! ### An empty output -/

section
variable {a : MatmulArgs} (h : a.n = 0 ∨ a.m = 0)
include h

theorem elements_matmul_empty : (Launch.matmul a).elements = [] := by
  rw [List.eq_nil_iff_forall_not_mem]
  rintro ⟨i, j⟩ he
  have := mem_elements_matmul.1 he
  omega

/-- A MATMUL with an empty output makes no access (20_memory.md R83). -/
theorem admissible_matmul_empty (p : Params) : a.admissible p = true := by
  have hall := elements_all_admitted p (.matmul a) nofun
  rw [elements_matmul_empty h] at hall
  exact hall.symm

theorem aliased_matmul_empty : (Launch.matmul a).aliased = false := by
  have hsize : 4 * a.n * a.m = 0 := by rcases h with h | h <;> simp [h]
  simp [Launch.aliased, Launch.outRegion, hsize]

end

/-- Settles O37: with no element there is no access, no overlap and no store. -/
theorem matmulEmptyOutput : Obligations.MatmulEmptyOutput := by
  intro s st ht hpass hempty
  have h : (s.matmulArgs st).n = 0 ∨ (s.matmulArgs st).m = 0 :=
    hempty.imp (fun hn => by simp [State.matmulArgs_n, hn]) fun hm => by simp [State.matmulArgs_m, hm]
  rw [exec_matmul_eq hpass ht (aliased_matmul_empty h), if_pos (admissible_matmul_empty h s.par), launchCells,
    elements_matmul_empty h]
  rfl

/-! ### Aborts -/

/-- After an aborted command each byte is as before or one the completed command would write (60_exceptions.md R243). -/
theorem abortRun_read_cases {op : Launch} {s : State} (c : AbortCode) (hm : Memory.wf s.mem = true) (x : Nat) :
    Memory.read (abortRun op s.mem false c s).mem x = Memory.read s.mem x ∨
      (x, Memory.read (abortRun op s.mem false c s).mem x) ∈ wouldWrite s.par s.mem op := by
  cases hx : op.inOutput x with
  | false => exact .inl (abortRun_read hx)
  | true => exact State.abandon_output hm (mem_writeFootprint.2 hx)

/-- Settles O38: the abort of the launch, and the bytes it may have left are those of cells. -/
theorem matmulAborts : Obligations.MatmulAborts := by
  intro s st hm ht hpass hadm hal
  rw [exec_matmul_eq hpass ht hal, if_neg (by simp [hadm])]
  refine ⟨_, rfl, by rw [abortRun_eq]; rfl, fun x => ?_⟩
  refine (abortRun_read_cases (s := (s.accept 0x03#8).clearOut) .memory hm x).imp_right fun hx => ?_
  obtain ⟨⟨i, j⟩, he, -, hc⟩ := mem_wouldWrite.1 hx
  obtain ⟨hi, hj⟩ := mem_elements_matmul.1 he
  obtain ⟨b, hb, hcell⟩ := mem_storedCells.1 hc
  obtain ⟨haddr, hbyte⟩ := Prod.mk.inj hcell
  exact ⟨i, hi, j, hj, b, hb, haddr, hbyte⟩

end Sys2Proof.Machine
end

section
/-! PROOFS. The partition of the rows over the workers (43_matmul_driver.md R186). -/

namespace Sys2Proof.Machine

theorem rangesFrom_length (lo n : Nat) (cuts : List Nat) : (rangesFrom lo n cuts).length = cuts.length + 1 := by
  induction cuts generalizing lo with
  | nil => rfl
  | cons c cuts ih => rw [rangesFrom, List.length_cons, ih, List.length_cons]

/-- Row `i` lies in the range. -/
def holdsRow (i : Nat) (r : Nat × Nat) : Bool := decide (r.1 ≤ i) && decide (i < r.2)

/-- A row between the ends of a chain lies in exactly one of its ranges: what follows the range that holds it begins above
it. -/
theorem chained_filter_holdsRow {lo n i : Nat} {rs : List (Nat × Nat)} (h : chained lo n rs = true) (hlo : lo ≤ i)
    (hn : i < n) : (rs.filter (holdsRow i)).length = 1 := by
  induction rs generalizing lo with
  | nil =>
    have := beq_iff_eq.1 h
    omega
  | cons r rs ih =>
    simp only [chained, Bool.and_eq_true, beq_iff_eq, decide_eq_true_eq] at h
    obtain ⟨⟨hstart, -⟩, hrest⟩ := h
    by_cases hi : i < r.2
    · have habove : rs.filter (holdsRow i) = [] := List.filter_eq_nil_iff.2 fun q hq => by
        have := (chained_bounds hrest).2 q hq
        simp only [holdsRow, Bool.and_eq_true, decide_eq_true_eq]
        omega
      have hhead : holdsRow i r = true := by
        simp only [holdsRow, Bool.and_eq_true, decide_eq_true_eq]
        omega
      rw [List.filter_cons_of_pos hhead, habove, List.length_singleton]
    · have hhead : ¬ holdsRow i r = true := by
        simp only [holdsRow, Bool.and_eq_true, decide_eq_true_eq]
        omega
      rw [List.filter_cons_of_neg hhead, ih hrest (by omega)]

/-- A chain is what its own inner ends cut out. -/
theorem rangesFrom_ends {lo n : Nat} {rs : List (Nat × Nat)} (hne : rs ≠ []) (h : chained lo n rs = true) :
    rangesFrom lo n (rs.dropLast.map Prod.snd) = rs := by
  induction rs generalizing lo with
  | nil => exact absurd rfl hne
  | cons r rs ih =>
    obtain ⟨a, b⟩ := r
    simp only [chained, Bool.and_eq_true, beq_iff_eq, decide_eq_true_eq] at h
    obtain ⟨⟨rfl, hle⟩, hrest⟩ := h
    cases rs with
    | nil =>
      obtain rfl := beq_iff_eq.1 hrest
      rfl
    | cons q qs =>
      have hb : min n (max a b) = b := by have := (chained_bounds hrest).1; omega
      rw [List.dropLast_cons_cons, List.map_cons, rangesFrom, hb, ih (List.cons_ne_nil _ _) hrest]

/-- Settles O45: a partition is a chain with one range more than cut points; conversely the inner ends of a chain are its cut
points. -/
theorem partitionCoversRowsOnce : Obligations.PartitionCoversRowsOnce := by
  refine ⟨fun workers n cuts hw => ?_, fun workers n ranges hne hlen hchain => ?_⟩
  · have hchain := chained_partitionRows workers n cuts
    refine ⟨?_, hchain, fun i hi => chained_filter_holdsRow hchain (Nat.zero_le i) hi⟩
    rw [partitionRows, rangesFrom_length, List.length_take]
    omega
  · refine ⟨ranges.dropLast.map Prod.snd, ?_⟩
    rw [partitionRows, List.take_of_length_le, rangesFrom_ends hne hchain]
    rw [List.length_map, List.length_dropLast]
    omega

end Sys2Proof.Machine
end

section
/-! PROOFS. `quantize` (44_packing_stage.md R202, R205): the sum rounded to the nearest integer and clamped. -/

namespace Sys2Proof.Machine

/-! ### The integer `frint` gives -/

theorem fsign_frint {a : F32} (h : isNaN a = false) : fsign (frint a) = fsign a := by
  rcases Nat.lt_or_ge (fmag a) (2 ^ 23 * 2 ^ 149) with hm | hm
  · rw [frint_small h hm, fsign_roundF32]
  · rw [frint_large h hm]

/-- From `2^23` on the grid of binary32 is as coarse as the integers, infinity's pattern included (30_encoding.md R118). -/
theorem fmag_dvd_of_large {a : F32} (hm : 2 ^ 23 * 2 ^ 149 ≤ fmag a) : 2 ^ 149 ∣ fmag a := by
  rw [fmag_eq] at *
  have hunit : patternMag (150 * 2 ^ 23) = 2 ^ 23 * 2 ^ 149 := by decide
  have hp : 150 * 2 ^ 23 ≤ a.toNat % 2 ^ 31 :=
    Nat.le_of_not_lt fun hlt => Nat.not_le_of_lt (hunit ▸ patternMag_lt hlt) hm
  rw [patternMag, if_neg (by omega)]
  exact Nat.dvd_mul_left_of_dvd (Nat.pow_dvd_pow 2 (by omega)) _

/-- Below `2^23` and from there on alike, `frint` gives the nearest integer (R147). -/
theorem fmag_frint {a : F32} (h : isNaN a = false) :
    fmag (frint a) = roundEven (fmag a) (2 ^ 149) * 2 ^ 149 := by
  rcases Nat.lt_or_ge (fmag a) (2 ^ 23 * 2 ^ 149) with hm | hm
  · rw [frint_small h hm, (roundF32_integer _ (roundEven_le_of_lt hm)).1]
  · obtain ⟨k, hk⟩ := fmag_dvd_of_large hm
    rw [frint_large h hm, hk, Nat.mul_comm, roundEven_mul (Nat.two_pow_pos 149)]

/-! ### The clamp -/

/-- The test `u <= 0.0` of a rounded sum (44_packing_stage.md R202). -/
theorem atMostZero_frint {t : F32} (h : isNaN t = false) :
    atMostZero (frint t) = true ↔ fsign t = true ∨ roundEven (fmag t) (2 ^ 149) = 0 := by
  rw [atMostZero, Bool.or_eq_true, fsign_frint h, ← fmag_eq_zero, fmag_frint h, Nat.mul_eq_zero,
    or_iff_left (Nat.ne_of_gt (Nat.two_pow_pos 149))]

/-- The test `u >= k` of a rounded sum (44_packing_stage.md R202). -/
theorem atLeastNat_frint {t : F32} (h : isNaN t = false) (k : Nat) :
    atLeastNat (frint t) k = true ↔ fsign t = false ∧ k ≤ roundEven (fmag t) (2 ^ 149) := by
  rw [atLeastNat, Bool.and_eq_true, Bool.not_eq_true', decide_eq_true_eq, fsign_frint h, fmag_frint h, oneUnits,
    Nat.mul_le_mul_right_iff (Nat.two_pow_pos 149)]

theorem clampCode_of_isNaN {t : F32} (h : isNaN t = true) (bits : Nat) : clampCode t bits = 0 := if_pos h

/-- The code of a sum that is no NaN: the three arms of R202 are one minimum. -/
theorem clampCode_of_not_isNaN {t : F32} (h : isNaN t = false) (bits : Nat) :
    clampCode t bits = if fsign t then 0 else min (maxCode bits) (roundEven (fmag t) (2 ^ 149)) := by
  simp only [clampCode, h, atMostZero_frint h, atLeastNat_frint h, fmag_frint h, oneUnits,
    Nat.mul_div_cancel _ (Nat.two_pow_pos 149)]
  cases fsign t
  case true => rfl
  case false =>
    generalize roundEven (fmag t) (2 ^ 149) = r
    simp only [Bool.false_eq_true, false_or, true_and, if_false]
    split
    case isTrue hzero => omega
    case isFalse => split <;> omega

theorem clampCode_le (t : F32) (bits : Nat) : clampCode t bits ≤ maxCode bits := by
  cases h : isNaN t
  · rw [clampCode_of_not_isNaN h]
    split
    · exact Nat.zero_le _
    · exact Nat.min_le_left _ _
  · rw [clampCode_of_isNaN h]
    exact Nat.zero_le _

/-- Settles O42: `quantize` is the clamp of the sum, whose two arms and bound are said above. -/
theorem quantizeClamps : Obligations.QuantizeClamps :=
  fun _ _ _ bits _ => ⟨fun h => clampCode_of_isNaN h bits, fun h => clampCode_of_not_isNaN h bits, clampCode_le _ bits⟩

end Sys2Proof.Machine
end

section
/-! PROOFS. The PACK command as one transition (44_packing_stage.md R201 to R209): its errors and its result. -/

namespace Sys2Proof.Machine

/-! ### Errors -/

/-- PACK with a failing check ends in its error, `OUT_*` cleared (44_packing_stage.md R201). -/
theorem exec_pack_error {s : State} {e : PreError} (hp : s.par.packPresent = true) (h : packCheck s = .error e) :
    exec .pack s = .next { s with
      lastop := 0x04#8, outDtype := 0#8, outSize0 := 0#64, outSize1 := 0#64, engine := .error e } := by
  have hcheck : packCheck (s.accept 0x04#8).clearOut = .error e := h
  simp only [exec, execPack, hp, if_true, hcheck]
  rfl

/-- Settles O40: each clause is the arm of the check that its hypotheses lead to. -/
theorem packErrors : Obligations.PackErrors := by
  refine fun s hp => ⟨fun ha => ?_, fun ha h4 h8 => ?_, fun ha hbits hshape => ?_⟩ <;> refine exec_pack_error hp ?_
  · simp [packCheck, ha]
  · simp [packCheck, ha, legalBits_false h4 h8]
  · simp [packCheck, ha, (legalBits_iff _).2 hbits, subsPerByte, hshape]

/-! ### Completion -/

theorem State.packArgs_n (s : State) (bits : Nat) : (s.packArgs bits).n = s.a.size0.toNat := rfl

theorem State.packArgs_kb (s : State) (bits : Nat) : (s.packArgs bits).kb = s.a.size1.toNat / (8 / bits) := rfl

/-- A PACK that completes sets the output registers to its shape (44_packing_stage.md R208). -/
theorem retire_pack (a : PackArgs) (v : F32) (s : State) :
    retire (.pack a) v false s = { s with
      outDtype := tagU8, outSize0 := BitVec.ofNat 64 a.n, outSize1 := BitVec.ofNat 64 a.kb, engine := .done } := rfl

/-- A PACK without a plan whose output meets no input, in its two ends (44_packing_stage.md R208, 60_exceptions.md R241,
45_command_protocol.md R223). -/
theorem exec_pack_eq {s : State} (hpass : s.packPasses) (ht : s.turns = [])
    (hal : (Launch.pack (s.packArgs s.bits.toNat)).aliased = false) :
    exec .pack s = .next (if (s.packArgs s.bits.toNat).admissible s.par then
        { s with
          lastop := 0x04#8, outDtype := tagU8, outSize0 := s.a.size0,
          outSize1 := BitVec.ofNat 64 (s.a.size1.toNat / (8 / s.bits.toNat)), engine := .done,
          mem := Memory.writeAll s.mem (launchCells s.mem (.pack (s.packArgs s.bits.toNat))) }
      else abortRun (.pack (s.packArgs s.bits.toNat)) s.mem false .memory (s.accept 0x04#8).clearOut) := by
  rw [exec_pack_launch hpass, launch_eq (s := (s.accept 0x04#8).clearOut) ht, hal, retire_pack, State.packArgs_n,
    State.packArgs_kb, BitVec.ofNat_toNat, BitVec.setWidth_eq]
  rfl

/-- A code fits its width (44_packing_stage.md R202). -/
theorem packCode_lt (m : Memory) (a : PackArgs) (i l : Nat) : packCode m a i l < 2 ^ a.bits :=
  Nat.lt_of_le_of_lt (clampCode_le _ a.bits) (Nat.sub_one_lt (Nat.ne_of_gt (Nat.two_pow_pos a.bits)))

/-- After a completed PACK packed byte `(i, t)` is composed of the codes of its elements (44_packing_stage.md R206). -/
theorem read_launchCells_pack {p : Params} {m : Memory} {a : PackArgs} (hm : Memory.wf m = true)
    (ha : a.admissible p = true) {i t : Nat} (hi : i < a.n) (ht : t < a.kb) :
    Memory.read (Memory.writeAll m (launchCells m (.pack a))) (a.outAddr i t).toNat =
      BitVec.ofNat 8 (composeByte a.bits
        ((List.range (8 / a.bits)).map fun k => packCode m a i (t * (8 / a.bits) + k))) := by
  have h := read_launchCells (op := .pack a) hm ha (mem_elements_pack.2 ⟨hi, ht⟩)
    (mem_storedCells.2 ⟨0, Nat.one_pos, rfl⟩)
  rw [Nat.add_zero, Nat.mul_zero, Nat.pow_zero, Nat.div_one, BitVec.ofNat_toNat, BitVec.setWidth_eq] at h
  exact h

/-- After a completed PACK the extractor gives the code of element `(i, l)` (44_packing_stage.md R209). -/
theorem extractCode_launchCells_pack {p : Params} {m : Memory} {a : PackArgs} (hbits : a.bits = 4 ∨ a.bits = 8)
    (hm : Memory.wf m = true) (ha : a.admissible p = true) {i l : Nat} (hi : i < a.n) (hl : l / (8 / a.bits) < a.kb) :
    extractCode
        (Memory.read (Memory.writeAll m (launchCells m (.pack a))) (a.outAddr i (l / (8 / a.bits))).toNat)
        (l % (8 / a.bits)) a.bits = packCode m a i l := by
  have hper : 0 < 8 / a.bits := Nat.pos_of_mul_pos_right (by rw [div_mul_of_legal hbits]; decide)
  have hsub : l % (8 / a.bits) < 8 / a.bits := Nat.mod_lt _ hper
  have hcodes : ∀ c ∈ (List.range (8 / a.bits)).map fun k => packCode m a i (l / (8 / a.bits) * (8 / a.bits) + k),
      c < 2 ^ a.bits := List.forall_mem_map.2 fun k _ => packCode_lt m a i _
  rw [read_launchCells_pack hm ha hi hl, bitRoundTrip a.bits _ _ hbits (by simp) hcodes hsub,
    List.getD_eq_getElem?_getD, List.getElem?_map, List.getElem?_range hsub, Option.map_some, Option.getD_some,
    Nat.div_add_mod']

/-- The stores of a launch whose accesses are admitted leave every byte outside its output region (20_memory.md R77). -/
theorem read_launchCells_outside {p : Params} {m : Memory} {op : Launch} (ha : op.admissible p = true) {x : Nat}
    (hx : op.inOutput x = false) : Memory.read (Memory.writeAll m (launchCells m op)) x = Memory.read m x := by
  refine Memory.read_writeAll_other fun c hc hcx => ?_
  rw [← hcx, launchCells_inOutput ha hc] at hx
  cases hx

/-- Settles O39: the completed launch stores every packed byte, of which the extractor gives the codes back, and nothing
outside the output region. -/
theorem packResult : Obligations.PackResult := by
  intro s hm ht hpass hadm hal
  rw [exec_pack_eq hpass ht hal, if_pos hadm]
  obtain ⟨-, -, hbits, hshape⟩ := hpass
  have hlegal : s.bits.toNat = 4 ∨ s.bits.toNat = 8 := hbits.imp (congrArg BitVec.toNat) (congrArg BitVec.toNat)
  refine ⟨_, rfl, rfl, Memory.wf_writeAll _ hm, fun i hi l hl => ?_,
    fun x hx => read_launchCells_outside (op := .pack _) hadm hx⟩
  have hbyte : l / (8 / s.bits.toNat) < s.a.size1.toNat / (8 / s.bits.toNat) :=
    Nat.div_lt_div_of_lt_of_dvd (Nat.dvd_of_mod_eq_zero hshape) hl
  exact extractCode_launchCells_pack (a := s.packArgs s.bits.toNat) hlegal hm hadm hi hbyte

end Sys2Proof.Machine
end

section
/-! PROOFS. The issue step (45_command_protocol.md R217): a command's word on a ready engine is run by `exec`, and a launch with
a plan becomes busy with its operands latched (43_matmul_driver.md R184, R186; 10_state.md R41, R53). -/

namespace Sys2Proof.Machine

/-! ### Words that are run -/

/-- Settles O3: it is the step in which a ready engine takes a `CMD` write of a command's word. -/
theorem stepRunsDecodedCommand : Obligations.StepRunsDecodedCommand :=
  fun _ _ _ _ => step_command

/-- A table row's bits name a command only where the value placed for them decodes to it. -/
theorem decode_of_decodeTableWord {nbits w : Nat} {i : Instr} (h : decodeTableWord nbits w = some i) :
    decode (commandValue nbits w) = .ok i := by
  unfold decodeTableWord at h
  cases hd : decode (commandValue nbits w) with
  | ok j =>
    rw [hd] at h
    exact congrArg Except.ok (Option.some.inj h)
  | error e =>
    rw [hd] at h
    cases h

@[simp] theorem State.unlocked_host (s : State) : s.unlocked.host = s.host := by
  unfold State.unlocked
  split <;> rfl

/-- Settles O4: the placed write is taken by the unlocked engine, and taking it gives back the host's list from before. -/
theorem placedTableWordRuns : Obligations.PlacedTableWordRuns := by
  intro s nbits w i h
  rw [step_command (s := s.withFetchWord nbits w) s.unlocked_ready rfl (decode_of_decodeTableWord h), ← s.unlocked_host]
  rfl

/-! ### Launches with a plan -/

/-- Settles O44: a command whose checks pass is the launch of its operands, which with a plan begins a run. -/
theorem plannedCommandBecomesBusy : Obligations.PlannedCommandBecomesBusy := by
  refine ⟨fun s st ht h => ?_, fun s st ht h => ?_, fun s ht h => ?_⟩
  · rw [exec_dot_launch h, launch_planned (s := s.accept 0x02#8) ht]
    rfl
  · rw [exec_matmul_launch h, launch_planned (s := (s.accept 0x03#8).clearOut) ht]
    rfl
  · rw [exec_pack_launch h, launch_planned (s := (s.accept 0x04#8).clearOut) ht]
    rfl

end Sys2Proof.Machine
end

section
/-! PROOFS. The host's register accesses (45_command_protocol.md R215, R216, R219): writes that are ignored, and what a read
returns (10_state.md R20, R21, R23). -/

namespace Sys2Proof.Machine

/-! ### Ignored writes -/

/-- Settles O7: `ABORT` and `BUSY` both lock the engine, and a locked engine takes no write. -/
theorem lockedWriteIgnored : Obligations.LockedWriteIgnored := by
  constructor
  · intro s c r v rest he hh
    have hidle : s.engine.isBusy = false := by rw [he]; rfl
    have hlocked : s.engine.locked = true := by rw [he]; rfl
    rw [step_host hidle hh, hostAct, hostWrite_locked (s := { s with host := rest }) hlocked]
  · intro s run r v rest ts he ht hh
    have hlocked : s.engine.locked = true := by rw [he]; rfl
    rw [step_host_busy he ht hh, hostAct, hostWrite_locked (s := { s with host := rest, turns := ts }) hlocked]

/-- A register the host cannot write takes no value (10_state.md R20). -/
theorem State.writeReg_ro {reg : Reg} (h : reg.access = .ro) (s : State) (v : Word64) : s.writeReg reg v = s := by
  cases reg <;> cases h <;> rfl

/-- Settles O11: the step is the register write, which an RO register does not take. -/
theorem readOnlyWriteIgnored : Obligations.ReadOnlyWriteIgnored := by
  intro s reg v rest hs hro hh
  have hc : reg ≠ .cmd := fun hc => by rw [hc] at hro; cases hro
  rw [step_writeReg hs hc hh, State.writeReg_ro hro]

/-! ### Reads -/

/-- A read by a register's number gives that register's value (45_command_protocol.md R215). -/
theorem State.hostRead_number (s : State) (reg : Reg) : s.hostRead reg.number = s.readReg reg := by
  rw [State.hostRead, Reg.ofNumber_number]

/-- Settles O8: a host read is logged and nothing else, and each number of the map reads as its register. -/
theorem hostReadHasNoSideEffect : Obligations.HostReadHasNoSideEffect := by
  refine ⟨?_, ?_, State.hostRead_number, fun s => s.hostRead_number .cmd, fun s _ h => State.hostRead_unimplemented h s,
    fun s => ?_, fun s => ?_, fun s => ?_, fun s => ?_, fun s => ?_, fun s => ?_⟩
  · intro s r rest hb hh
    rw [step_host hb hh]
    rfl
  · intro s r rest ts hb ht hh
    obtain ⟨run, hrun⟩ := Engine.isBusy_iff.1 hb
    rw [step_host_busy hrun ht hh]
    rfl
  · exact ⟨s.hostRead_number .cap, s.hostRead_number .status, s.hostRead_number .bits, s.hostRead_number .scale,
      s.hostRead_number .zeroPoint⟩
  · exact ⟨s.hostRead_number .aBase, s.hostRead_number .aDtype, s.hostRead_number .aSize0, s.hostRead_number .aSize1,
      s.hostRead_number .aStride0, s.hostRead_number .aStride1⟩
  · exact ⟨s.hostRead_number .bBase, s.hostRead_number .bDtype, s.hostRead_number .bSize0, s.hostRead_number .bSize1,
      s.hostRead_number .bStride0, s.hostRead_number .bStride1⟩
  · exact ⟨s.hostRead_number .outBase, s.hostRead_number .outDtype, s.hostRead_number .outSize0,
      s.hostRead_number .outSize1⟩
  · exact ⟨s.hostRead_number .dAptr, s.hostRead_number .dBptr, s.hostRead_number .dLength, s.hostRead_number .dRowStride,
      s.hostRead_number .dColStride, s.hostRead_number .dResult⟩
  · exact ⟨s.hostRead_number .xByte, s.hostRead_number .xSub, s.hostRead_number .xCode⟩

end Sys2Proof.Machine
end

section
/-! PROOFS. The turns of a busy command's agents (45_command_protocol.md R220, R221): a worker's step or its abort
(60_exceptions.md R241), and the sequencer's end of the command (43_matmul_driver.md R189, 44_packing_stage.md R208). -/

namespace Sys2Proof.Machine

/-! ### A worker's turn -/

/-- The step in which the plan names a worker (45_command_protocol.md R220). -/
theorem step_worker {s : State} {r : Run} {w : Nat} {ts : List Turn} (h : s.engine = .busy r)
    (ht : s.turns = .worker w :: ts) : step s = .next (workerTurn r w { s with turns := ts }) := by
  rw [step, fetch_busy_cons h ht]
  rfl

section
variable {r : Run} {k : Nat} {w : Worker} (hw : r.workers[k]? = some w) (hf : w.finished r.op = false)
include hw hf

/-- An unfinished worker whose step succeeds advances and stores that step's bytes (45_command_protocol.md R220). -/
theorem workerTurn_of_ok {s : State} {x : Worker × List Host.Cell} (hx : w.advance s.par s.mem r.op = .ok x) :
    workerTurn r k s = (s.storeCells x.2).setEngine (.busy { r with workers := r.workers.set k x.1 }) := by
  simp only [workerTurn, hw, hf, hx]
  rfl

/-- An unfinished worker whose step is not admitted aborts the run (60_exceptions.md R241). -/
theorem workerTurn_of_error {s : State} {c : AbortCode} (hc : w.advance s.par s.mem r.op = .error c) :
    workerTurn r k s = abortRun r.op r.mem0 r.tainted c s := by
  simp only [workerTurn, hw, hf, hc]
  rfl

end

/-- Settles O47: the turn is the worker's step, or the abort for memory, the only code a worker's step raises. -/
theorem workerTurnStep : Obligations.WorkerTurnStep := by
  intro s run k w ts he ht hw hf
  rw [step_worker he ht]
  refine ⟨fun x hx => ?_, fun c hc => ?_⟩
  · rw [workerTurn_of_ok (s := { s with turns := ts }) hw hf hx]
    rfl
  · obtain rfl := Worker.advance_error hc
    rw [workerTurn_of_error (s := { s with turns := ts }) hw hf hc]
    exact ⟨rfl, _, rfl, abortRun_eq _ _ _ _ _⟩

/-! ### The sequencer's turn -/

/-- The step in which the plan names the sequencer and every worker has finished (45_command_protocol.md R221). -/
theorem step_sequencer_finished {s : State} {r : Run} {ts : List Turn} (h : s.engine = .busy r)
    (ht : s.turns = .sequencer :: ts) (hf : r.finished = true) :
    step s = .next (retire r.op r.value r.tainted { s with turns := ts }) := by
  rw [step, fetch_busy_cons h ht, busyTurn, sequencerTurn, if_pos hf]

/-- The value of a DOT's run is `ACC.FIN` of worker 0 (42_dot_product.md R164; log entry 11). -/
theorem Run.value_dot {r : Run} {d : DotArgs} {w : Worker} {ws : List Worker} (hop : r.op = .dot d)
    (hws : r.workers = w :: ws) : r.value = fmul w.acc d.scale := by
  rw [Run.value, hop, hws]
  rfl

/-- Settles O48: the sequencer retires the untainted run, each command with its own result registers. -/
theorem sequencerRetires : Obligations.SequencerRetires := by
  intro s run ts he ht hf hclean
  rw [step_sequencer_finished he ht hf, hclean]
  refine ⟨fun d w ws hop hws => ?_, fun a hop => ?_, fun a hop => ?_⟩
  · rw [Run.value_dot hop hws, hop, retire_dot]
  · rw [hop, retire_matmul]
  · rw [hop, retire_pack]

end Sys2Proof.Machine
end

section
/-! PROOFS. Error and abort entries (60_exceptions.md sections 1 and 4): a `BITS` that is neither 4 nor 8 is a
`ConfigurationError` (R231, R237), and a PACK with an access that is not admitted ends `ABORT` (R241, R243). -/

namespace Sys2Proof.Machine

/-! ### `ConfigurationError` -/

/-- DOT with a width that is not legal ends in `ConfigurationError` (60_exceptions.md R231). -/
theorem exec_dot_illegal {s : State} (h : legalBits s.bits.toNat = false) :
    exec .dot s = .next ((s.accept 0x02#8).raiseError .configuration) :=
  congrArg Host.Outcome.next (if_neg (Bool.eq_false_iff.1 h))

/-- Settles O17: each command's error arm, which sets `STATUS` alone. -/
theorem extractAndDotConfigurationError : Obligations.ExtractAndDotConfigurationError :=
  fun _ h4 h8 => ⟨exec_extract_illegal (legalBits_false h4 h8), exec_dot_illegal (legalBits_false h4 h8)⟩

/-! ### A PACK that aborts -/

/-- A launch without a plan one of whose accesses is not admitted ends in the abort for memory, its output overlapping an
input or not (45_command_protocol.md R223). -/
theorem launch_inadmissible {op : Launch} {s : State} (ht : s.turns = []) (ha : op.admissible s.par = false) :
    launch op s = abortRun op s.mem op.aliased .memory s := by
  rw [launch_eq ht, ha]
  rfl

/-- A store of one byte is its one cell (20_memory.md R74). -/
theorem storedCells_byte (a : Nat) (v : Byte) : storedCells a 1 v.toNat = [(a, v)] := by
  simp [storedCells]

/-- The one byte a PACK writes for an element is the one its completion would store there (44_packing_stage.md R206). -/
theorem wouldStore_of_mem_wouldWrite_pack {p : Params} {m : Memory} {a : PackArgs} {c : Host.Cell}
    (h : c ∈ wouldWrite p m (.pack a)) : (Launch.pack a).wouldStore m c.1 c.2 := by
  obtain ⟨⟨i, t⟩, he, -, hc⟩ := mem_wouldWrite.1 h
  obtain ⟨hi, ht⟩ := mem_elements_pack.1 he
  rw [elementCells, storedCells_byte] at hc
  obtain rfl := List.mem_singleton.1 hc
  exact ⟨i, hi, t, ht, rfl, rfl⟩

/-- Settles O41: the launch is the abort for memory, which sets the engine state, leaves the bytes outside the output region
and, where no host duty is broken, each byte inside as before or as it would have been written. -/
theorem packAborts : Obligations.PackAborts := by
  intro s hm ht hpass hadm
  refine ⟨_, exec_pack_launch hpass, ?_⟩
  rw [launch_inadmissible (op := .pack _) (s := (s.accept 0x04#8).clearOut) ht hadm]
  refine ⟨abortRun_eq _ _ _ _ _, fun x hx => abortRun_read hx, fun hal x _ => ?_⟩
  rw [hal]
  exact (abortRun_read_cases (s := (s.accept 0x04#8).clearOut) .memory hm x).imp_right wouldStore_of_mem_wouldWrite_pack

end Sys2Proof.Machine
end

section
/-! PROOFS. The engine state `ABORT`: only reset leaves it (60_exceptions.md R242), and no step enters it with
`AbortDispatch` (R240). -/

namespace Sys2Proof.Machine

/-- A host store neither enters `ABORT` nor leaves it (60_exceptions.md R241, R242). -/
theorem hostStore_abort_iff (a : Word64) (b : Byte) {s : State} {c : AbortCode} :
    (hostStore a b s).engine = .abort c ↔ s.engine = .abort c := by
  cases hb : s.engine.isBusy with
  | false =>
    rw [hostStore_notBusy hb]
    rfl
  | true =>
    obtain ⟨r, hr⟩ := Engine.isBusy_iff.1 hb
    rw [hostStore_busy hr, hr]
    simp

/-! ### The way out of `ABORT` -/

/-- In `ABORT` every action of the host but reset keeps the state and its code: the lock voids the writes
(45_command_protocol.md R219; 60_exceptions.md R242). -/
theorem HostStep.engine_of_abort {s t : State} {a : HostAction} {c : AbortCode} (h : HostStep s a t)
    (hc : s.engine = .abort c) : t.engine = .abort c ∨ (a = .reset ∧ t.engine = .idle) := by
  have hnot : ¬ s.ready := fun hs => by
    unfold State.ready at hs
    rw [hc] at hs
    cases hs
  cases h with
  | ignored _ => exact .inl hc
  | register hs _ _ => exact absurd hs hnot
  | illegal hs _ => exact absurd hs hnot
  | command hs _ _ => exact absurd hs hnot
  | read => exact .inl hc
  | wait => exact .inl (by rw [hostWait_eq]; exact hc)
  | store => exact .inl ((hostStore_abort_iff _ _).2 hc)
  | reset => exact .inr ⟨rfl, resetPulse_engine s⟩

/-- Settles O52: in `ABORT` no agent moves, and of the host's actions only reset leaves it. -/
theorem onlyResetLeavesAbort : Obligations.OnlyResetLeavesAbort := by
  intro s t c hc hstep
  cases Transition.of_step hstep with
  | rest _ => exact .inl hc
  | host hh ha => exact (ha.engine_of_abort hc).imp_right fun ⟨hreset, he⟩ => ⟨he, _, hreset ▸ hh⟩
  | worker hr => rw [hc] at hr; cases hr
  | sequencer hr => rw [hc] at hr; cases hr

/-! ### `AbortDispatch` -/

/-- A launch aborts for memory only (60_exceptions.md R240, R241). -/
theorem launch_engine_ne_dispatch (op : Launch) (s : State) : (launch op s).engine ≠ .abort .dispatch := by
  rcases launch_cases op s with ⟨-, he⟩ | ⟨-, he⟩ <;> rw [he]
  · rcases complete_engine op s with he | he <;> simp [he]
  · simp [beginRun]

/-- An accepted command has checked its width before it selects a strategy (60_exceptions.md R240). -/
theorem exec_engine_ne_dispatch {i : Instr} {s t : State} (h : exec i s = .next t) : t.engine ≠ .abort .dispatch := by
  obtain ⟨s', -, ⟨e, rfl⟩ | ⟨c, rfl⟩ | ⟨op, -, -, -, rfl⟩⟩ := exec_next_cases h
  · simp
  · simp
  · exact launch_engine_ne_dispatch op s'

/-- No action of the host enters `ABORT` with `AbortDispatch`. -/
theorem HostStep.engine_ne_dispatch {s t : State} {a : HostAction} (h : HostStep s a t)
    (hs : s.engine ≠ .abort .dispatch) : t.engine ≠ .abort .dispatch := by
  cases h with
  | ignored _ => exact hs
  | register _ _ _ => rwa [State.writeReg_engine]
  | illegal _ _ => nofun
  | command _ _ ht => exact exec_engine_ne_dispatch ht
  | read => exact hs
  | wait => rw [hostWait_eq]; exact hs
  | store => exact fun he => hs ((hostStore_abort_iff _ _).1 he)
  | reset => rw [resetPulse_engine]; nofun

/-- Settles O54: no action of the host leads there, a worker aborts for memory only, and the sequencer does not abort. -/
theorem abortDispatchIsDead : Obligations.AbortDispatchIsDead := by
  intro s t hs hstep
  cases Transition.of_step hstep with
  | rest _ => exact hs
  | host _ ha => exact ha.engine_ne_dispatch hs
  | @worker r w ts hr =>
    intro hd
    rcases workerTurn_engine (s := { s with turns := ts }) hr w with he | he <;> rw [hd] at he <;> cases he
  | @sequencer r ts hr =>
    intro hd
    rcases sequencerTurn_engine (s := { s with turns := ts }) hr with he | he <;> rw [hd] at he <;> cases he

end Sys2Proof.Machine
end

section
/-! PROOFS. A busy phase ends (70_reset_and_hazards.md R276): each step under a plan uses up one of its moves, and each step
after it leaves less to do or ends the command. -/

namespace Sys2Proof.Machine

/-! ### What a move keeps of the plan -/

/-- The host's actions on a busy engine leave the plan: the lock voids the writes (45_command_protocol.md R219). -/
theorem HostStep.turns_of_busy {s t : State} {a : HostAction} (h : HostStep s a t) (hb : s.engine.isBusy = true) :
    t.turns = s.turns := by
  have hnot : ¬ s.ready := fun hs => by rw [hs.notBusy] at hb; cases hb
  cases h with
  | ignored _ => rfl
  | register hs _ _ => exact absurd hs hnot
  | illegal hs _ => exact absurd hs hnot
  | command hs _ _ => exact absurd hs hnot
  | read => rfl
  | wait => rw [hostWait_eq]
  | store => rw [hostStore_eq]
  | reset => rw [resetPulse_eq]; rfl

theorem workerTurn_turns (r : Run) (w : Nat) (s : State) : (workerTurn r w s).turns = s.turns := by
  rcases workerTurn_cases r w s with he | ⟨wk, wk', cells, -, -, -, he⟩ | he <;> rw [he]
  · rfl
  · rw [abortRun_eq]

theorem sequencerTurn_turns (r : Run) (s : State) : (sequencerTurn r s).turns = s.turns := by
  rcases sequencerTurn_cases r s with he | ⟨-, he⟩ <;> rw [he]
  rw [retire_eq]

/-- A move of a busy command leaves the plan, whoever makes it (45_command_protocol.md R220). -/
theorem busyTurn_turns {r : Run} {who : Turn} {s t : State} (hb : s.engine.isBusy = true)
    (h : (busyTurn r who s).Reaches t) : t.turns = s.turns := by
  cases who with
  | host =>
    cases hh : s.host with
    | nil =>
      rw [busyTurn, hostTurn_nil hh] at h
      exact congrArg State.turns (Eq.symm h)
    | cons a rest =>
      rw [busyTurn, hostTurn_cons hh] at h
      exact (HostStep.of_hostAct h).turns_of_busy hb
  | worker w => exact h ▸ workerTurn_turns r w s
  | sequencer => exact h ▸ sequencerTurn_turns r s

/-- A step of a busy command uses up one move of its plan (log entry 4). -/
theorem step_turns_of_busy {s t : State} {who : Turn} {ts : List Turn} (hb : s.engine.isBusy = true)
    (ht : s.turns = who :: ts) (h : step s = .next t) : t.turns = ts := by
  obtain ⟨r, hr⟩ := Engine.isBusy_iff.1 hb
  rw [step_eq_next_iff, fetch_busy_cons hr ht] at h
  exact busyTurn_turns (s := { s with turns := ts }) hb h

/-! ### A step after the plan -/

/-- The agent that moves when the plan is over has something to do: it is an unfinished worker, or the sequencer of a run
whose workers are all finished (log entry 4). -/
theorem Run.defaultTurn_cases (r : Run) :
    (∃ k w, r.defaultTurn = .worker k ∧ r.workers[k]? = some w ∧ w.finished r.op = false) ∨
      (r.defaultTurn = .sequencer ∧ r.finished = true) := by
  unfold Run.defaultTurn
  split
  next k hk =>
    obtain ⟨hlt, hfin, -⟩ := List.findIdx?_eq_some_iff_getElem.1 hk
    exact .inl ⟨k, r.workers[k], rfl, List.getElem?_eq_getElem hlt, by simpa using hfin⟩
  next hnone => exact .inr ⟨rfl, by simpa [Run.finished, List.findIdx?_eq_none_iff] using hnone⟩

/-- An unfinished worker's turn aborts the command or leaves the run less to do (10_state.md R53, 60_exceptions.md R241). -/
theorem workerTurn_left {r : Run} {k : Nat} {w : Worker} (hw : r.workers[k]? = some w) (hf : w.finished r.op = false)
    (s : State) : (workerTurn r k s).engine.isBusy = false ∨
      ∃ r', (workerTurn r k s).engine = .busy r' ∧ r'.left < r.left := by
  cases hadv : w.advance s.par s.mem r.op with
  | error c => exact .inl (by rw [workerTurn_of_error hw hf hadv, abortRun_engine]; rfl)
  | ok x => exact .inr ⟨_, by rw [workerTurn_of_ok hw hf hadv]; rfl, Run.left_set hw (Worker.advance_left hf hadv)⟩

/-- A step after the plan ends the command or leaves its run less to do. -/
theorem step_left_of_noPlan {s t : State} {r : Run} (hr : s.engine = .busy r) (ht : s.turns = [])
    (h : step s = .next t) :
    t.engine.isBusy = false ∨ ∃ r', t.engine = .busy r' ∧ t.turns = [] ∧ r'.left < r.left := by
  rw [step_eq_next_iff, fetch_busy_nil hr ht] at h
  have hturns : t.turns = [] := (busyTurn_turns (by rw [hr]; rfl) h).trans ht
  rcases r.defaultTurn_cases with ⟨k, w, hd, hw, hf⟩ | ⟨hd, hf⟩ <;> rw [hd] at h
  · obtain rfl : workerTurn r k s = t := h
    exact (workerTurn_left hw hf s).imp_right fun ⟨r', he, hlt⟩ => ⟨r', he, hturns, hlt⟩
  · obtain rfl : sequencerTurn r s = t := h
    exact .inl (by rw [sequencerTurn, if_pos hf, retire_engine]; rfl)

/-! ### The end of the phase -/

/-- Some number of steps from `s` leads to a state that is not busy. -/
def State.PhaseEnds (s : State) : Prop := ∃ k t, Host.Core.run core k s = .next t ∧ t.engine.isBusy = false

theorem State.PhaseEnds.of_notBusy {s : State} (h : s.engine.isBusy = false) : s.PhaseEnds := ⟨0, s, rfl, h⟩

theorem State.PhaseEnds.of_step {s s' : State} (h : step s = .next s') (hend : s'.PhaseEnds) : s.PhaseEnds := by
  obtain ⟨k, t, hrun, ht⟩ := hend
  refine ⟨k + 1, t, ?_, ht⟩
  simp only [Host.Core.run]
  rw [show core.step s = .next s' from h]
  exact hrun

/-- Without a plan the phase ends, by induction on what the run has left. -/
theorem State.phaseEnds_of_noPlan {s : State} {r : Run} (hr : s.engine = .busy r) (ht : s.turns = []) : s.PhaseEnds := by
  induction hn : r.left using Nat.strong_induction_on generalizing s r with
  | _ n ih =>
    obtain ⟨t, hstep⟩ := everyStepHasANextState s
    refine .of_step hstep ?_
    rcases step_left_of_noPlan hr ht hstep with hend | ⟨r', hr', ht', hlt⟩
    · exact .of_notBusy hend
    · exact ih r'.left (hn ▸ hlt) hr' ht' rfl

/-- Under any plan the phase ends, by induction on the plan. -/
theorem State.phaseEnds (s : State) : s.PhaseEnds := by
  induction hts : s.turns generalizing s with
  | nil =>
    cases hb : s.engine.isBusy with
    | false => exact .of_notBusy hb
    | true =>
      obtain ⟨r, hr⟩ := Engine.isBusy_iff.1 hb
      exact phaseEnds_of_noPlan hr hts
  | cons who ts ih =>
    cases hb : s.engine.isBusy with
    | false => exact .of_notBusy hb
    | true =>
      obtain ⟨t, hstep⟩ := everyStepHasANextState s
      exact .of_step hstep (ih t (step_turns_of_busy hb hts hstep))

/-- Settles O50: the plan runs out, and after it every step leaves less to do, until the command ends. -/
theorem busyPhaseEnds : Obligations.BusyPhaseEnds := fun s _ => s.phaseEnds

end Sys2Proof.Machine
end

section
/-! PROOFS. Reset (70_reset_and_hazards.md R260 to R262): the registers after it, a command stopped by it (60_exceptions.md
R243), the commands issued straight after it, and the invariant of the machine at reset. -/

namespace Sys2Proof.Machine

/-! ### The state after reset -/

/-- `STATUS` is 0 after reset: no command, no error, `IDLE` (70_reset_and_hazards.md R260). -/
theorem State.statusWord_resetOf (p : Params) : (State.resetOf p).statusWord = 0#64 :=
  show 0#40 ++ 0#8 ++ 0#8 ++ (0#5 ++ 0#3) = 0#64 by decide

/-- Every register but `CAP` reads 0 after reset (70_reset_and_hazards.md R260). -/
theorem State.readReg_resetOf (p : Params) {reg : Reg} (h : reg ≠ .cap) : (State.resetOf p).readReg reg = 0#64 := by
  cases reg
  case cap => exact absurd rfl h
  case status => exact State.statusWord_resetOf p
  all_goals rfl

/-- Reset outside a busy phase leaves memory (70_reset_and_hazards.md R260). -/
theorem resetPulse_notBusy {s : State} (h : s.engine.isBusy = false) : resetPulse s = s.toReset := by
  unfold resetPulse
  cases he : s.engine with
  | busy r => rw [he] at h; cases h
  | idle | done | error _ | abort _ => rfl

/-- Reset in a busy phase stops the command and then clears the registers (70_reset_and_hazards.md R261). -/
theorem resetPulse_busy {s : State} {r : Run} (h : s.engine = .busy r) :
    resetPulse s =
      (s.abandon r.mem0 r.tainted r.op.writeFootprint (wouldWrite s.par r.mem0 r.op)).toReset := by
  rw [resetPulse, h]

/-- The step in which the host resets a busy engine (70_reset_and_hazards.md R261). -/
theorem step_reset_busy {s : State} {r : Run} {rest : List HostAction} {ts : List Turn} (h : s.engine = .busy r)
    (ht : s.turns = .host :: ts) (hh : s.host = .reset :: rest) :
    step s = .next (resetPulse { s with host := rest, turns := ts }) := by
  rw [step_host_busy h ht hh]
  rfl

/-- Settles O55: the registers one by one, and the pulse in its two forms, outside a busy phase and in one. -/
theorem resetState : Obligations.ResetState := by
  refine ⟨fun p _ h => State.readReg_resetOf p h, fun p => ⟨rfl, capWord_toNat p⟩, fun s rest hb hh => ?_,
    fun s rest ts hb ht hh => ?_⟩
  · rw [step_host hb hh, hostAct, resetPulse_notBusy (s := { s with host := rest }) hb]
    rfl
  · obtain ⟨r, hr⟩ := Engine.isBusy_iff.1 hb
    exact ⟨_, step_reset_busy hr ht hh, resetPulse_eq _⟩

/-- Settles O59: nothing is listed in memory and no command is in progress. -/
theorem resetMeetsTheInvariant : Obligations.ResetMeetsTheInvariant :=
  have hreset (p : Params) : (State.resetOf p).Inv := ⟨rfl, rfl⟩
  ⟨hreset Config.params, hreset⟩

/-! ### Commands issued straight after reset -/

/-- Settles O57: `BITS` is 0, which is no legal width, and the type tags are 0, which is no type. -/
theorem commandsAfterResetFailSafely : Obligations.CommandsAfterResetFailSafely :=
  fun p => ⟨exec_extract_illegal (s := State.resetOf p) rfl, exec_dot_illegal (s := State.resetOf p) rfl,
    exec_matmul_error (s := State.resetOf p) rfl, fun hp => exec_pack_error (s := State.resetOf p) hp rfl⟩

/-! ### A command stopped by reset -/

/-- The bytes a MATMUL writes for a cell are those its completion would store there (43_matmul_driver.md R187). -/
theorem wouldStore_of_mem_wouldWrite_matmul {p : Params} {m : Memory} {a : MatmulArgs} {c : Host.Cell}
    (h : c ∈ wouldWrite p m (.matmul a)) : (Launch.matmul a).wouldStore m c.1 c.2 := by
  obtain ⟨⟨i, j⟩, he, -, hc⟩ := mem_wouldWrite.1 h
  obtain ⟨hi, hj⟩ := mem_elements_matmul.1 he
  obtain ⟨b, hb, rfl⟩ := mem_storedCells.1 hc
  exact ⟨i, hi, j, hj, b, hb, rfl, rfl⟩

/-- A byte a stopped command may have written is one the completed command would store (60_exceptions.md R243). -/
theorem wouldStore_of_mem_wouldWrite {p : Params} {m : Memory} {op : Launch} {c : Host.Cell}
    (h : c ∈ wouldWrite p m op) : op.wouldStore m c.1 c.2 := by
  cases op with
  | dot d => cases h
  | matmul a => exact wouldStore_of_mem_wouldWrite_matmul h
  | pack a => exact wouldStore_of_mem_wouldWrite_pack h

/-- Settles O56: the pulse stops the command, which leaves the bytes outside its output region and, where no host duty is
broken, each byte inside as before the command or as it would have been stored. -/
theorem resetStopsACommand : Obligations.ResetStopsACommand := by
  intro s run rest ts hinv hr ht hh
  refine ⟨_, step_reset_busy hr ht hh, resetPulse_eq _, ?_⟩
  rw [resetPulse_busy (s := { s with host := rest, turns := ts }) hr, State.toReset_mem]
  refine ⟨fun x hx => State.abandon_read hx, fun hclean x hx => ?_⟩
  rw [hclean]
  exact (State.abandon_output (s := { s with host := rest, turns := ts }) hinv.1 (mem_writeFootprint.2 hx)).imp_right
    wouldStore_of_mem_wouldWrite

end Sys2Proof.Machine
end
